-- ==== Sys2Proof/Word.lean ====
section
/-!
DEFINITION. The two sizes of data LZ4BD knows (spec/00_scope.md R6): a byte is 8 bits, a word is 32 bits.
Their arithmetic is core `BitVec` arithmetic; `+32`, `-32` and `*32` of R7 are `+`, `-` and `*` on `Word`.
-/

namespace Sys2Proof

/-- A byte, 8 bits (R6). -/
abbrev Byte := BitVec 8

/-- A word, 32 bits (R6); every register is one word wide (R30). -/
abbrev Word := BitVec 32

end Sys2Proof
end

