-- ==== Sys2Proof/Config.lean ====
section
/-!
DEFINITION. The parameters of spec/00_scope.md R5, fixed and OPEN, and the free values of spec/20_memory.md R108.
-/

namespace Sys2Proof

/-- The OPEN parameters of R5. They are plain data that State carries and no step changes, so a statement about
every state is a statement about every admitted pair of sizes (log entry 1). -/
structure Params where
  /-- IBUF_SIZE, in bytes. -/
  ibufSize : Nat
  /-- OBUF_SIZE, in bytes. -/
  obufSize : Nat
  deriving DecidableEq, Repr

/-- The constraint R5 puts on the OPEN parameters: each size is `1 .. 2^31`. -/
abbrev Params.valid (p : Params) : Prop :=
  1 ≤ p.ibufSize ∧ p.ibufSize ≤ 2 ^ 31 ∧ 1 ≤ p.obufSize ∧ p.obufSize ≤ 2 ^ 31

namespace Config

/-- The sizes State.reset carries. DESIGN CHOICE (log entry 1): R5 leaves them open; these are the ones
spec/95_test_vectors.md section 0 starts its vectors from. -/
def defaultParams : Params := { ibufSize := 4096, obufSize := 1048576 }

/-- WINDOW_MAX, 65536 bytes (R5). -/
def windowMax : Nat := 65536

/-- MINMATCH, 4 (R5). -/
def minMatch : Nat := 4

/-- NIBBLE_ESC, 15 (R5). -/
def nibbleEsc : Nat := 15

/-- EXT_CONT, 255 (R5). -/
def extCont : Byte := 255

/-- The byte an IBUF address holds at power-on: unspecified, drawn freely, under no law (R108, U1).
A free value: it has no body, so nothing proved can depend on what it is (log entry 2). -/
opaque ibufPowerOn : Nat → Byte

/-- The byte an OBUF address holds at power-on: unspecified, drawn freely, under no law (R108, U1, U18). -/
opaque obufPowerOn : Nat → Byte

end Config

end Sys2Proof
end

