-- ==== Sys2Proof/Syntax.lean ====
section
/-!
DEFINITION. The instructions: one constructor per row of spec/opcode_table.json.
The first seven are host commands (spec/30_encoding.md R133); they have no operand field (R132).
The rest are the elements of a compressed block (R120), which the decoder executes from IBUF.
-/

namespace Sys2Proof

/-- One constructor per row of the opcode table. -/
inductive Instr where
  /-- ACK, opcode 0x00 (R154). -/
  | ack
  /-- DEC_START, opcode 0x01 (R155). -/
  | decStart
  /-- RAW_COPY, opcode 0x02 (R156). -/
  | rawCopy
  /-- HASH_INIT, opcode 0x10 (R157). -/
  | hashInit
  /-- HASH_UPDATE, opcode 0x11 (R158). -/
  | hashUpdate
  /-- HASH_DIGEST, opcode 0x12 (R159). -/
  | hashDigest
  /-- SOFT_RESET, opcode 0xFF (R160). -/
  | softReset
  /-- TOKEN, the first byte of every sequence: LL in bits 7:4, ML in bits 3:0 (R121). -/
  | token (t : Byte)
  /-- LEXT, one literal-length extension byte (R122). -/
  | lext (e : Byte)
  /-- LITERAL, one literal byte (R124). -/
  | literal (b : Byte)
  /-- OFFSET, the two-byte little-endian match offset (R125). -/
  | offset (o : BitVec 16)
  /-- MEXT, one match-length extension byte (R126). -/
  | mext (e : Byte)
  /-- SEQ, a whole non-last sequence (R120, R135): its literals, its offset, and Mraw, the match length
  without the added 4 (R127). -/
  | seq (lits : List Byte) (off : BitVec 16) (mraw : Nat)
  /-- LAST, the last sequence of a block (R129, R135): its literals and the ignored ML nibble. -/
  | last (lits : List Byte) (ml : BitVec 4)
  deriving DecidableEq, Repr

end Sys2Proof
end

