-- ==== Sys2Proof/WellFormed.lean ====
section
/-!
DEFINITION. Which instructions are legal (spec/30_encoding.md R125, R131, R135).
The only illegal operand is an offset of 0; it still decodes, and the decoder reports it as OFFSET_ZERO (R188).
-/

namespace Sys2Proof

/-- An instruction is well formed when R135 lets it be written: `1 <= n <= 65535` for every offset. Every command and
every token, extension and literal byte is legal (R121, R131). -/
def Instr.wellFormed : Instr → Bool
  | .ack => true
  | .decStart => true
  | .rawCopy => true
  | .hashInit => true
  | .hashUpdate => true
  | .hashDigest => true
  | .softReset => true
  | .token _ => true
  | .lext _ => true
  | .literal _ => true
  | .offset o => o != 0
  | .mext _ => true
  | .seq _ off _ => off != 0
  | .last _ _ => true

end Sys2Proof
end

