-- ==== Sys2Proof/Decode.lean ====
section
/-!
DEFINITION. The decoder, total on any bytes and rejecting by name, and the encoder (spec/30_encoding.md R120 to R136).
A block has no prefix bits (R128): what a byte is depends on where in the grammar it stands. So the decoder is given
that place, a `Slot`.
-/

namespace Sys2Proof

/-- Where the bytes to decode stand: in a word written to CMD (R132), or at an element of a block (R120). -/
inductive Slot where
  | command
  | token
  | lext
  | literal
  | offset
  | mext
  /-- At the first byte of a sequence, with the rest of the block's input after it. -/
  | sequence
  deriving DecidableEq, Repr

/-- Why bytes do not decode. -/
inductive DecodeError where
  /-- The opcode is reserved (R134). -/
  | reservedOpcode (op : Byte)
  /-- The input ends inside the element (R131). -/
  | inputEnd (slot : Slot)
  deriving DecidableEq, Repr

namespace Decode

/-! ### Fields -/

/-- Bits 7:0 of a word written to CMD; bits 31:8 are ignored (R132). -/
def opcodeOf (v : Word) : Byte := v.extractLsb' 0 8

/-- LL, the literal-length nibble, bits 7:4 of a token (R121). -/
def literalNibble (t : Byte) : BitVec 4 := t.extractLsb' 4 4

/-- ML, the match-length nibble, bits 3:0 of a token (R121). -/
def matchNibble (t : Byte) : BitVec 4 := t.extractLsb' 0 4

/-- `offset = o0 | (o1 << 8)` (R125). -/
def offsetOf (o0 o1 : Byte) : BitVec 16 := o1 ++ o0

/-- The first byte of an offset on the wire, `n[7:0]` (R136). -/
def offsetLow (o : BitVec 16) : Byte := o.extractLsb' 0 8

/-- The second byte of an offset on the wire, `n[15:8]` (R136). -/
def offsetHigh (o : BitVec 16) : Byte := o.extractLsb' 8 8

/-- The little-endian word at the head of a byte string (R93). -/
def wordOf (b0 b1 b2 b3 : Byte) : Word := b3 ++ b2 ++ b1 ++ b0

/-! ### Decoding -/

/-- A command word: the opcode table R133, every other opcode reserved (R134). -/
def command (v : Word) : Except DecodeError Instr :=
  let op := opcodeOf v
  if op = 0x00 then .ok .ack
  else if op = 0x01 then .ok .decStart
  else if op = 0x02 then .ok .rawCopy
  else if op = 0x10 then .ok .hashInit
  else if op = 0x11 then .ok .hashUpdate
  else if op = 0x12 then .ok .hashDigest
  else if op = 0xFF then .ok .softReset
  else .error (.reservedOpcode op)

/-- A run of extension bytes added to `acc`: it goes on while the byte just read is 255 (R122, R126).
`none` when the input ends first. -/
def extension : List Byte → Nat → Option (Nat × List Byte)
  | [], _ => none
  | e :: rest, acc =>
    if e = Config.extCont then extension rest (acc + e.toNat) else some (acc + e.toNat, rest)

/-- A length from its nibble and, when the nibble is 15, the extension run at the head of the input (R123, R127). -/
def length (nibble : BitVec 4) (bytes : List Byte) : Option (Nat × List Byte) :=
  if nibble.toNat = Config.nibbleEsc then extension bytes Config.nibbleEsc else some (nibble.toNat, bytes)

/-- The part of a sequence after its literals: nothing when the input ends there (R129), else OFFSET and MEXT. -/
def afterLiterals (lits : List Byte) (ml : BitVec 4) : List Byte → Except DecodeError (Instr × List Byte)
  | [] => .ok (.last lits ml, [])
  | [_] => .error (.inputEnd .offset)
  | o0 :: o1 :: rest =>
    match length ml rest with
    | none => .error (.inputEnd .mext)
    | some (mraw, rest') => .ok (.seq lits (offsetOf o0 o1) mraw, rest')

/-- A whole sequence at the head of what is left of the block's input (R120, R128, R129). -/
def sequence : List Byte → Except DecodeError (Instr × List Byte)
  | [] => .error (.inputEnd .token)
  | t :: rest =>
    match length (literalNibble t) rest with
    | none => .error (.inputEnd .lext)
    | some (n, rest') =>
      if rest'.length < n then .error (.inputEnd .literal)
      else afterLiterals (rest'.take n) (matchNibble t) (rest'.drop n)

end Decode

/-- The decoder: the instruction at the head of the bytes, for the place they stand in, with the bytes after it. -/
def decode (slot : Slot) (bytes : List Byte) : Except DecodeError (Instr × List Byte) :=
  match slot, bytes with
  | .command, b0 :: b1 :: b2 :: b3 :: rest =>
    match Decode.command (Decode.wordOf b0 b1 b2 b3) with
    | .ok i => .ok (i, rest)
    | .error e => .error e
  | .command, _ => .error (.inputEnd .command)
  | .token, t :: rest => .ok (.token t, rest)
  | .token, [] => .error (.inputEnd .token)
  | .lext, e :: rest => .ok (.lext e, rest)
  | .lext, [] => .error (.inputEnd .lext)
  | .literal, b :: rest => .ok (.literal b, rest)
  | .literal, [] => .error (.inputEnd .literal)
  | .offset, o0 :: o1 :: rest => .ok (.offset (Decode.offsetOf o0 o1), rest)
  | .offset, _ => .error (.inputEnd .offset)
  | .mext, e :: rest => .ok (.mext e, rest)
  | .mext, [] => .error (.inputEnd .mext)
  | .sequence, bytes => Decode.sequence bytes

/-- A whole block as its sequences, the last one included (R120). Each sequence takes at least one byte, so the
length of the input is fuel enough. -/
def decodeBlockFuel : Nat → List Byte → Except DecodeError (List Instr)
  | 0, _ => .error (.inputEnd .token)
  | fuel + 1, bytes =>
    match Decode.sequence bytes with
    | .error e => .error e
    | .ok (.last lits ml, _) => .ok [.last lits ml]
    | .ok (i, rest) =>
      match decodeBlockFuel fuel rest with
      | .error e => .error e
      | .ok is => .ok (i :: is)

/-- Disassembly of a block (R135 read backwards). -/
def decodeBlock (bytes : List Byte) : Except DecodeError (List Instr) :=
  decodeBlockFuel (bytes.length + 1) bytes

/-! ### Encoding (R130, R136) -/

namespace Encode

/-- The nibble of a length: `min(n, 15)` (R136). -/
def nibble (n : Nat) : BitVec 4 := BitVec.ofNat 4 (min n Config.nibbleEsc)

/-- The extension bytes of a length: none below 15; else `floor((n-15)/255)` bytes of 255 and then one byte
`(n-15) mod 255` (R130, R136). -/
def extension (n : Nat) : List Byte :=
  if n < Config.nibbleEsc then []
  else List.replicate ((n - Config.nibbleEsc) / 255) Config.extCont
    ++ [BitVec.ofNat 8 ((n - Config.nibbleEsc) % 255)]

/-- A token byte, the literal-length nibble in bits 7:4 (R121). -/
def token (ll ml : BitVec 4) : Byte := ll ++ ml

/-- The four bytes of a command word with its ignored bits zero (R132, R133). -/
def command (op : Byte) : List Byte := [op, 0, 0, 0]

end Encode

/-- The opcode of a command (R133); an element of a block has none. -/
def Instr.opcode : Instr → Option Byte
  | .ack => some 0x00
  | .decStart => some 0x01
  | .rawCopy => some 0x02
  | .hashInit => some 0x10
  | .hashUpdate => some 0x11
  | .hashDigest => some 0x12
  | .softReset => some 0xFF
  | .token _ => none
  | .lext _ => none
  | .literal _ => none
  | .offset _ => none
  | .mext _ => none
  | .seq _ _ _ => none
  | .last _ _ => none

/-- The bytes of an instruction: a command as the little-endian word written to CMD, an element as its wire bytes. -/
def encode : Instr → List Byte
  | .ack => Encode.command 0x00
  | .decStart => Encode.command 0x01
  | .rawCopy => Encode.command 0x02
  | .hashInit => Encode.command 0x10
  | .hashUpdate => Encode.command 0x11
  | .hashDigest => Encode.command 0x12
  | .softReset => Encode.command 0xFF
  | .token t => [t]
  | .lext e => [e]
  | .literal b => [b]
  | .offset o => [Decode.offsetLow o, Decode.offsetHigh o]
  | .mext e => [e]
  | .seq lits off mraw =>
    [Encode.token (Encode.nibble lits.length) (Encode.nibble mraw)] ++ Encode.extension lits.length ++ lits
      ++ [Decode.offsetLow off, Decode.offsetHigh off] ++ Encode.extension mraw
  | .last lits ml =>
    [Encode.token (Encode.nibble lits.length) ml] ++ Encode.extension lits.length ++ lits

/-- Assembly of a block: the concatenation of the encodings of its lines (R135). -/
def encodeBlock (is : List Instr) : List Byte := is.flatMap encode

/-- The place in the grammar an instruction is decoded at. -/
def Instr.slot : Instr → Slot
  | .ack => .command
  | .decStart => .command
  | .rawCopy => .command
  | .hashInit => .command
  | .hashUpdate => .command
  | .hashDigest => .command
  | .softReset => .command
  | .token _ => .token
  | .lext _ => .lext
  | .literal _ => .literal
  | .offset _ => .offset
  | .mext _ => .mext
  | .seq _ _ _ => .sequence
  | .last _ _ => .sequence

/-! ### The opcode table's words -/

/-- The first `k` bytes of `w`, least significant first. -/
def bytesOfNat : Nat → Nat → List Byte
  | 0, _ => []
  | k + 1, w => BitVec.ofNat 8 w :: bytesOfNat k (w / 256)

/-- The instruction of a decoding, without the bytes after it. -/
def decodedInstr (r : Except DecodeError (Instr × List Byte)) : Option Instr :=
  match r with
  | .ok (i, _) => some i
  | .error _ => none

/-- The place a word of the opcode table is decoded at, chosen by its size, since the table's one-byte rows differ only in the
place they stand in (R128; log entry 12): four bytes are a word written to CMD; two bytes are an OFFSET; one byte is a
command when its value is a command's opcode (the word's upper bits are 0) and else a LITERAL, the one-byte row to which
the table gives an operand field; any other size is a whole sequence. -/
def tableSlot (nbits w : Nat) : Slot :=
  if nbits = 32 then .command
  else if nbits = 16 then .offset
  else if nbits = 8 then
    match Decode.command (BitVec.ofNat 32 (w % 256)) with
    | .ok _ => .command
    | .error _ => .literal
  else .sequence

/-- The bytes a word of the opcode table stands for at its place: a command is always four bytes, its upper bits 0. -/
def tableBytes (nbits w : Nat) : List Byte :=
  match tableSlot nbits w with
  | .command => bytesOfNat 4 (w % 2 ^ nbits)
  | _ => bytesOfNat ((nbits + 7) / 8) (w % 2 ^ nbits)

/-- The instruction the decoder reads from a word of the opcode table (bit 0 is the least significant bit of the first
byte). -/
def decodeTableWord (nbits w : Nat) : Option Instr :=
  decodedInstr (decode (tableSlot nbits w) (tableBytes nbits w))

end Sys2Proof
end

