-- ==== Sys2Proof/Machine/State.lean ====
section
/-!
DEFINITION. The state of the machine (spec/10_state.md): every register of R30, the hidden stripe buffers (R64), the two
buffers (spec/20_memory.md R91, R92), the mark HOSTFAULT (R69), the sizes (R5), and two fields of the model's own, the
schedule and the values read. All of it is plain data.
-/

namespace Sys2Proof.Machine

/-! ### Fields that are names -/

/-- The engine state, STATUS.STATE (R41). Values 12 to 15 are never produced. -/
inductive EngState where
  | idle
  | token
  | lext
  | litchk
  | lit
  | off0
  | off1
  | mext
  | mchk
  | copy
  | raw
  | habs
  deriving DecidableEq, Repr

/-- The error codes of STATUS.ERRCODE (R40, R290). Values 6 to 15 are never produced. `noError` is NONE. -/
inductive ErrCode where
  | noError
  | offsetZero
  | offsetRange
  | truncated
  | outputLimit
  | config
  deriving DecidableEq, Repr

/-- The two buffers (R90). REG is the third space and holds the registers. -/
inductive Space where
  | ibuf
  | obuf
  deriving DecidableEq, Repr

/-- The two hash contexts, `c = 0` and `c = 1` (R55). -/
inductive Ctx where
  | c0
  | c1
  deriving DecidableEq, Repr

/-- The registers of the register window (R30), the hash registers once for each context. -/
inductive Reg where
  | id
  | ctrl
  | cmd
  | status
  | inBase
  | inLen
  | outBase
  | maxSize
  | winLen
  | inPos
  | outLen
  | dToken
  | dCount
  | dOffset
  | winEff
  | hSeed (c : Ctx)
  | hAddr (c : Ctx)
  | hLen (c : Ctx)
  | hPos (c : Ctx)
  | hTotal (c : Ctx)
  | hDigest (c : Ctx)
  | hHdrchk (c : Ctx)
  | hBufcnt (c : Ctx)
  | hV1 (c : Ctx)
  | hV2 (c : Ctx)
  | hV3 (c : Ctx)
  | hV4 (c : Ctx)
  deriving DecidableEq, Repr

/-! ### Registers with fields -/

/-- CTRL (R32). Bits 31:4 are reserved: they read 0 and a write to them is ignored. -/
structure Ctrl where
  linked : Bool
  hsrc : Bool
  irqEn : Bool
  hctx : Bool
  deriving DecidableEq, Repr

/-- STATUS (R35). Bits 31:24 are reserved and read 0. -/
structure Status where
  busy : Bool
  done : Bool
  err : Bool
  rej : Bool
  errCode : ErrCode
  state : EngState
  errState : EngState
  lastCmd : BitVec 8
  deriving DecidableEq, Repr

/-- One hash context (R55 to R64): its registers and its hidden 16-byte stripe buffer. H_HDRCHK is a view of `digest`
(R61) and H_BUFCNT is `count` and `large` (R62). -/
structure HashCtx where
  seed : Word
  addr : Word
  len : Word
  pos : Word
  total : Word
  digest : Word
  /-- H_BUFCNT.COUNT, 0 to 15 between steps (R62). -/
  count : Fin 16
  /-- H_BUFCNT.LARGE (R62). -/
  large : Bool
  v1 : Word
  v2 : Word
  v3 : Word
  v4 : Word
  /-- H_BUF, of which only the first `count` bytes mean anything (R64). -/
  buf : Vector Byte 16
  deriving DecidableEq, Repr

/-- The mark HOSTFAULT, a set of the three host-contract violations (R69, R298). -/
structure HostFault where
  hazard : Bool
  badAccess : Bool
  badAddr : Bool
  deriving DecidableEq, Repr

/-! ### Memory and events -/

/-- A buffer: the bytes written to it since power-on, in strictly rising order of address. An address that is not listed
has not been written, and the machine reads there the free power-on byte of Config (R108; log entry 2). -/
abbrev Memory := List Host.Cell

/-- The canonical form of a buffer: addresses strictly rising. What an unlisted address holds is "not written", and no entry
says that, so equal contents are equal lists. -/
abbrev Memory.wf (m : Memory) : Prop := m.Pairwise (fun x y => x.1 < y.1)

/-- Every listed address exists in a buffer of `size` bytes. -/
abbrev Memory.within (m : Memory) (size : Nat) : Prop := ∀ c ∈ m, c.1 < size

/-- One host action (R9, R94, R95, R137). The register accesses take any offset and any width in bytes, so that the
accesses R94 forbids are actions too. -/
inductive HostAction where
  /-- RD, a read of `width` bytes at an offset of the register window. -/
  | regRead (offset width : Nat)
  /-- WR and CMD, a write of `width` bytes at an offset of the register window. -/
  | regWrite (offset width : Nat) (value : Word)
  /-- RDB, a read of one buffer byte. -/
  | bufRead (space : Space) (addr : Nat)
  /-- WRB, a write of one buffer byte. -/
  | bufWrite (space : Space) (addr : Nat) (value : Byte)
  /-- WAIT, polling until BUSY = 0 (R138; log entry 6). -/
  | wait
  deriving DecidableEq, Repr

/-- One event of the interleaving (R9, R100). -/
inductive Event where
  /-- The host's next action. -/
  | host (a : HostAction)
  /-- One engine step (R180). -/
  | engine
  /-- The engine's steps over one whole element, fused (R330; log entry 7). -/
  | fused
  deriving DecidableEq, Repr

/-! ### The state -/

/-- Everything the spec gives the machine. The names are those of the register map (R30). -/
structure State where
  /-- IBUF_SIZE and OBUF_SIZE (R5); no step changes them. -/
  params : Params
  ctrl : Ctrl
  status : Status
  inBase : Word
  inLen : Word
  outBase : Word
  maxSize : Word
  winLen : Word
  /-- IN_POS, the decoder's program counter (R49, R72). -/
  inPos : Word
  outLen : Word
  /-- D_TOKEN bits 7:0 (R51). -/
  dToken : Byte
  dCount : Word
  /-- D_OFFSET bits 15:0 (R53). -/
  dOffset : BitVec 16
  winEff : Word
  h0 : HashCtx
  h1 : HashCtx
  ibuf : Memory
  obuf : Memory
  hostFault : HostFault
  /-- The model's own: the events still to come (R9, R100; log entry 4). -/
  schedule : List Event
  /-- The model's own: the values host reads have returned, newest first (log entry 5). -/
  reads : List Word
  deriving DecidableEq, Repr

/-- Why the machine stops. Neither is reached from a state that meets Safety's invariant (log entry 9). -/
inductive Fault where
  /-- Raised by an engine access at an address its buffer does not have (R90, R105 says none happens). Safe: the spec gives
  no such access a meaning. -/
  | engineAddress (space : Space) (addr : Nat)
  /-- Raised by an engine turn with BUSY = 1 and STATE = IDLE, which R36 rules out and R180 gives no action. Safe. -/
  | noEngineStep
  deriving DecidableEq, Repr

/-- Why the machine has no meaning for an instruction. -/
inductive Refusal where
  /-- Raised by exec for an instruction without a meaning; no instruction is left without one. Safe. -/
  | notModelled (mnemonic : String)
  deriving DecidableEq, Repr

/-- What a step or a meaning answers. -/
abbrev Result := Host.Outcome State Fault Refusal

/-! ### Reset (R30, R70, R320) -/

/-- CTRL after reset: 0 (R32). -/
def Ctrl.reset : Ctrl := { linked := false, hsrc := false, irqEn := false, hctx := false }

/-- STATUS after reset: 0 (R35, R70). -/
def Status.reset : Status :=
  { busy := false, done := false, err := false, rej := false, errCode := .noError, state := .idle, errState := .idle,
    lastCmd := 0 }

/-- A hash context after reset: the state HASH_INIT gives for seed 0 (R63, R70). The bytes of H_BUF mean nothing while COUNT
is 0 (R64); the model holds 0 there, DESIGN CHOICE (log entry 3). -/
def HashCtx.reset : HashCtx :=
  { seed := 0, addr := 0, len := 0, pos := 0, total := 0, digest := 0, count := 0, large := false, v1 := 0x24234428,
    v2 := 0x85EBCA77, v3 := 0x00000000, v4 := 0x61C8864F, buf := Vector.replicate 16 0 }

/-- HOSTFAULT at power-on: empty (R69). -/
def HostFault.none : HostFault := { hazard := false, badAccess := false, badAddr := false }

/-- The machine right after power-on, for any sizes of its buffers (R320). -/
def State.powerOn (p : Params) : State :=
  { params := p, ctrl := .reset, status := .reset, inBase := 0, inLen := 0, outBase := 0, maxSize := 0, winLen := 0,
    inPos := 0, outLen := 0, dToken := 0, dCount := 0, dOffset := 0, winEff := 0, h0 := .reset, h1 := .reset, ibuf := [],
    obuf := [], hostFault := .none, schedule := [], reads := [] }

/-- The machine right after reset, with the sizes of log entry 1. -/
def State.reset : State := State.powerOn Config.defaultParams

end Sys2Proof.Machine
end

