-- ==== Sys2Proof/Machine/Ops.lean ====
section
/-!
DEFINITION. The operations every meaning is built from: arithmetic (spec/00_scope.md R7), byte order (spec/20_memory.md R93), buffer
accesses (R90, R105), and how a command starts, is rejected and ends (spec/40_commands.md R151, R153, spec/60_exceptions.md R291, R292).
-/

namespace Sys2Proof.Machine

/-! ### Arithmetic (R7) -/

/-- `sat32(x) = min(x, 2^32 - 1)` (R7). -/
def sat32 (x : Nat) : Word := BitVec.ofNat 32 (min x (2 ^ 32 - 1))

/-- `rotl32(x, r)` (R7). -/
def rotl32 (x : Word) (r : Nat) : Word := x <<< r ||| x >>> (32 - r)

/-! ### Byte order (R93) -/

/-- `Σ byte(a+i) * 2^(8i)`: a byte string read little-endian (R93). -/
def littleEndian : List Byte → Nat
  | [] => 0
  | b :: rest => b.toNat + 256 * littleEndian rest

/-- The `n` bytes of `v`, least significant first: byte `i` is `v[8i+7:8i]` (R93). -/
def littleEndianBytes (n v : Nat) : List Byte := bytesOfNat n v

/-! ### Buffers (R90 to R92) -/

/-- What is listed at an address of a buffer; `none` for an address nothing has written. -/
def Memory.lookup : Memory → Nat → Option Byte
  | [], _ => none
  | (x, v) :: rest, a => if a = x then some v else Memory.lookup rest a

/-- A buffer with one byte written; it keeps the canonical form. -/
def Memory.store : Memory → Nat → Byte → Memory
  | [], a, v => [(a, v)]
  | (x, w) :: rest, a, v =>
    if a < x then (a, v) :: (x, w) :: rest
    else if a = x then (a, v) :: rest
    else (x, w) :: Memory.store rest a v

/-- The size of a buffer (R5, R90). -/
def State.spaceSize (s : State) : Space → Nat
  | .ibuf => s.params.ibufSize
  | .obuf => s.params.obufSize

/-- The contents of a buffer. -/
def State.memOf (s : State) : Space → Memory
  | .ibuf => s.ibuf
  | .obuf => s.obuf

/-- The free byte an address of a buffer holds at power-on (R108). -/
def powerOnByte : Space → Nat → Byte
  | .ibuf, a => Config.ibufPowerOn a
  | .obuf, a => Config.obufPowerOn a

/-- `IB(a)` and `OB(a)` (R8): the byte last written there, or the free power-on byte (R100, R108). -/
def State.byteAt (s : State) (sp : Space) (a : Nat) : Byte :=
  ((s.memOf sp).lookup a).getD (powerOnByte sp a)

/-- The bytes at `a, a+1, ..., a+n-1` of a buffer, in that order (R8). -/
def State.bytesAt (s : State) (sp : Space) (a n : Nat) : List Byte :=
  (List.range n).map (fun i => s.byteAt sp (a + i))

/-- `MemRead(space, a, n)` (R8, R93). -/
def State.memRead (s : State) (sp : Space) (a n : Nat) : Nat := littleEndian (s.bytesAt sp a n)

/-- The state with one buffer byte written, whatever the address. -/
def State.putByte (s : State) (sp : Space) (a : Nat) (v : Byte) : State :=
  match sp with
  | .ibuf => { s with ibuf := s.ibuf.store a v }
  | .obuf => { s with obuf := s.obuf.store a v }

/-- The state with bytes written at `a, a+1, ...` of a buffer, lowest address first. -/
def State.putBytes (s : State) (sp : Space) (a : Nat) : List Byte → State
  | [] => s
  | v :: rest => State.putBytes (s.putByte sp a v) sp (a + 1) rest

/-- `MemWrite(space, a, n, v)` (R8, R93). -/
def State.memWrite (s : State) (sp : Space) (a n v : Nat) : State := s.putBytes sp a (littleEndianBytes n v)

/-- An engine read of one byte, given to what goes on with it. The acceptance checks keep the address in range (R105); one
outside the buffer does not exist and stops the machine (log entry 9). -/
def engineRead (sp : Space) (a : Nat) (k : Byte → Result) (s : State) : Result :=
  if a < s.spaceSize sp then k (s.byteAt sp a) else .fault (.engineAddress sp a)

/-- An engine write of one OBUF byte, the only buffer the engine writes (R90). -/
def engineWrite (a : Nat) (v : Byte) (k : State → Result) (s : State) : Result :=
  if a < s.spaceSize .obuf then k (s.putByte .obuf a v) else .fault (.engineAddress .obuf a)

/-! ### Hash contexts (R55) -/

/-- The registers of context `c`. -/
def State.hash (s : State) : Ctx → HashCtx
  | .c0 => s.h0
  | .c1 => s.h1

/-- The state with the registers of context `c` replaced; the other context is untouched. -/
def State.setHash (s : State) (c : Ctx) (h : HashCtx) : State :=
  match c with
  | .c0 => { s with h0 := h }
  | .c1 => { s with h1 := h }

/-- `c = CTRL.HCTX` (R55). -/
def State.activeCtx (s : State) : Ctx := if s.ctrl.hctx then .c1 else .c0

/-! ### How a command starts, is rejected and ends -/

/-- `state <- S` (R8). -/
def State.enter (s : State) (st : EngState) : State := { s with status := { s.status with state := st } }

/-- `REG.STATUS.REJ <- 1`, and nothing else (R39, R151, R152). -/
def reject (s : State) : State := { s with status := { s.status with rej := true } }

/-- The prologue of every accepted command other than SOFT_RESET (R153). -/
def prologue (op : BitVec 8) (s : State) : State :=
  { s with status := { s.status with done := false, err := false, errCode := .noError, errState := .idle, lastCmd := op } }

/-- `raise Error(code)` (R291): the one way a command ends with an error. -/
def raiseError (code : ErrCode) (s : State) : State :=
  { s with status := { s.status with err := true, errCode := code,
                                     errState := if code = .config then .idle else s.status.state, state := .idle,
                                     busy := false } }

/-- The record a violation leaves in HOSTFAULT: a REG access that is not an aligned word (R94, R298). -/
def markBadAccess (s : State) : State := { s with hostFault := { s.hostFault with badAccess := true } }

/-- The record of a buffer access at an address that does not exist (R95, R298). -/
def markBadAddr (s : State) : State := { s with hostFault := { s.hostFault with badAddr := true } }

/-- The record of a buffer write while busy (R106, R298). -/
def markHazard (s : State) : State := { s with hostFault := { s.hostFault with hazard := true } }

/-- The host takes the value a read returned (log entry 5). -/
def recordRead (v : Word) (s : State) : State := { s with reads := v :: s.reads }

/-- What returns from an error (R295): ACK's effect after its prologue, `REG.STATUS.REJ <- 0` (R154). -/
def clearReject (s : State) : State := { s with status := { s.status with rej := false } }

/-- `finish()` (R292): the one way a command ends with success. -/
def finish (s : State) : State :=
  { s with status := { s.status with done := true, state := .idle, busy := false } }

/-- Starts the engine: `REG.STATUS.BUSY <- 1; state <- S` (R155, R156, R158). -/
def startEngine (st : EngState) (s : State) : State :=
  { s with status := { s.status with busy := true, state := st } }

/-- A command other than SOFT_RESET, presented to the sequencer: rejected while busy (R151), else the prologue and then the
command's own action (R150). -/
def acceptCommand (op : BitVec 8) (action : State → State) (s : State) : Result :=
  if s.status.busy then .next (reject s) else .next (action (prologue op s))

/-- Goes on with the engine's next step if the last one left a command running (R180). -/
def andThen (r : Result) (k : State → Result) : Result :=
  match r with
  | .next s => if s.status.busy then k s else .next s
  | .fault f => .fault f
  | .refused f => .refused f

/-- Runs one step for each byte of a string, while a command is running. -/
def andThenEach (f : Byte → State → Result) : List Byte → Result → Result
  | [], r => r
  | b :: rest, r => andThenEach f rest (andThen r (f b))

/-- Runs a step `n` times, while a command is running. -/
def andThenTimes (f : State → Result) : Nat → Result → Result
  | 0, r => r
  | n + 1, r => andThenTimes f n (andThen r f)

end Sys2Proof.Machine
end

