-- ==== Sys2Proof/Machine/Operands.lean ====
section
/-!
DEFINITION. Where a command's operands lie, and the acceptance checks on them: `IN(i)` and `OUT(k)` of
spec/41_block_decode.md, the hash source of spec/42_xxhash32.md R223, and CFG_DEC, CFG_RAW and CFG_HASH of spec/40_commands.md R161.
All of it in unbounded arithmetic (R7).
-/

namespace Sys2Proof.Machine

/-- The IBUF address of `IN(IN_POS)`: `IN_BASE + IN_POS` (R49). -/
def State.inAddr (s : State) : Nat := s.inBase.toNat + s.inPos.toNat

/-- The OBUF address of `OUT(OUT_LEN)`: `OUT_BASE + OUT_LEN` (R46). -/
def State.outAddr (s : State) : Nat := s.outBase.toNat + s.outLen.toNat

/-- The OBUF address of `OUT(OUT_LEN - D_OFFSET)`, a COPY step's source; below OUT_BASE it is in the window (R189, R194). -/
def State.matchAddr (s : State) : Nat := s.outBase.toNat + s.outLen.toNat - s.dOffset.toNat

/-- The buffer HASH_UPDATE reads: IBUF when `CTRL.HSRC = 0`, OBUF when it is 1 (R32, R56). -/
def State.hashSpace (s : State) : Space := if s.ctrl.hsrc then .obuf else .ibuf

/-- The address of the byte a HABS step absorbs: `H_ADDR[c] + H_POS[c]` (R223). -/
def State.hashAddr (s : State) : Nat :=
  (s.hash s.activeCtx).addr.toNat + (s.hash s.activeCtx).pos.toNat

/-- `IN_POS = IN_LEN`: no input byte is left. -/
abbrev State.inputEnd (s : State) : Prop := s.inPos = s.inLen

/-- The bytes of the payload not yet consumed, `IN(IN_POS) .. IN(IN_LEN - 1)`. -/
def State.inputLeft (s : State) : List Byte := s.bytesAt .ibuf s.inAddr (s.inLen.toNat - s.inPos.toNat)

/-- The payload lies in IBUF: `IN_BASE + IN_LEN <= IBUF_SIZE` (R161). -/
abbrev State.inputFits (s : State) : Prop := s.inBase.toNat + s.inLen.toNat ≤ s.params.ibufSize

/-- The output bound lies in OBUF: `OUT_BASE + MAX_SIZE <= OBUF_SIZE` (R161). -/
abbrev State.outputFits (s : State) : Prop := s.outBase.toNat + s.maxSize.toNat ≤ s.params.obufSize

/-- The window is legal: in linked mode `WIN_LEN <= 65536` and `WIN_LEN <= OUT_BASE` (R161). -/
abbrev State.windowFits (s : State) : Prop :=
  s.ctrl.linked = false ∨ (s.winLen.toNat ≤ Config.windowMax ∧ s.winLen.toNat ≤ s.outBase.toNat)

/-- CFG_DEC() (R161). -/
abbrev State.cfgDec (s : State) : Prop := s.inputFits ∧ s.outputFits ∧ s.windowFits

/-- CFG_RAW() (R161). -/
abbrev State.cfgRaw (s : State) : Prop := s.inputFits ∧ s.outputFits

/-- CFG_HASH(c) for `c = CTRL.HCTX` (R161). -/
abbrev State.cfgHash (s : State) : Prop :=
  (s.hash s.activeCtx).addr.toNat + (s.hash s.activeCtx).len.toNat ≤ s.spaceSize s.hashSpace

end Sys2Proof.Machine
end

