-- ==== Sys2Proof/Machine/Commands.lean ====
section
/-!
DEFINITION. The meanings of ACK, DEC_START, RAW_COPY and SOFT_RESET (spec/40_commands.md R154 to R156, R160). Each is the whole effect of
writing the command to CMD, in one host action (R150).
-/

namespace Sys2Proof.Machine

/-- ACK (R154): after the prologue, `REJ <- 0`. -/
def execAck (s : State) : Result := acceptCommand 0x00 clearReject s

/-- The progress registers at the start of a decode or a raw copy (R49 to R54, R155, R156). -/
def clearProgress (winEff : Word) (s : State) : State :=
  { s with inPos := 0, outLen := 0, dToken := 0, dCount := 0, dOffset := 0, winEff := winEff }

/-- DEC_START's action (R155). -/
def decStartAction (s : State) : State :=
  if s.cfgDec then startEngine .token (clearProgress (if s.ctrl.linked then s.winLen else 0) s)
  else raiseError .config s

/-- DEC_START (R155). -/
def execDecStart (s : State) : Result := acceptCommand 0x01 decStartAction s

/-- RAW_COPY's action (R156). -/
def rawCopyAction (s : State) : State :=
  if s.cfgRaw then startEngine .raw (clearProgress 0 s) else raiseError .config s

/-- RAW_COPY (R156). -/
def execRawCopy (s : State) : Result := acceptCommand 0x02 rawCopyAction s

/-- Every register at its reset value; the buffers and HOSTFAULT stay (R160, R321), and so do the sizes and the model's own
schedule and reads (log entry 11). -/
def softReset (s : State) : State :=
  { State.powerOn s.params with ibuf := s.ibuf, obuf := s.obuf, hostFault := s.hostFault, schedule := s.schedule,
                                reads := s.reads }

/-- SOFT_RESET (R160): accepted in every state, with no prologue. -/
def execSoftReset (s : State) : Result := .next (softReset s)

end Sys2Proof.Machine
end

