-- ==== Sys2Proof/Machine/Hash.lean ====
section
/-!
DEFINITION. The xxHash32 engine (spec/42_xxhash32.md): its arithmetic R220 to R226, the HABS step R223, and the meanings of HASH_INIT,
HASH_UPDATE and HASH_DIGEST (spec/40_commands.md R157 to R159).
-/

namespace Sys2Proof.Machine

/-! ### Constants and primitives -/

/-- PRIME32_1 (R220). -/
def prime1 : Word := 0x9E3779B1

/-- PRIME32_2 (R220). -/
def prime2 : Word := 0x85EBCA77

/-- PRIME32_3 (R220). -/
def prime3 : Word := 0xC2B2AE3D

/-- PRIME32_4 (R220). -/
def prime4 : Word := 0x27D4EB2F

/-- PRIME32_5 (R220). -/
def prime5 : Word := 0x165667B1

/-- `ROUND(acc, w)` (R221). -/
def xxhRound (acc w : Word) : Word := rotl32 (acc + w * prime2) 13 * prime1

/-- The little-endian word of four bytes of a string from index `i` on (R93, R224). -/
def wordAt (bytes : List Byte) (i : Nat) : Word :=
  Decode.wordOf (bytes.getD i 0) (bytes.getD (i + 1) 0) (bytes.getD (i + 2) 0) (bytes.getD (i + 3) 0)

/-- The four lane accumulators (R63). -/
structure Lanes where
  v1 : Word
  v2 : Word
  v3 : Word
  v4 : Word
  deriving DecidableEq, Repr

/-- The lanes HASH_INIT gives for a seed (R222). -/
def Lanes.init (seed : Word) : Lanes :=
  { v1 := seed + prime1 + prime2, v2 := seed + prime2, v3 := seed, v4 := seed - prime1 }

/-- One 16-byte stripe folded into the lanes (R224). -/
def Lanes.fold (l : Lanes) (stripe : List Byte) : Lanes :=
  { v1 := xxhRound l.v1 (wordAt stripe 0), v2 := xxhRound l.v2 (wordAt stripe 4), v3 := xxhRound l.v3 (wordAt stripe 8),
    v4 := xxhRound l.v4 (wordAt stripe 12) }

/-- The rotated sum of the lanes (R225). -/
def Lanes.merge (l : Lanes) : Word := rotl32 l.v1 1 + rotl32 l.v2 7 + rotl32 l.v3 12 + rotl32 l.v4 18

/-- The tail of a digest: four-byte words while four bytes are left, then single bytes (R225). -/
def digestTail : Word → List Byte → Word
  | h, b0 :: b1 :: b2 :: b3 :: rest =>
    digestTail (rotl32 (h + Decode.wordOf b0 b1 b2 b3 * prime3) 17 * prime4) rest
  | h, b :: rest => digestTail (rotl32 (h + b.zeroExtend 32 * prime5) 11 * prime1) rest
  | h, [] => h

/-- `h ^ (h >> r)`, one shift of AVALANCHE (R226). -/
def xorShift (h : Word) (r : Nat) : Word := h ^^^ (h >>> r)

/-- `AVALANCHE(h)` (R226). -/
def avalanche (h : Word) : Word := xorShift (xorShift (xorShift h 15 * prime2) 13 * prime3) 16

/-! ### The context -/

/-- The lanes of a context. -/
def HashCtx.lanes (h : HashCtx) : Lanes := { v1 := h.v1, v2 := h.v2, v3 := h.v3, v4 := h.v4 }

/-- A context with its lanes replaced. -/
def HashCtx.withLanes (h : HashCtx) (l : Lanes) : HashCtx := { h with v1 := l.v1, v2 := l.v2, v3 := l.v3, v4 := l.v4 }

/-- The meaningful bytes of H_BUF, `H_BUF[0 .. COUNT-1]` (R64). -/
def HashCtx.pending (h : HashCtx) : List Byte := h.buf.toList.take h.count.val

/-- `XXH_INIT(c, seed)` (R222). -/
def HashCtx.init (seed : Word) (h : HashCtx) : HashCtx :=
  { h.withLanes (Lanes.init seed) with count := 0, large := false, total := 0 }

/-- `STRIPE(c)` (R224). -/
def HashCtx.stripe (h : HashCtx) : HashCtx :=
  { h.withLanes (h.lanes.fold h.buf.toList) with count := 0, large := true }

/-- The part of a HABS step that absorbs one byte: into the buffer, counted, and folded when it is the sixteenth (R223). -/
def HashCtx.absorb (b : Byte) (h : HashCtx) : HashCtx :=
  let filled := { h with buf := h.buf.set h.count.val b h.count.isLt, total := h.total + 1 }
  if h.count.val + 1 = 16 then filled.stripe else { filled with count := h.count + 1 }

/-- `XXH_DIGEST(c)` (R225). While LARGE is 0, `H_V3` still holds the seed. -/
def HashCtx.digestValue (h : HashCtx) : Word :=
  avalanche (digestTail ((if h.large then h.lanes.merge else h.v3 + prime5) + h.total) h.pending)

/-! ### Meanings of the three commands -/

/-- HASH_INIT's action: `XXH_INIT(c, H_SEED[c])`, then `finish()` (R157). -/
def hashInitAction (s : State) : State :=
  finish (s.setHash s.activeCtx ((s.hash s.activeCtx).init (s.hash s.activeCtx).seed))

/-- HASH_INIT (R157). -/
def execHashInit (s : State) : Result := acceptCommand 0x10 hashInitAction s

/-- HASH_UPDATE's action: CONFIG when the data leave their buffer; else H_POS is 0 and the engine starts, or the command ends at
once when there is nothing to absorb (R158). -/
def hashUpdateAction (s : State) : State :=
  if s.cfgHash then
    let s' := s.setHash s.activeCtx { s.hash s.activeCtx with pos := 0 }
    if (s.hash s.activeCtx).len = 0 then finish s' else startEngine .habs s'
  else raiseError .config s

/-- HASH_UPDATE (R158). -/
def execHashUpdate (s : State) : Result := acceptCommand 0x11 hashUpdateAction s

/-- HASH_DIGEST's action: `H_DIGEST[c] <- XXH_DIGEST(c)`, then `finish()` (R159). -/
def hashDigestAction (s : State) : State :=
  finish (s.setHash s.activeCtx { s.hash s.activeCtx with digest := (s.hash s.activeCtx).digestValue })

/-- HASH_DIGEST (R159). -/
def execHashDigest (s : State) : Result := acceptCommand 0x12 hashDigestAction s

/-! ### The engine step -/

/-- What a HABS step does with the byte it has read (R223). -/
def habsWith (b : Byte) (s : State) : State :=
  let h := (s.hash s.activeCtx).absorb b
  let h' := { h with pos := h.pos + 1 }
  let s' := s.setHash s.activeCtx h'
  if h'.pos = h'.len then finish s' else s'

/-- HABS: absorb one byte (R223). -/
def habsStep (s : State) : Result := engineRead s.hashSpace s.hashAddr (fun b => .next (habsWith b s)) s

end Sys2Proof.Machine
end

