-- ==== Sys2Proof/Machine/Block.lean ====
section
/-!
DEFINITION. The block decoder (spec/41_block_decode.md): the meanings of the elements TOKEN, LEXT, LITERAL, OFFSET and MEXT, which take the
bytes they decode as operands, and the engine steps that read no element (LITCHK, MCHK, COPY) with the raw copy step.
A meaning is the action of its step rule; Machine/Sequencer.lean runs it in the state R180 gives it (log entry 8).
-/

namespace Sys2Proof.Machine

/-- `REG.IN_POS <- REG.IN_POS + 1` (R49). -/
def advanceInput (s : State) : State := { s with inPos := s.inPos + 1 }

/-- TOKEN (R181): record the token, take its literal nibble as the count, go to LEXT or LITCHK. -/
def execToken (t : Byte) (s : State) : Result :=
  if s.inputEnd then .next (raiseError .truncated s)
  else
    let s' := { advanceInput s with dToken := t, dCount := (Decode.literalNibble t).zeroExtend 32 }
    .next (s'.enter (if Decode.literalNibble t = 15 then .lext else .litchk))

/-- One extension byte added to D_COUNT, which saturates (R182, R187, R191); `done` is the state after the last one. -/
def extensionStep (e : Byte) (done : EngState) (s : State) : Result :=
  if s.inputEnd then .next (raiseError .truncated s)
  else
    let s' := { advanceInput s with dCount := sat32 (s.dCount.toNat + e.toNat) }
    .next (if e = Config.extCont then s' else s'.enter done)

/-- LEXT (R182). -/
def execLext (e : Byte) (s : State) : Result := extensionStep e .litchk s

/-- LITCHK (R183): check the whole literal run before any of it is copied. -/
def litchkStep (s : State) : Result :=
  if s.inLen.toNat < s.inPos.toNat + s.dCount.toNat then .next (raiseError .truncated s)
  else if s.maxSize.toNat < s.outLen.toNat + s.dCount.toNat then .next (raiseError .outputLimit s)
  else .next (s.enter (if s.dCount = 0 then .off0 else .lit))

/-- One byte appended to the output and counted off the run (R184, R189); `done` is the state after the run's last byte. -/
def appendByte (b : Byte) (done : EngState) (s : State) : Result :=
  engineWrite s.outAddr b (fun s1 =>
    let s2 := { s1 with outLen := s1.outLen + 1, dCount := s1.dCount - 1 }
    .next (if s2.dCount = 0 then s2.enter done else s2)) s

/-- LITERAL (R184): copy one literal byte. -/
def execLiteral (b : Byte) (s : State) : Result := appendByte b .off0 (advanceInput s)

/-- OFF0 (R185): the block ends here when the input does; else the offset's low byte. -/
def offsetLowStep (lo : Byte) (s : State) : Result :=
  if s.inputEnd then .next (finish s)
  else .next (({ advanceInput s with dOffset := lo.zeroExtend 16 } : State).enter .off1)

/-- OFF1 (R186): the offset's high byte, then the match nibble as the count. -/
def offsetHighStep (hi : Byte) (s : State) : Result :=
  if s.inputEnd then .next (raiseError .truncated s)
  else
    let s' := { advanceInput s with
      dOffset := s.dOffset ||| hi.zeroExtend 16 <<< 8, dCount := (Decode.matchNibble s.dToken).zeroExtend 32 }
    .next (s'.enter (if Decode.matchNibble s.dToken = 15 then .mext else .mchk))

/-- OFFSET: its two bytes, by the steps OFF0 and OFF1 (R125, R185, R186). -/
def execOffset (o : BitVec 16) (s : State) : Result :=
  andThen (offsetLowStep (Decode.offsetLow o) s) (offsetHighStep (Decode.offsetHigh o))

/-- MEXT (R187). -/
def execMext (e : Byte) (s : State) : Result := extensionStep e .mchk s

/-- MCHK's checks, on the completed match length (R188). -/
def matchChecks (s : State) : Result :=
  if s.dOffset = 0 then .next (raiseError .offsetZero s)
  else if s.outLen.toNat + s.winEff.toNat < s.dOffset.toNat then .next (raiseError .offsetRange s)
  else if s.maxSize.toNat < s.outLen.toNat + s.dCount.toNat then .next (raiseError .outputLimit s)
  else .next (s.enter .copy)

/-- MCHK (R188): complete the match length, then check the whole match before any of it is copied. -/
def mchkStep (s : State) : Result := matchChecks { s with dCount := sat32 (s.dCount.toNat + Config.minMatch) }

/-- COPY (R189): copy one match byte, forward. -/
def copyStep (s : State) : Result := engineRead .obuf s.matchAddr (fun b => appendByte b .token s) s

/-- What a RAW step does with a byte (R190). -/
def rawWith (b : Byte) (s : State) : Result :=
  engineWrite s.outAddr b (fun s1 =>
    let s2 := { advanceInput s1 with outLen := s1.outLen + 1 }
    .next (if s2.inputEnd then finish s2 else s2)) s

/-- RAW (R190): copy one byte of a stored block. -/
def rawStep (s : State) : Result :=
  if s.inPos = 0 ∧ s.maxSize.toNat < s.inLen.toNat then .next (raiseError .outputLimit s)
  else if s.inputEnd then .next (finish s)
  else engineRead .ibuf s.inAddr (fun b => rawWith b s) s

end Sys2Proof.Machine
end

