-- ==== Sys2Proof/Machine/Sequences.lean ====
section
/-!
DEFINITION. The meanings of the rows SEQ and LAST (spec/30_encoding.md R120, R129, R136): the elements of a whole sequence in their order on the
wire, with the internal steps between them. A step that ends the command ends the sequence (R180).
-/

namespace Sys2Proof.Machine

/-- The part SEQ and LAST share: TOKEN, LEXT, the check and the literals. -/
def sequenceHead (t : Byte) (lits : List Byte) (s : State) : Result :=
  andThenEach execLiteral lits
    (andThen (andThenEach execLext (Encode.extension lits.length) (execToken t s)) litchkStep)

/-- The whole match, COPY once for each byte D_COUNT holds (R189). -/
def copyRun (s : State) : Result := andThenTimes copyStep s.dCount.toNat (.next s)

/-- SEQ: copy the literals, then the match of `mraw + 4` bytes from `OUT(OUT_LEN - offset)` forward (R120, R181 to R189). -/
def execSeq (lits : List Byte) (off : BitVec 16) (mraw : Nat) (s : State) : Result :=
  let head := sequenceHead (Encode.token (Encode.nibble lits.length) (Encode.nibble mraw)) lits s
  andThen (andThen (andThenEach execMext (Encode.extension mraw) (andThen head (execOffset off))) mchkStep) copyRun

/-- The end of a block: OFF0 with no input left (R129, R185). -/
def endOfBlock (s : State) : Result := if s.inputEnd then .next (finish s) else .next s

/-- LAST: copy the literals; the block ends when they reach the end of the input, and the ML nibble is ignored (R129). -/
def execLast (lits : List Byte) (ml : BitVec 4) (s : State) : Result :=
  andThen (sequenceHead (Encode.token (Encode.nibble lits.length) ml) lits s) endOfBlock

end Sys2Proof.Machine
end

