-- ==== Sys2Proof/Machine/Dispatch.lean ====
section
/-!
DEFINITION. One arm per instruction, each one direct call of its meaning.
-/

namespace Sys2Proof.Machine

/-- The meaning of every row of spec/opcode_table.json. -/
def exec (i : Instr) (s : State) : Host.Outcome State Fault Refusal :=
  match i with
  | .ack => Sys2Proof.Machine.execAck s
  | .decStart => Sys2Proof.Machine.execDecStart s
  | .rawCopy => Sys2Proof.Machine.execRawCopy s
  | .hashInit => Sys2Proof.Machine.execHashInit s
  | .hashUpdate => Sys2Proof.Machine.execHashUpdate s
  | .hashDigest => Sys2Proof.Machine.execHashDigest s
  | .softReset => Sys2Proof.Machine.execSoftReset s
  | .token t => Sys2Proof.Machine.execToken t s
  | .lext e => Sys2Proof.Machine.execLext e s
  | .literal b => Sys2Proof.Machine.execLiteral b s
  | .offset o => Sys2Proof.Machine.execOffset o s
  | .mext e => Sys2Proof.Machine.execMext e s
  | .seq lits off mraw => Sys2Proof.Machine.execSeq lits off mraw s
  | .last lits ml => Sys2Proof.Machine.execLast lits ml s

end Sys2Proof.Machine
end

