-- ==== Sys2Proof/Machine/Flags.lean ====
section
/-!
DEFINITION. The words the host reads: CTRL (spec/10_state.md R32), STATUS (R35), H_BUFCNT (R62), H_HDRCHK (R61), and the interrupt line
(R68). Reserved bits read 0 (R30).
-/

namespace Sys2Proof.Machine

/-- The value of STATE and ERRSTATE (R41). -/
def EngState.code : EngState → BitVec 4
  | .idle => 0
  | .token => 1
  | .lext => 2
  | .litchk => 3
  | .lit => 4
  | .off0 => 5
  | .off1 => 6
  | .mext => 7
  | .mchk => 8
  | .copy => 9
  | .raw => 10
  | .habs => 11

/-- The value of ERRCODE (R290). -/
def ErrCode.code : ErrCode → BitVec 4
  | .noError => 0
  | .offsetZero => 1
  | .offsetRange => 2
  | .truncated => 3
  | .outputLimit => 4
  | .config => 5

/-- STATUS as the host reads it: BUSY 0, DONE 1, ERR 2, REJ 3, ERRCODE 7:4, STATE 11:8, ERRSTATE 15:12, LASTCMD 23:16,
reserved 31:24 (R35). -/
def Status.word (st : Status) : Word :=
  0#8 ++ st.lastCmd ++ st.errState.code ++ st.state.code ++ st.errCode.code ++ BitVec.ofBool st.rej
    ++ BitVec.ofBool st.err ++ BitVec.ofBool st.done ++ BitVec.ofBool st.busy

/-- CTRL as the host reads it: LINKED 0, HSRC 1, IRQ_EN 2, HCTX 3, reserved 31:4 (R32). -/
def Ctrl.word (c : Ctrl) : Word :=
  0#28 ++ BitVec.ofBool c.hctx ++ BitVec.ofBool c.irqEn ++ BitVec.ofBool c.hsrc ++ BitVec.ofBool c.linked

/-- The fields a word written to CTRL gives it; bits 31:4 are ignored (R32). -/
def Ctrl.ofWord (v : Word) : Ctrl :=
  { linked := v.getLsbD 0, hsrc := v.getLsbD 1, irqEn := v.getLsbD 2, hctx := v.getLsbD 3 }

/-- H_BUFCNT: COUNT 3:0, LARGE 8, the rest 0 (R62). -/
def HashCtx.bufcnt (h : HashCtx) : Word := 0#23 ++ BitVec.ofBool h.large ++ 0#4 ++ BitVec.ofNat 4 h.count.val

/-- H_HDRCHK: `(H_DIGEST >> 8) & 0xFF` (R61). -/
def HashCtx.hdrchk (h : HashCtx) : Word := (h.digest >>> 8) &&& 0xFF#32

/-- `IRQ = CTRL.IRQ_EN & (STATUS.DONE | STATUS.ERR)` (R68, R299). -/
def State.irq (s : State) : Bool := s.ctrl.irqEn && (s.status.done || s.status.err)

end Sys2Proof.Machine
end

