-- ==== Sys2Proof/Machine/Registers.lean ====
section
/-!
DEFINITION. The register window: the map of spec/10_state.md R30, what a read returns, and what a write to every register but CMD does
(R31 to R33, R65 to R67). A write to CMD runs a command and is in Machine/Sequencer.lean.
-/

namespace Sys2Proof.Machine

/-- The register a word offset of the window holds, context 0 at 0x40 and context 1 at 0x80; `none` for the reserved
offsets (R30, R65). -/
def Reg.hashAt (c : Ctx) (d : Nat) : Option Reg :=
  if d = 0x00 then some (.hSeed c)
  else if d = 0x04 then some (.hAddr c)
  else if d = 0x08 then some (.hLen c)
  else if d = 0x0C then some (.hPos c)
  else if d = 0x10 then some (.hTotal c)
  else if d = 0x14 then some (.hDigest c)
  else if d = 0x18 then some (.hHdrchk c)
  else if d = 0x1C then some (.hBufcnt c)
  else if d = 0x20 then some (.hV1 c)
  else if d = 0x24 then some (.hV2 c)
  else if d = 0x28 then some (.hV3 c)
  else if d = 0x2C then some (.hV4 c)
  else none

/-- The register at a word offset of the window (R30); `none` for a reserved offset (R65). -/
def Reg.ofOffset (off : Nat) : Option Reg :=
  if off = 0x00 then some .id
  else if off = 0x04 then some .ctrl
  else if off = 0x08 then some .cmd
  else if off = 0x0C then some .status
  else if off = 0x10 then some .inBase
  else if off = 0x14 then some .inLen
  else if off = 0x18 then some .outBase
  else if off = 0x1C then some .maxSize
  else if off = 0x20 then some .winLen
  else if off = 0x24 then some .inPos
  else if off = 0x28 then some .outLen
  else if off = 0x2C then some .dToken
  else if off = 0x30 then some .dCount
  else if off = 0x34 then some .dOffset
  else if off = 0x38 then some .winEff
  else if 0x40 ≤ off ∧ off < 0x80 then Reg.hashAt .c0 (off - 0x40)
  else if 0x80 ≤ off ∧ off < 0xC0 then Reg.hashAt .c1 (off - 0x80)
  else none

/-- The base of a context's registers, `0x40 + 0x40*c` (R55). -/
def Ctx.base : Ctx → Nat
  | .c0 => 0x40
  | .c1 => 0x80

/-- The offset of a register in the window (R30). -/
def Reg.offset : Reg → Nat
  | .id => 0x00
  | .ctrl => 0x04
  | .cmd => 0x08
  | .status => 0x0C
  | .inBase => 0x10
  | .inLen => 0x14
  | .outBase => 0x18
  | .maxSize => 0x1C
  | .winLen => 0x20
  | .inPos => 0x24
  | .outLen => 0x28
  | .dToken => 0x2C
  | .dCount => 0x30
  | .dOffset => 0x34
  | .winEff => 0x38
  | .hSeed c => c.base + 0x00
  | .hAddr c => c.base + 0x04
  | .hLen c => c.base + 0x08
  | .hPos c => c.base + 0x0C
  | .hTotal c => c.base + 0x10
  | .hDigest c => c.base + 0x14
  | .hHdrchk c => c.base + 0x18
  | .hBufcnt c => c.base + 0x1C
  | .hV1 c => c.base + 0x20
  | .hV2 c => c.base + 0x24
  | .hV3 c => c.base + 0x28
  | .hV4 c => c.base + 0x2C

/-- A register's value as the host reads it (R30 to R63). ID is hard-wired (R31), CMD reads 0 (R34). -/
def State.readReg (s : State) : Reg → Word
  | .id => 0x4C5A3442
  | .ctrl => s.ctrl.word
  | .cmd => 0
  | .status => s.status.word
  | .inBase => s.inBase
  | .inLen => s.inLen
  | .outBase => s.outBase
  | .maxSize => s.maxSize
  | .winLen => s.winLen
  | .inPos => s.inPos
  | .outLen => s.outLen
  | .dToken => s.dToken.zeroExtend 32
  | .dCount => s.dCount
  | .dOffset => s.dOffset.zeroExtend 32
  | .winEff => s.winEff
  | .hSeed c => (s.hash c).seed
  | .hAddr c => (s.hash c).addr
  | .hLen c => (s.hash c).len
  | .hPos c => (s.hash c).pos
  | .hTotal c => (s.hash c).total
  | .hDigest c => (s.hash c).digest
  | .hHdrchk c => (s.hash c).hdrchk
  | .hBufcnt c => (s.hash c).bufcnt
  | .hV1 c => (s.hash c).v1
  | .hV2 c => (s.hash c).v2
  | .hV3 c => (s.hash c).v3
  | .hV4 c => (s.hash c).v4

/-- A read of any word of the window: a reserved offset reads 0 (R65). -/
def State.readWindow (s : State) (off : Nat) : Word :=
  match Reg.ofOffset off with
  | some r => s.readReg r
  | none => 0

/-- A host write to CTRL: all four fields, or while busy IRQ_EN alone, with REJ not set (R32, R33). -/
def writeCtrl (v : Word) (s : State) : State :=
  if s.status.busy then { s with ctrl := { s.ctrl with irqEn := (Ctrl.ofWord v).irqEn } }
  else { s with ctrl := Ctrl.ofWord v }

/-- A host write to an RW register other than CTRL: it stores all 32 bits, or while busy is ignored and sets REJ (R66). -/
def writeConfig (store : State → State) (s : State) : State :=
  if s.status.busy then reject s else store s

/-- A host write to any register but CMD. A write to an RO register is ignored and sets no flag (R67). For CMD see
`commandWrite`; here it changes nothing. -/
def writeReg (r : Reg) (v : Word) (s : State) : State :=
  match r with
  | .id => s
  | .ctrl => writeCtrl v s
  | .cmd => s
  | .status => s
  | .inBase => writeConfig (fun s => { s with inBase := v }) s
  | .inLen => writeConfig (fun s => { s with inLen := v }) s
  | .outBase => writeConfig (fun s => { s with outBase := v }) s
  | .maxSize => writeConfig (fun s => { s with maxSize := v }) s
  | .winLen => writeConfig (fun s => { s with winLen := v }) s
  | .inPos => s
  | .outLen => s
  | .dToken => s
  | .dCount => s
  | .dOffset => s
  | .winEff => s
  | .hSeed c => writeConfig (fun s => s.setHash c { s.hash c with seed := v }) s
  | .hAddr c => writeConfig (fun s => s.setHash c { s.hash c with addr := v }) s
  | .hLen c => writeConfig (fun s => s.setHash c { s.hash c with len := v }) s
  | .hPos _ => s
  | .hTotal _ => s
  | .hDigest _ => s
  | .hHdrchk _ => s
  | .hBufcnt _ => s
  | .hV1 _ => s
  | .hV2 _ => s
  | .hV3 _ => s
  | .hV4 _ => s

end Sys2Proof.Machine
end

