-- ==== Sys2Proof/Machine/Sequencer.lean ====
section
/-!
DEFINITION. What turns an event into an instruction: the engine's fetch and step dispatch (spec/41_block_decode.md R180), the fused turn
(R330), the write to CMD (R150), and every host action (R94, R95, R106, R137).
-/

namespace Sys2Proof.Machine

/-! ### The engine -/

/-- The byte the decoder fetches, `IN(IN_POS)` (R104), given to what goes on with it. -/
def fetchInput (k : Byte → Result) (s : State) : Result := engineRead .ibuf s.inAddr k s

/-- A step that reads one element byte: what it does at the end of the input, else the element the byte decodes to. -/
def elementTurn (atEnd : State → Result) (element : Byte → State → Result) (s : State) : Result :=
  if s.inputEnd then atEnd s else fetchInput (fun b => element b s) s

/-- `raise Error(TRUNCATED)`, a step's end when no byte is left. -/
def truncatedEnd (s : State) : Result := .next (raiseError .truncated s)

/-- OFF0 with no byte left: `finish()` (R185). -/
def finishEnd (s : State) : Result := .next (finish s)

/-- The action of an engine state (R180). LITERAL needs no end check: LITCHK made it (R184). -/
def engineAction (s : State) : Result :=
  match s.status.state with
  | .idle => .fault .noEngineStep
  | .token => elementTurn truncatedEnd (fun b => exec (.token b)) s
  | .lext => elementTurn truncatedEnd (fun b => exec (.lext b)) s
  | .litchk => litchkStep s
  | .lit => fetchInput (fun b => exec (.literal b) s) s
  | .off0 => elementTurn finishEnd offsetLowStep s
  | .off1 => elementTurn truncatedEnd offsetHighStep s
  | .mext => elementTurn truncatedEnd (fun b => exec (.mext b)) s
  | .mchk => mchkStep s
  | .copy => copyStep s
  | .raw => rawStep s
  | .habs => habsStep s

/-- One engine step, enabled exactly while `BUSY = 1` (R180). An idle engine keeps all its state (R306). -/
def engineStep (s : State) : Result := if s.status.busy then engineAction s else .next s

/-- The place in the grammar whose whole element the engine can take in one fused turn: a sequence at TOKEN, an offset at OFF0. -/
def fusedSlot : EngState → Option Slot
  | .token => some .sequence
  | .off0 => some .offset
  | .idle => none
  | .lext => none
  | .litchk => none
  | .lit => none
  | .off1 => none
  | .mext => none
  | .mchk => none
  | .copy => none
  | .raw => none
  | .habs => none

/-- The element a fused turn takes: the whole sequence or offset the rest of the input begins with. `none` where there is no
whole one, or the payload does not lie in IBUF. -/
def fusedInstr (s : State) : Option Instr :=
  match fusedSlot s.status.state with
  | none => none
  | some slot => if s.inputFits then decodedInstr (decode slot s.inputLeft) else none

/-- The engine's steps over one whole element with no host action between them (R330); one plain step where no whole element
is there. -/
def fusedStep (s : State) : Result :=
  if s.status.busy then
    match fusedInstr s with
    | some i => exec i s
    | none => engineAction s
  else .next s

/-! ### The host -/

/-- A write of `v` to CMD: the command it decodes to, or a reserved opcode, which sets REJ and does nothing else
(R150 to R152). -/
def commandWrite (v : Word) (s : State) : Result :=
  match Decode.command v with
  | .ok i => exec i s
  | .error _ => .next (reject s)

/-- The only REG access the host may make: an aligned word inside the window (R94). -/
abbrev goodAccess (off width : Nat) : Prop := width = 4 ∧ off % 4 = 0 ∧ off < 256

/-- RD (R94): a bad access reads 0 and leaves its mark. -/
def hostRegRead (off width : Nat) (s : State) : Result :=
  if goodAccess off width then .next (recordRead (s.readWindow off) s) else .next (recordRead 0 (markBadAccess s))

/-- WR and CMD (R94): a bad access changes no register and leaves its mark; a reserved offset ignores the write (R65). -/
def hostRegWrite (off width : Nat) (v : Word) (s : State) : Result :=
  if goodAccess off width then
    match Reg.ofOffset off with
    | some .cmd => commandWrite v s
    | some r => .next (writeReg r v s)
    | none => .next s
  else .next (markBadAccess s)

/-- RDB, one byte (R95): outside the buffer it reads 0 and leaves its mark. It may fall while busy (R106). -/
def hostBufRead (sp : Space) (a : Nat) (s : State) : Result :=
  if a < s.spaceSize sp then .next (recordRead ((s.byteAt sp a).zeroExtend 32) s)
  else .next (recordRead 0 (markBadAddr s))

/-- WRB, one byte (R95): outside the buffer it changes nothing and leaves its mark (log entry 10). While busy the write lands and
leaves the mark HOST_HAZARD (R106). -/
def hostBufWrite (sp : Space) (a : Nat) (v : Byte) (s : State) : Result :=
  if a < s.spaceSize sp then
    .next (if s.status.busy then markHazard (s.putByte sp a v) else s.putByte sp a v)
  else .next (markBadAddr s)

/-- One host action other than WAIT. A poll has no effect (R98). -/
def hostAct (a : HostAction) (s : State) : Result :=
  match a with
  | .regRead off width => hostRegRead off width s
  | .regWrite off width v => hostRegWrite off width v s
  | .bufRead sp addr => hostBufRead sp addr s
  | .bufWrite sp addr v => hostBufWrite sp addr v s
  | .wait => .next s

/-! ### Events -/

/-- The first event of the schedule, with the events after it. WAIT stays at the head while the engine is busy, and lets it
take a step (R138, R330). -/
def runEvent (e : Event) (rest : List Event) (s : State) : Result :=
  match e with
  | .engine => engineStep { s with schedule := rest }
  | .fused => fusedStep { s with schedule := rest }
  | .host .wait => if s.status.busy then engineStep s else .next { s with schedule := rest }
  | .host a => hostAct a { s with schedule := rest }

/-! ### Where a word of the opcode table is fetched from -/

/-- Puts bytes where the decoder reads next, as the rest of the payload, with the engine at the state that reads them and its
turn first. -/
def placeInput (st : EngState) (turn : Event) (bytes : List Byte) (s : State) : State :=
  { s.putBytes .ibuf s.inAddr bytes with
    inLen := s.inPos + BitVec.ofNat 32 bytes.length, status := { s.status with busy := true, state := st },
    schedule := turn :: s.schedule }

/-- Puts a word of the opcode table where the next step takes its instruction from: a command as the host's next write to CMD,
an element of a block as the decoder's next input (log entry 12). -/
def placeWord (nbits w : Nat) (s : State) : State :=
  match tableSlot nbits w with
  | .command =>
    { s with schedule := .host (.regWrite 0x08 4 (BitVec.ofNat 32 (w % 2 ^ nbits))) :: s.schedule }
  | .token => placeInput .token .engine (tableBytes nbits w) s
  | .lext => placeInput .lext .engine (tableBytes nbits w) s
  | .literal => placeInput .lit .engine (tableBytes nbits w) s
  | .offset => placeInput .off0 .fused (tableBytes nbits w) s
  | .mext => placeInput .mext .engine (tableBytes nbits w) s
  | .sequence => placeInput .token .fused (tableBytes nbits w) s

end Sys2Proof.Machine
end

