-- ==== Sys2Proof/Machine/Step.lean ====
section
/-!
DEFINITION. One step of the machine: the next event of the interleaving (spec/20_memory.md R100).
-/

namespace Sys2Proof.Machine

/-- One step: the first event of the schedule. With none left the engine goes on alone, as weak fairness has it (R330), and an idle
machine stays as it is (R306, R322). -/
def step (s : State) : Host.Outcome State Fault Refusal :=
  match s.schedule with
  | [] => engineStep s
  | e :: rest => runEvent e rest s

/-- `s` with a word of the opcode table where the next step fetches its instruction (log entry 12). -/
def State.withFetchWord (s : State) (nbits w : Nat) : State := placeWord nbits w s

end Sys2Proof.Machine
end

