-- ==== Sys2Proof/Machine/ClosedForm.lean ====
section
/-!
DEFINITION. The same semantics as functions of byte strings: Decode (spec/41_block_decode.md R192) and XXH32 (spec/42_xxhash32.md R227). The
step function uses neither; statements compare it with them.
-/

namespace Sys2Proof.Machine

/-! ### Decode(inp, win, max) -/

/-- What Decode returns: the output, or the error with the state it is found in, and then `p` and the output at the point of
failure (R192). -/
inductive Decoded where
  | ok (out : List Byte)
  | err (code : ErrCode) (state : EngState) (p : Nat) (out : List Byte)
  deriving DecidableEq, Repr

/-- `repeat k times: h <- win ++ out; out <- out ++ [h[|h| - o]]` (R192). -/
def copyMatch (win : List Byte) (o : Nat) : Nat → List Byte → List Byte
  | 0, out => out
  | k + 1, out => copyMatch win o k (out ++ [(win ++ out).getD ((win ++ out).length - o) 0])

/-- The loop of Decode on what is left of the input; `n` is `|inp|`, so `p = n - |rest|`. Each turn consumes at least a
token, so `n + 1` is fuel enough. -/
def decodeLoop (win : List Byte) (max n : Nat) : Nat → List Byte → List Byte → Decoded
  | 0, rest, out => .err .truncated .token (n - rest.length) out
  | _ + 1, [], out => .err .truncated .token n out
  | fuel + 1, t :: r1, out =>
    match Decode.length (Decode.literalNibble t) r1 with
    | none => .err .truncated .lext n out
    | some (lit, r2) =>
      if r2.length < lit then .err .truncated .litchk (n - r2.length) out
      else if max < out.length + lit then .err .outputLimit .litchk (n - r2.length) out
      else
        match r2.drop lit with
        | [] => .ok (out ++ r2.take lit)
        | [_] => .err .truncated .off1 n (out ++ r2.take lit)
        | o0 :: o1 :: r3 =>
          match Decode.length (Decode.matchNibble t) r3 with
          | none => .err .truncated .mext n (out ++ r2.take lit)
          | some (mraw, r4) =>
            if Decode.offsetOf o0 o1 = 0 then .err .offsetZero .mchk (n - r4.length) (out ++ r2.take lit)
            else if (out ++ r2.take lit).length + win.length < (Decode.offsetOf o0 o1).toNat then
              .err .offsetRange .mchk (n - r4.length) (out ++ r2.take lit)
            else if max < (out ++ r2.take lit).length + (mraw + Config.minMatch) then
              .err .outputLimit .mchk (n - r4.length) (out ++ r2.take lit)
            else
              decodeLoop win max n fuel r4
                (copyMatch win (Decode.offsetOf o0 o1).toNat (mraw + Config.minMatch) (out ++ r2.take lit))

/-- `Decode(inp, win, max)` (R192). -/
def decodeClosed (inp win : List Byte) (max : Nat) : Decoded :=
  decodeLoop win max inp.length (inp.length + 1) inp []

/-! ### XXH32(data, seed) -/

/-- `ROUND` over every complete stripe of a string (R227). -/
def foldStripes : Nat → Lanes → List Byte → Lanes
  | 0, l, _ => l
  | k + 1, l, data => foldStripes k (l.fold (data.take 16)) (data.drop 16)

/-- `XXH32(data, seed)` in closed form (R227). -/
def xxh32 (data : List Byte) (seed : Word) : Word :=
  let start :=
    if 16 ≤ data.length then (foldStripes (data.length / 16) (Lanes.init seed) data).merge else seed + prime5
  avalanche (digestTail (start + BitVec.ofNat 32 data.length) (data.drop (16 * (data.length / 16))))

/-- One HABS step for each byte of a string, on one context (R227). -/
def HashCtx.absorbAll (data : List Byte) (h : HashCtx) : HashCtx := data.foldl (fun h b => h.absorb b) h

end Sys2Proof.Machine
end

