-- ==== Sys2Proof/Machine/HostProgram.lean ====
section
/-!
DEFINITION. Host assembly (spec/30_encoding.md R137) and its pseudo-instructions (R138), as the host actions they expand to. A
pseudo-instruction that changes part of CTRL is given the CTRL value the host has kept.
-/

namespace Sys2Proof.Machine

namespace Asm

/-- `WR <REG>, <value>`. -/
def wr (r : Reg) (v : Word) : HostAction := .regWrite r.offset 4 v

/-- `RD <REG>`. -/
def rd (r : Reg) : HostAction := .regRead r.offset 4

/-- `CMD <mnemonic>`: the opcode of R133 written to CMD. -/
def cmd (op : Byte) : HostAction := wr .cmd (op.zeroExtend 32)

/-- `WRB <IBUF|OBUF>, <addr>, <bytes>`: one byte access each (R95). -/
def wrb (sp : Space) : Nat → List Byte → List HostAction
  | _, [] => []
  | a, b :: rest => .bufWrite sp a b :: wrb sp (a + 1) rest

/-- `RDB <IBUF|OBUF>, <addr>, <n>`. -/
def rdb (sp : Space) (a n : Nat) : List HostAction := (List.range n).map (fun i => .bufRead sp (a + i))

/-- A bit of CTRL. -/
def bit (b : Bool) (i : Nat) : Word := (BitVec.ofBool b).zeroExtend 32 <<< i

/-- `(CTRL & ~1) | linked`. -/
def ctrlDecode (ctrl : Word) (linked : Bool) : Word := ctrl &&& ~~~0x1#32 ||| bit linked 0

/-- A context as the bit HCTX. -/
def ctxBit : Ctx → Bool
  | .c0 => false
  | .c1 => true

/-- `(CTRL & ~8) | (ctx << 3)`. -/
def ctrlContext (ctrl : Word) (c : Ctx) : Word := ctrl &&& ~~~0x8#32 ||| bit (ctxBit c) 3

/-- The bit HSRC that selects a buffer (R32). -/
def srcBit : Space → Bool
  | .ibuf => false
  | .obuf => true

/-- `(CTRL & ~0xA) | (ctx << 3) | (src << 1)`. -/
def ctrlHash (ctrl : Word) (c : Ctx) (src : Space) : Word :=
  ctrl &&& ~~~0xA#32 ||| bit (ctxBit c) 3 ||| bit (srcBit src) 1

/-- `DECODE ibase, ilen, obase, max, linked, win`. -/
def decode (ctrl ibase ilen obase max : Word) (linked : Bool) (win : Word) : List HostAction :=
  [wr .inBase ibase, wr .inLen ilen, wr .outBase obase, wr .maxSize max, wr .winLen win,
   wr .ctrl (ctrlDecode ctrl linked), cmd 0x01, .wait]

/-- A raw copy, as program P4 of spec/95_test_vectors.md writes it. -/
def rawCopy (ibase ilen obase max : Word) : List HostAction :=
  [wr .inBase ibase, wr .inLen ilen, wr .outBase obase, wr .maxSize max, cmd 0x02, .wait]

/-- `HINIT ctx, seed`. -/
def hinit (ctrl : Word) (c : Ctx) (seed : Word) : List HostAction :=
  [wr .ctrl (ctrlContext ctrl c), wr (.hSeed c) seed, cmd 0x10]

/-- `HASH ctx, src, addr, len`. -/
def hash (ctrl : Word) (c : Ctx) (src : Space) (addr len : Word) : List HostAction :=
  [wr .ctrl (ctrlHash ctrl c src), wr (.hAddr c) addr, wr (.hLen c) len, cmd 0x11, .wait]

/-- `HDIGEST ctx`. -/
def hdigest (ctrl : Word) (c : Ctx) : List HostAction :=
  [wr .ctrl (ctrlContext ctrl c), cmd 0x12, rd (.hDigest c)]

/-- `XXH32 ctx, src, addr, len, seed`: HINIT, HASH and HDIGEST, each with the CTRL value the one before left. -/
def xxh32 (ctrl : Word) (c : Ctx) (src : Space) (addr len seed : Word) : List HostAction :=
  hinit ctrl c seed ++ hash (ctrlContext ctrl c) c src addr len ++ hdigest (ctrlHash (ctrlContext ctrl c) c src) c

end Asm

/-- The state with a host program as the schedule: its actions in program order, the engine stepping at each WAIT. -/
def State.withProgram (s : State) (program : List HostAction) : State := { s with schedule := program.map .host }

end Sys2Proof.Machine
end

