-- ==== Sys2Proof/Machine/FrameHost.lean ====
section
/-!
DEFINITION. The reference frame host (spec/43_frame_host.md R250 to R273): FRAME_DECODE of R269 as a function that drives the machine by host
actions, the ones of Machine/HostProgram.lean. It is surrounding software (spec/00_scope.md R4), no part of State (log entry 15).
-/

namespace Sys2Proof.Machine

/-! ### The host at work on the machine -/

/-- The most engine steps the command now running takes (R197). -/
def stepBound (s : State) : Nat :=
  3 * s.inLen.toNat + s.maxSize.toNat + 1 + (s.hash s.activeCtx).len.toNat

/-- Engine steps until BUSY = 0, at most `fuel` of them. -/
def runEngine : Nat → State → Result
  | 0, s => .next s
  | fuel + 1, s =>
    if s.status.busy then
      match engineStep s with
      | .next s' => runEngine fuel s'
      | .fault f => .fault f
      | .refused r => .refused r
    else .next s

/-- One host action; WAIT polls until BUSY = 0 (R138). -/
def hostDo (a : HostAction) (s : State) : Result :=
  match a with
  | .wait => runEngine (stepBound s) s
  | .regRead off width => hostAct (.regRead off width) s
  | .regWrite off width v => hostAct (.regWrite off width v) s
  | .bufRead sp addr => hostAct (.bufRead sp addr) s
  | .bufWrite sp addr v => hostAct (.bufWrite sp addr v) s

/-- A host program, with no host action while a command runs. -/
def hostRun : List HostAction → State → Result
  | [], s => .next s
  | a :: rest, s =>
    match hostDo a s with
    | .next s' => hostRun rest s'
    | .fault f => .fault f
    | .refused r => .refused r

/-! ### Frames -/

/-- The source's nine errors (R302). -/
inductive FrameError where
  | badMagic
  | unsupportedVersion
  | malformedHeader
  | headerChecksumMismatch
  | malformedBlock
  | blockChecksumMismatch
  | contentChecksumMismatch
  | sizeMismatch
  | unexpectedEndOfStream
  deriving DecidableEq, Repr

/-- The frame decoder's states (R269). -/
inductive FrameState where
  | expectMagic
  | expectDescriptor
  | expectOptionalFields
  | expectBlocks
  | expectContentChecksum
  | finished
  deriving DecidableEq, Repr

/-- How FRAME_DECODE ends: accepted with the frame's output, rejected with the reason and the state it is found in, or stopped by
a fault of the machine; and the machine at the end. -/
inductive FrameResult where
  | accepted (out : List Byte) (s : State)
  | rejected (reason : FrameError) (state : FrameState) (s : State)
  | stopped (f : Fault)
  | notRun (r : Refusal)
  deriving DecidableEq, Repr

/-- What FLG, BD and the optional fields say (R252 to R257), and where they lie in the frame. -/
structure FrameHeader where
  /-- B_INDEP. -/
  indep : Bool
  /-- B_CHECKSUM. -/
  blockChecksum : Bool
  /-- C_CHECKSUM. -/
  contentChecksum : Bool
  /-- blockMaxSize. -/
  blockMax : Nat
  contentSize : Option Nat
  dictId : Option Nat
  /-- HC. -/
  headerChecksum : Byte
  /-- The position after HC. -/
  next : Nat
  deriving DecidableEq, Repr

namespace Frame

/-- `take(k)` at position `p`: the field whole, or `none` when fewer bytes remain (R268). -/
def take (f : List Byte) (p k : Nat) : Option (List Byte) := if p + k ≤ f.length then some ((f.drop p).take k) else none

/-- The magic bytes (R251). -/
def magic : List Byte := [0x04, 0x22, 0x4D, 0x18]

/-- blockMaxSize of a BD code (R254); codes 0 to 3 are not defined. -/
def blockMaxOf (code : Nat) : Option Nat :=
  if code = 4 then some 65536
  else if code = 5 then some 262144
  else if code = 6 then some 1048576
  else if code = 7 then some 4194304
  else none

/-- FLG[1], BD[7] and BD[3:0] must be 0 (R255). -/
def reservedSet (flg bd : Byte) : Bool := flg.getLsbD 1 || bd.getLsbD 7 || bd.extractLsb' 0 4 != 0

/-- An optional little-endian field of `k` bytes at `p`: its value and the position after it; `none` when the frame ends
inside it (R256, R257, R268). -/
def optionalField (present : Bool) (f : List Byte) (p k : Nat) : Option (Option Nat × Nat) :=
  if present then
    match take f p k with
    | some bytes => some (some (littleEndian bytes), p + k)
    | none => none
  else some (none, p)

/-- The fields after BD, ExpectOptionalFields (R256 to R258). -/
def optionalFields (f : List Byte) (flg : Byte) (blockMax : Nat) : Except (FrameError × FrameState) FrameHeader :=
  match optionalField (flg.getLsbD 3) f 6 8 with
  | none => .error (.unexpectedEndOfStream, .expectOptionalFields)
  | some (csize, p1) =>
    match optionalField (flg.getLsbD 0) f p1 4 with
    | none => .error (.unexpectedEndOfStream, .expectOptionalFields)
    | some (dict, p2) =>
      match take f p2 1 with
      | some [hc] =>
        .ok { indep := flg.getLsbD 5, blockChecksum := flg.getLsbD 4, contentChecksum := flg.getLsbD 2,
              blockMax := blockMax, contentSize := csize, dictId := dict, headerChecksum := hc, next := p2 + 1 }
      | _ => .error (.unexpectedEndOfStream, .expectOptionalFields)

/-- FLG and BD, ExpectDescriptor (R252 to R255): the version before BD is read, the reserved bits and the code after. -/
def descriptor (f : List Byte) : Except (FrameError × FrameState) FrameHeader :=
  match take f 4 1 with
  | some [flg] =>
    if flg.extractLsb' 6 2 ≠ 0b01#2 then .error (.unsupportedVersion, .expectDescriptor)
    else
      match take f 5 1 with
      | some [bd] =>
        if reservedSet flg bd then .error (.malformedHeader, .expectDescriptor)
        else
          match blockMaxOf (bd.extractLsb' 4 3).toNat with
          | some blockMax => optionalFields f flg blockMax
          | none => .error (.malformedHeader, .expectDescriptor)
      | _ => .error (.unexpectedEndOfStream, .expectDescriptor)
  | _ => .error (.unexpectedEndOfStream, .expectDescriptor)

/-- The header up to HC, which is not yet checked (R269). -/
def header (f : List Byte) : Except (FrameError × FrameState) FrameHeader :=
  match take f 0 4 with
  | some m => if m = magic then descriptor f else .error (.badMagic, .expectMagic)
  | none => .error (.unexpectedEndOfStream, .expectMagic)

/-- Goes on after a host program, or ends with the machine's fault. -/
def after (r : Result) (k : State → FrameResult) : FrameResult :=
  match r with
  | .next s => k s
  | .fault f => .stopped f
  | .refused r => .notRun r

/-- A rejection, which is terminal: no output, and ACK if the machine shows ERR, whatever left it there (R270). -/
def rejectFrame (reason : FrameError) (st : FrameState) (s : State) : FrameResult :=
  if s.status.err then after (hostDo (Asm.cmd 0x00) s) (.rejected reason st) else .rejected reason st s

/-- The slide of R265: the window's bytes moved to the bottom of OBUF, and the new `P`. -/
def slide (indep : Bool) (p : Nat) (s : State) : List HostAction × Nat :=
  let w := if indep then 0 else min Config.windowMax p
  (Asm.wrb .obuf 0 (s.bytesAt .obuf (p - w) w), w)

/-- The end of a frame, after the end marker at `p` (R266, R267): the content checksum, then the size. -/
def trailer (f : List Byte) (h : FrameHeader) (p total : Nat) (out : List Byte) (s : State) : FrameResult :=
  let sizeCheck := fun (s : State) =>
    if h.contentSize = none ∨ h.contentSize = some total then FrameResult.accepted out s
    else rejectFrame .sizeMismatch .finished s
  if h.contentChecksum then
    match take f p 4 with
    | none => rejectFrame .unexpectedEndOfStream .expectContentChecksum s
    | some c =>
      after (hostRun (Asm.hdigest s.ctrl.word .c0) s) (fun s =>
        if littleEndian c ≠ (s.readReg (.hDigest .c0)).toNat then
          rejectFrame .contentChecksumMismatch .expectContentChecksum s
        else sizeCheck s)
  else sizeCheck s

/-- The block command of R263 and R264, for `n` data bytes at `d` and output at `pout`. -/
def blockProgram (h : FrameHeader) (stored : Bool) (d n pout : Nat) (s : State) : List HostAction :=
  let ofNat := BitVec.ofNat 32
  if stored then Asm.rawCopy (ofNat d) (ofNat n) (ofNat pout) (ofNat h.blockMax)
  else Asm.decode s.ctrl.word (ofNat d) (ofNat n) (ofNat pout) (ofNat h.blockMax) (!h.indep)
    (ofNat (if h.indep then 0 else min Config.windowMax pout))

/-- A block's data decoded or copied, and its output hashed in context 0 (R263 to R266); then what follows, given the position
after the block's output and the block's output bytes. -/
def blockOutput (h : FrameHeader) (stored : Bool) (d n pout : Nat) (s : State)
    (k : Nat → List Byte → State → FrameResult) : FrameResult :=
  let (moves, pout) := if s.params.obufSize < pout + h.blockMax then slide h.indep pout s else ([], pout)
  after (hostRun (moves ++ blockProgram h stored d n pout s) s) (fun s =>
    if s.status.err then rejectFrame .malformedBlock .expectBlocks s
    else
      let len := s.readReg .outLen
      after (hostRun (Asm.hash s.ctrl.word .c0 .obuf (BitVec.ofNat 32 pout) len) s) (fun s =>
        k (pout + len.toNat) (s.bytesAt .obuf pout len.toNat) s))

/-- A block's checksum, when the frame has them, checked in context 1 over the `n` data bytes at `d` before the block is decoded
(R262); then what follows, given the position after the block. -/
def blockChecksum (f : List Byte) (h : FrameHeader) (d n : Nat) (s : State)
    (k : Nat → State → FrameResult) : FrameResult :=
  if h.blockChecksum then
    match take f (d + n) 4 with
    | none => rejectFrame .unexpectedEndOfStream .expectBlocks s
    | some c =>
      after (hostRun (Asm.xxh32 s.ctrl.word .c1 .ibuf (BitVec.ofNat 32 d) (BitVec.ofNat 32 n) 0) s) (fun s =>
        if littleEndian c ≠ (s.readReg (.hDigest .c1)).toNat then
          rejectFrame .blockChecksumMismatch .expectBlocks s
        else k (d + n + 4) s)
  else k (d + n) s

/-- The block loop, ExpectBlocks (R259 to R265), from position `p` of the frame with output position `pout` and `total` bytes
produced. Each turn consumes a size field, so the frame's length is fuel enough. -/
def blocks (f : List Byte) (h : FrameHeader) : Nat → Nat → Nat → Nat → List Byte → State → FrameResult
  | 0, _, _, _, _, s => rejectFrame .unexpectedEndOfStream .expectBlocks s
  | fuel + 1, p, pout, total, out, s =>
    match take f p 4 with
    | none => rejectFrame .unexpectedEndOfStream .expectBlocks s
    | some size =>
      let w := littleEndian size
      let n := w % 2 ^ 31
      if w = 0 then trailer f h (p + 4) total out s
      else if h.blockMax < n then rejectFrame .malformedBlock .expectBlocks s
      else
        match take f (p + 4) n with
        | none => rejectFrame .unexpectedEndOfStream .expectBlocks s
        | some _ =>
          blockChecksum f h (p + 4) n s (fun p' s =>
            blockOutput h (decide (2 ^ 31 ≤ w)) (p + 4) n pout s (fun pout' bytes s =>
              blocks f h fuel p' pout' (total + bytes.length) (out ++ bytes) s))

end Frame

/-- `FRAME_DECODE(F, N)` (R269), with `F` the bytes `IB(0 .. N-1)`: the header, its checksum in context 1 over FLG .. dictId
(R258), the content hash started in context 0 (R266), then the blocks. `N <= IBUF_SIZE` is the host's to keep (R269, U20); the model
runs on for a longer frame, its missing bytes the free ones of their addresses, DESIGN CHOICE (log entry 19). -/
def frameDecode (n : Nat) (s : State) : FrameResult :=
  let f := s.bytesAt .ibuf 0 n
  match Frame.header f with
  | .error (reason, st) => Frame.rejectFrame reason st s
  | .ok h =>
    Frame.after (hostRun (Asm.xxh32 s.ctrl.word .c1 .ibuf 4 (BitVec.ofNat 32 (h.next - 5)) 0) s) (fun s =>
      if h.headerChecksum.zeroExtend 32 ≠ s.readReg (.hHdrchk .c1) then
        Frame.rejectFrame .headerChecksumMismatch .expectOptionalFields s
      else
        Frame.after (hostRun (Asm.hinit s.ctrl.word .c0 0) s) (fun s =>
          Frame.blocks f h (n + 1) h.next 0 0 [] s))

end Sys2Proof.Machine
end

