-- ==== Sys2Proof/Safety.lean ====
section
/-!
DEFINITION. What holds of a run that starts at power-on (spec/10_state.md R36 to R42, spec/20_memory.md R105, spec/41_block_decode.md R196): the
invariant that rules out the model's two faults, and what a well-behaved host is (R69).
-/

namespace Sys2Proof.Machine

/-- The host has kept its contract so far (R69, R298). -/
abbrev State.clean (s : State) : Prop := s.hostFault = HostFault.none

/-- Both buffers are in canonical form and list no address they do not have. -/
abbrev State.memoryOk (s : State) : Prop :=
  s.ibuf.wf ∧ s.obuf.wf ∧ s.ibuf.within s.params.ibufSize ∧ s.obuf.within s.params.obufSize

/-- STATUS is consistent: BUSY is 1 exactly outside IDLE (R36); DONE and ERR are never both 1, and both are 0 while a command
runs (R37, R153); ERRCODE and ERRSTATE are 0 while no error is recorded, ERRCODE is not while one is, and ERRSTATE is 0 for
CONFIG (R40, R42). -/
abbrev Status.ok (st : Status) : Prop :=
  (st.busy = true ↔ st.state ≠ .idle) ∧
  ¬(st.done = true ∧ st.err = true) ∧
  (st.busy = true → st.done = false ∧ st.err = false) ∧
  (st.err = false → st.errCode = .noError ∧ st.errState = .idle) ∧
  (st.err = true → st.errCode ≠ .noError) ∧
  (st.errCode = .config → st.errState = .idle)

/-- A running decode stays inside its configuration: the payload in IBUF, the output bound in OBUF, the window below OUT_BASE, and
the cursors within their bounds (R49, R50, R105, R196). -/
abbrev State.decodeOk (s : State) : Prop :=
  s.inputFits ∧ s.outputFits ∧ s.winEff.toNat ≤ s.outBase.toNat ∧ s.winEff.toNat ≤ Config.windowMax ∧
  s.inPos.toNat ≤ s.inLen.toNat ∧ s.outLen.toNat ≤ s.maxSize.toNat

/-- A literal run that LITCHK has passed: at least one byte left, all of them present and with room (R183, R184). -/
abbrev State.literalOk (s : State) : Prop :=
  1 ≤ s.dCount.toNat ∧ s.inPos.toNat + s.dCount.toNat ≤ s.inLen.toNat ∧
  s.outLen.toNat + s.dCount.toNat ≤ s.maxSize.toNat

/-- A match that MCHK has passed: at least one byte left, with room, and its offset within reach (R188, R189). -/
abbrev State.matchOk (s : State) : Prop :=
  1 ≤ s.dCount.toNat ∧ s.outLen.toNat + s.dCount.toNat ≤ s.maxSize.toNat ∧
  1 ≤ s.dOffset.toNat ∧ s.dOffset.toNat ≤ s.outLen.toNat + s.winEff.toNat

/-- A running raw copy: the two cursors move together, and after the first byte the whole payload is known to fit (R190). -/
abbrev State.rawOk (s : State) : Prop :=
  s.inputFits ∧ s.outputFits ∧ s.outLen = s.inPos ∧
  (s.inPos = 0 ∨ (s.inPos.toNat < s.inLen.toNat ∧ s.inLen.toNat ≤ s.maxSize.toNat))

/-- A running HASH_UPDATE: its data in their buffer, and a byte left to absorb (R161, R223). -/
abbrev State.hashOk (s : State) : Prop :=
  s.cfgHash ∧ (s.hash s.activeCtx).pos.toNat < (s.hash s.activeCtx).len.toNat

/-- What holds in each engine state, with the command that leads there (R41, R43). -/
abbrev State.engineOk (s : State) : Prop :=
  (s.status.state ∈ [EngState.token, .lext, .litchk, .lit, .off0, .off1, .mext, .mchk, .copy] →
    s.decodeOk ∧ s.status.lastCmd = 0x01) ∧
  (s.status.state = .lit → s.literalOk) ∧
  (s.status.state = .copy → s.matchOk) ∧
  (s.status.state = .raw → s.rawOk ∧ s.status.lastCmd = 0x02) ∧
  (s.status.state = .habs → s.hashOk ∧ s.status.lastCmd = 0x11)

/-- The invariant of every run from power-on, whatever the host does. -/
structure State.Inv (s : State) : Prop where
  /-- The sizes are admitted (R5). -/
  params : s.params.valid
  memory : s.memoryOk
  status : s.status.ok
  engine : s.engineOk

/-- `n` steps of the machine, stopping at the first fault or refusal. -/
def runSteps (n : Nat) (s : State) : Host.Outcome State Fault Refusal := Host.Core.run Sys2Proof.core n s

/-- Two machines that differ at most in buffer bytes a running decode or raw copy must not depend on: in IBUF outside the
payload, in OBUF outside the window and the output so far (R105, R108, R194). -/
abbrev State.SameView (s t : State) : Prop :=
  t = { s with ibuf := t.ibuf, obuf := t.obuf } ∧
  (∀ a, s.inBase.toNat ≤ a → a < s.inBase.toNat + s.inLen.toNat → t.byteAt .ibuf a = s.byteAt .ibuf a) ∧
  (∀ a, s.outBase.toNat - s.winEff.toNat ≤ a → a < s.outAddr → t.byteAt .obuf a = s.byteAt .obuf a)

end Sys2Proof.Machine
end

