-- ==== Sys2Proof/Certificates/Slice0/Obligations.lean ====
section
/-!
DEFINITION. What is claimed of the machine: one Prop for each obligation of OBLIGATIONS.json. Results are written out from the rules
of spec/, not by calling the meaning they are about.
-/

open Sys2Proof Sys2Proof.Machine

namespace Sys2Proof.Claims

/-- The reset column of the register table (R30), by offset. -/
def resetColumn (off : Nat) : Word :=
  if off = 0x00 then 0x4C5A3442
  else if off = 0x60 ∨ off = 0xA0 then 0x24234428
  else if off = 0x64 ∨ off = 0xA4 then 0x85EBCA77
  else if off = 0x6C ∨ off = 0xAC then 0x61C8864F
  else 0

/-- The number of a context, `c` (R55). -/
def ctxNumber : Ctx → Nat
  | .c0 => 0
  | .c1 => 1

/-- The offset column of the register table (R30); the registers of context `c` lie `0x40*c` above those of context 0 (R55). -/
def offsetColumn : Reg → Nat
  | .id => 0x00
  | .ctrl => 0x04
  | .cmd => 0x08
  | .status => 0x0C
  | .inBase => 0x10
  | .inLen => 0x14
  | .outBase => 0x18
  | .maxSize => 0x1C
  | .winLen => 0x20
  | .inPos => 0x24
  | .outLen => 0x28
  | .dToken => 0x2C
  | .dCount => 0x30
  | .dOffset => 0x34
  | .winEff => 0x38
  | .hSeed c => 0x40 + 0x40 * ctxNumber c
  | .hAddr c => 0x44 + 0x40 * ctxNumber c
  | .hLen c => 0x48 + 0x40 * ctxNumber c
  | .hPos c => 0x4C + 0x40 * ctxNumber c
  | .hTotal c => 0x50 + 0x40 * ctxNumber c
  | .hDigest c => 0x54 + 0x40 * ctxNumber c
  | .hHdrchk c => 0x58 + 0x40 * ctxNumber c
  | .hBufcnt c => 0x5C + 0x40 * ctxNumber c
  | .hV1 c => 0x60 + 0x40 * ctxNumber c
  | .hV2 c => 0x64 + 0x40 * ctxNumber c
  | .hV3 c => 0x68 + 0x40 * ctxNumber c
  | .hV4 c => 0x6C + 0x40 * ctxNumber c

/-- The reserved offsets (R65). -/
abbrev reservedOffset (off : Nat) : Prop :=
  off % 4 = 0 ∧ (off = 0x3C ∨ (0x70 ≤ off ∧ off ≤ 0x7C) ∨ (0xB0 ≤ off ∧ off ≤ 0xFC))

/-- The RW registers other than CTRL (R66). -/
def configRegs : List Reg :=
  [.inBase, .inLen, .outBase, .maxSize, .winLen, .hSeed .c0, .hAddr .c0, .hLen .c0, .hSeed .c1, .hAddr .c1, .hLen .c1]

/-- The RO registers (R67). -/
def readOnlyRegs : List Reg :=
  [.id, .status, .inPos, .outLen, .dToken, .dCount, .dOffset, .winEff,
   .hPos .c0, .hTotal .c0, .hDigest .c0, .hHdrchk .c0, .hBufcnt .c0, .hV1 .c0, .hV2 .c0, .hV3 .c0, .hV4 .c0,
   .hPos .c1, .hTotal .c1, .hDigest .c1, .hHdrchk .c1, .hBufcnt .c1, .hV1 .c1, .hV2 .c1, .hV3 .c1, .hV4 .c1]

/-- The opcodes of R133. -/
def opcodes : List Byte := [0x00, 0x01, 0x02, 0x10, 0x11, 0x12, 0xFF]

/-- A state with REJ set and nothing else changed (R151, R152). -/
def withRej (s : State) : State := { s with status := { s.status with rej := true } }

/-- STATUS after `raise Error(code)` in an engine step (R291). -/
def errorStatus (s : State) (code : ErrCode) : Status :=
  { s.status with busy := false, err := true, errCode := code, state := .idle, errState := s.status.state }

/-- STATUS after `finish()` (R292). -/
def doneStatus (s : State) : Status := { s.status with busy := false, done := true, state := .idle }

/-- STATUS once a command has been accepted and runs in a state, after the prologue (R153). -/
def runningStatus (s : State) (op : BitVec 8) (st : EngState) : Status :=
  { busy := true, done := false, err := false, rej := s.status.rej, errCode := .noError, state := st, errState := .idle,
    lastCmd := op }

/-- STATUS once an accepted command has ended with success in the same host action (R153, R292). -/
def endedStatus (s : State) (op : BitVec 8) : Status :=
  { busy := false, done := true, err := false, rej := s.status.rej, errCode := .noError, state := .idle,
    errState := .idle, lastCmd := op }

/-- STATUS once a command has failed its acceptance check (R153, R161, R291). -/
def configErrorStatus (s : State) (op : BitVec 8) : Status :=
  { busy := false, done := false, err := true, rej := s.status.rej, errCode := .config, state := .idle,
    errState := .idle, lastCmd := op }

/-- The context HCTX selects (R55). -/
def ctxOf (s : State) : Ctx := if s.ctrl.hctx then .c1 else .c0

/-- STATE and ERRSTATE as the host reads them (R41). -/
def stateNumber : EngState → Nat
  | .idle => 0
  | .token => 1
  | .lext => 2
  | .litchk => 3
  | .lit => 4
  | .off0 => 5
  | .off1 => 6
  | .mext => 7
  | .mchk => 8
  | .copy => 9
  | .raw => 10
  | .habs => 11

/-- ERRCODE as the host reads it (R290). -/
def errorNumber : ErrCode → Nat
  | .noError => 0
  | .offsetZero => 1
  | .offsetRange => 2
  | .truncated => 3
  | .outputLimit => 4
  | .config => 5

/-- What each register reads in a state, from its rule (R31 to R63): the value of each field at its place, and 0 elsewhere. -/
def registerValue (s : State) : Reg → Word
  | .id => 0x4C5A3442
  | .ctrl => BitVec.ofNat 32
    (s.ctrl.linked.toNat + 2 * s.ctrl.hsrc.toNat + 4 * s.ctrl.irqEn.toNat + 8 * s.ctrl.hctx.toNat)
  | .cmd => 0
  | .status => BitVec.ofNat 32
    (s.status.busy.toNat + 2 * s.status.done.toNat + 4 * s.status.err.toNat + 8 * s.status.rej.toNat
      + 2 ^ 4 * errorNumber s.status.errCode + 2 ^ 8 * stateNumber s.status.state
      + 2 ^ 12 * stateNumber s.status.errState + 2 ^ 16 * s.status.lastCmd.toNat)
  | .inBase => s.inBase
  | .inLen => s.inLen
  | .outBase => s.outBase
  | .maxSize => s.maxSize
  | .winLen => s.winLen
  | .inPos => s.inPos
  | .outLen => s.outLen
  | .dToken => BitVec.ofNat 32 s.dToken.toNat
  | .dCount => s.dCount
  | .dOffset => BitVec.ofNat 32 s.dOffset.toNat
  | .winEff => s.winEff
  | .hSeed c => (s.hash c).seed
  | .hAddr c => (s.hash c).addr
  | .hLen c => (s.hash c).len
  | .hPos c => (s.hash c).pos
  | .hTotal c => (s.hash c).total
  | .hDigest c => (s.hash c).digest
  | .hHdrchk c => BitVec.ofNat 32 ((s.hash c).digest.toNat / 256 % 256)
  | .hBufcnt c => BitVec.ofNat 32 ((s.hash c).count.val + 256 * (s.hash c).large.toNat)
  | .hV1 c => (s.hash c).v1
  | .hV2 c => (s.hash c).v2
  | .hV3 c => (s.hash c).v3
  | .hV4 c => (s.hash c).v4

/-- `rotl32(x, r)` (R7). -/
def rotated (x : Word) (r : Nat) : Word := x <<< r ||| x >>> (32 - r)

/-- `b0 | b1 << 8 | b2 << 16 | b3 << 24` (R224, R225). -/
def leWord (b0 b1 b2 b3 : Byte) : Word :=
  b0.zeroExtend 32 ||| b1.zeroExtend 32 <<< 8 ||| b2.zeroExtend 32 <<< 16 ||| b3.zeroExtend 32 <<< 24

/-- `ROUND(acc, w)`, with the primes of R220 (R221). -/
def roundOf (acc w : Word) : Word := rotated (acc + w * 0x85EBCA77) 13 * 0x9E3779B1

/-- `AVALANCHE(h)`, with the primes of R220 (R226). -/
def avalancheOf (h : Word) : Word :=
  let a := (h ^^^ h >>> 15) * 0x85EBCA77
  let b := (a ^^^ a >>> 13) * 0xC2B2AE3D
  b ^^^ b >>> 16

/-- `XXH_DIGEST` of a context, with the primes of R220: the start value, the tail by words and then by bytes, as R225 indexes
`H_BUF`, and AVALANCHE. -/
def digestOf (h : HashCtx) : Word :=
  let byte := fun i => h.buf.toList.getD i 0
  let n := h.count.val
  let start :=
    if h.large then rotated h.v1 1 + rotated h.v2 7 + rotated h.v3 12 + rotated h.v4 18 else h.v3 + 0x165667B1
  let words := (List.range (n / 4)).foldl
    (fun x k => rotated
      (x + leWord (byte (4 * k)) (byte (4 * k + 1)) (byte (4 * k + 2)) (byte (4 * k + 3)) * 0xC2B2AE3D) 17 * 0x27D4EB2F)
    (start + h.total)
  let bytes := (List.range (n % 4)).foldl
    (fun x k => rotated (x + (byte (4 * (n / 4) + k)).zeroExtend 32 * 0x165667B1) 11 * 0x9E3779B1) words
  avalancheOf bytes

/-- The machine after a rejected frame: ACK has been sent if the machine showed ERR (R154, R270). -/
def acknowledged (s : State) : State :=
  if s.status.err then
    if s.status.busy then withRej s
    else { s with status := { s.status with done := false, err := false, rej := false, errCode := .noError,
                                            errState := .idle, lastCmd := 0x00 } }
  else s

/-- The events by which only the engine acts. -/
def engineEvents : List Event := [.engine, .fused]

/-- The states with an engine turn next: an engine event at the head of the schedule, or an empty schedule. -/
abbrev engineTurnNext (s : State) : Prop := s.schedule = [] ∨ ∃ e ∈ engineEvents, ∃ rest, s.schedule = e :: rest

end Sys2Proof.Claims

open Sys2Proof.Claims

/-! ### Reset and the register window -/

/-- R70, R160: power-on and SOFT_RESET, in every state, leave every register at the reset column of R30 (a whole STATUS of 0 and a whole
H_BUFCNT of 0 among them), with IRQ 0 and each hash context as HASH_INIT gives it for seed 0. At power-on each buffer byte is the
free byte of its address and HOSTFAULT is empty; SOFT_RESET keeps buffers and HOSTFAULT. That it keeps the sizes, the schedule and the
reads is the model's choice (log entry 11). -/
def Obligations.ResetLeavesEveryRegisterAtItsResetValue : Prop :=
  (∀ (p : Params) (off : Nat), off % 4 = 0 → off < 256 → (State.powerOn p).readWindow off = resetColumn off) ∧
  (∀ p : Params, (State.powerOn p).irq = false ∧ (State.powerOn p).hostFault = HostFault.none ∧
    (∀ a, (State.powerOn p).byteAt .ibuf a = Config.ibufPowerOn a) ∧
    (∀ a, (State.powerOn p).byteAt .obuf a = Config.obufPowerOn a) ∧
    (∀ c, ((State.powerOn p).hash c).init 0 = (State.powerOn p).hash c)) ∧
  (∀ s : State, ∃ t, exec .softReset s = .next t ∧
    (∀ off, off % 4 = 0 → off < 256 → t.readWindow off = resetColumn off) ∧ t.irq = false ∧
    (∀ c, (t.hash c).init 0 = t.hash c) ∧
    t.ibuf = s.ibuf ∧ t.obuf = s.obuf ∧ t.hostFault = s.hostFault ∧ t.params = s.params ∧
    t.schedule = s.schedule ∧ t.reads = s.reads)

/-- R30, R55, R65: each register is at the offset the table gives it and at no other, and a word offset holds no register exactly when it is reserved. -/
def Obligations.RegisterMapIsOneToOne : Prop :=
  (∀ r : Reg, r.offset = offsetColumn r) ∧
  (∀ r : Reg, Reg.ofOffset r.offset = some r) ∧
  (∀ (off : Nat) (r : Reg), Reg.ofOffset off = some r → r.offset = off) ∧
  (∀ off : Nat, off % 4 = 0 → off < 256 → (Reg.ofOffset off = none ↔ reservedOffset off))

/-- R35, R40, R41, R290: where each field of STATUS reads and with which numbers, that its reserved bits read 0, and that reserved codes are
never produced. -/
def Obligations.StatusWordHoldsItsFields : Prop :=
  ∀ st : Status,
    st.word.getLsbD 0 = st.busy ∧ st.word.getLsbD 1 = st.done ∧ st.word.getLsbD 2 = st.err ∧
    st.word.getLsbD 3 = st.rej ∧ (st.word.extractLsb' 4 4).toNat = errorNumber st.errCode ∧
    (st.word.extractLsb' 8 4).toNat = stateNumber st.state ∧ (st.word.extractLsb' 12 4).toNat = stateNumber st.errState ∧
    st.word.extractLsb' 16 8 = st.lastCmd ∧ st.word.extractLsb' 24 8 = 0#8 ∧
    (st.word.extractLsb' 4 4).toNat ≤ 5 ∧ (st.word.extractLsb' 8 4).toNat ≤ 11 ∧ (st.word.extractLsb' 12 4).toNat ≤ 11

/-- R33: what a write to CTRL does while busy. -/
def Obligations.BusyCtrlWriteChangesOnlyIrqEnable : Prop :=
  ∀ (s : State) (v : Word), s.status.busy = true →
    hostAct (.regWrite 0x04 4 v) s = .next { s with ctrl := { s.ctrl with irqEn := v.getLsbD 2 } }

/-- R30, R32: a write to CTRL while idle stores its four fields, and its reserved bits read 0. -/
def Obligations.IdleCtrlWriteStoresTheModeBits : Prop :=
  ∀ (s : State) (v : Word), s.status.busy = false →
    ∃ t, hostAct (.regWrite 0x04 4 v) s = .next t ∧ t.readReg .ctrl = v &&& 0xF#32 ∧ t = { s with ctrl := t.ctrl }

/-- R66: a write to an RW register other than CTRL, while busy and while idle. -/
def Obligations.ConfigWriteIsStoredOnlyWhenIdle : Prop :=
  ∀ r ∈ configRegs, ∀ (s : State) (v : Word),
    (s.status.busy = true → hostAct (.regWrite r.offset 4 v) s = .next (withRej s)) ∧
    (s.status.busy = false → ∃ t, hostAct (.regWrite r.offset 4 v) s = .next t ∧ t.readReg r = v ∧
      (∀ r', r' ≠ r → t.readReg r' = s.readReg r') ∧ (∀ c, (t.hash c).buf = (s.hash c).buf) ∧
      t.ibuf = s.ibuf ∧ t.obuf = s.obuf ∧ t.hostFault = s.hostFault ∧ t.params = s.params ∧
      t.schedule = s.schedule ∧ t.reads = s.reads)

/-- R67: a write to an RO register changes nothing at all. -/
def Obligations.ReadOnlyWriteIsIgnored : Prop :=
  ∀ r ∈ readOnlyRegs, ∀ (s : State) (v : Word), hostAct (.regWrite r.offset 4 v) s = .next s

/-- R65: the reserved offsets read 0 and ignore writes, with no flag set. What the host took is the model's own list `reads` (log entry
5). -/
def Obligations.ReservedOffsetsReadZeroAndIgnoreWrites : Prop :=
  ∀ (s : State) (off : Nat) (v : Word), reservedOffset off →
    hostAct (.regRead off 4) s = .next { s with reads := 0 :: s.reads } ∧ hostAct (.regWrite off 4 v) s = .next s

/-- R31 to R63, R94, R98: in every state a read of a register returns the value its rule gives it, field by field, and changes nothing;
an aligned word read returns what the window holds there; any other REG access changes no register, reads 0,
and leaves HOST_BADACCESS. What the host took is the model's own list `reads` (log entry 5). -/
def Obligations.RegisterAccessIsAlignedWordsOnly : Prop :=
  (∀ (s : State) (r : Reg), hostAct (.regRead r.offset 4) s = .next { s with reads := registerValue s r :: s.reads }) ∧
  ∀ (s : State) (off width : Nat) (v : Word),
    ((width = 4 ∧ off % 4 = 0 ∧ off < 256) →
      hostAct (.regRead off width) s = .next { s with reads := s.readWindow off :: s.reads }) ∧
    (¬(width = 4 ∧ off % 4 = 0 ∧ off < 256) →
      hostAct (.regRead off width) s =
        .next { s with reads := 0 :: s.reads, hostFault := { s.hostFault with badAccess := true } } ∧
      hostAct (.regWrite off width v) s = .next { s with hostFault := { s.hostFault with badAccess := true } })

/-- R95, R106: host buffer accesses inside and outside the buffer, idle and busy. What the host took is the model's own list `reads` (log
entry 5), and a write outside the buffer while busy leaves the mark HOST_BADADDR alone, the model's choice (log entry 10). -/
def Obligations.BufferAccessFollowsTheHostContract : Prop :=
  ∀ (s : State) (sp : Space) (a : Nat) (v : Byte),
    (a < s.spaceSize sp →
      hostAct (.bufRead sp a) s = .next { s with reads := (s.byteAt sp a).zeroExtend 32 :: s.reads } ∧
      ∃ t, hostAct (.bufWrite sp a v) s = .next t ∧ t.byteAt sp a = v ∧
        (∀ sp' a', ¬(sp' = sp ∧ a' = a) → t.byteAt sp' a' = s.byteAt sp' a') ∧
        t = { s with ibuf := t.ibuf, obuf := t.obuf,
                     hostFault := if s.status.busy then { s.hostFault with hazard := true } else s.hostFault }) ∧
    (s.spaceSize sp ≤ a →
      hostAct (.bufRead sp a) s =
        .next { s with reads := 0 :: s.reads, hostFault := { s.hostFault with badAddr := true } } ∧
      hostAct (.bufWrite sp a v) s = .next { s with hostFault := { s.hostFault with badAddr := true } })

/-- R68, R299: IRQ is a function of three register bits and 0 at reset; it rises with the end of a command when it is enabled, falls with the prologue of the next accepted command and with
SOFT_RESET, and writing `IRQ_EN = 0` masks it. -/
def Obligations.InterruptFollowsCompletion : Prop :=
  (∀ s : State, s.irq = true ↔ s.ctrl.irqEn = true ∧ (s.status.done = true ∨ s.status.err = true)) ∧
  (∀ p : Params, (State.powerOn p).irq = false) ∧
  (∀ (s : State) (code : ErrCode), (raiseError code s).irq = s.ctrl.irqEn) ∧
  (∀ s : State, (finish s).irq = s.ctrl.irqEn) ∧
  (∀ (s : State) (op : BitVec 8), (prologue op s).irq = false) ∧
  (∀ s : State, ∃ t, exec .softReset s = .next t ∧ t.irq = false) ∧
  (∀ (s : State) (v : Word), v.getLsbD 2 = false → (writeCtrl v s).irq = false)

/-! ### Commands -/

/-- R154: ACK idle, ACK busy, and the rule's example. -/
def Obligations.AckClearsTheRecord : Prop :=
  ∀ s : State,
    (s.status.busy = false → exec .ack s = .next { s with status :=
      { busy := false, done := false, err := false, rej := false, errCode := .noError, state := s.status.state,
        errState := .idle, lastCmd := 0x00 } }) ∧
    (s.status.busy = true → exec .ack s = .next (withRej s)) ∧
    (s.status.word = 0x00018024 → ∃ t, exec .ack s = .next t ∧ t.status.word = 0x00000000)

/-- R155, R161: DEC_START from an idle machine, accepted and refused. -/
def Obligations.DecStartStartsTheDecoderOrFailsConfig : Prop :=
  ∀ s : State, s.status.busy = false →
    let cfg := s.inBase.toNat + s.inLen.toNat ≤ s.params.ibufSize ∧
      s.outBase.toNat + s.maxSize.toNat ≤ s.params.obufSize ∧
      (s.ctrl.linked = false ∨ (s.winLen.toNat ≤ 65536 ∧ s.winLen.toNat ≤ s.outBase.toNat))
    (cfg → exec .decStart s = .next { s with
      inPos := 0, outLen := 0, dToken := 0, dCount := 0, dOffset := 0,
      winEff := if s.ctrl.linked then s.winLen else 0, status := runningStatus s 0x01 .token }) ∧
    (¬cfg → exec .decStart s = .next { s with status := configErrorStatus s 0x01 })

/-- R156, R161: RAW_COPY from an idle machine, accepted and refused; LINKED and WIN_LEN do not matter. -/
def Obligations.RawCopyStartsTheCopyOrFailsConfig : Prop :=
  ∀ s : State, s.status.busy = false →
    let cfg := s.inBase.toNat + s.inLen.toNat ≤ s.params.ibufSize ∧
      s.outBase.toNat + s.maxSize.toNat ≤ s.params.obufSize
    (cfg → exec .rawCopy s = .next { s with
      inPos := 0, outLen := 0, dToken := 0, dCount := 0, dOffset := 0, winEff := 0,
      status := runningStatus s 0x02 .raw }) ∧
    (¬cfg → exec .rawCopy s = .next { s with status := configErrorStatus s 0x02 })

/-- R157, R222: HASH_INIT from an idle machine. -/
def Obligations.HashInitLoadsTheSeedLanes : Prop :=
  ∀ s : State, s.status.busy = false →
    ∃ t, exec .hashInit s = .next t ∧
      t.hash (ctxOf s) = { s.hash (ctxOf s) with
        v1 := (s.hash (ctxOf s)).seed + 0x9E3779B1 + 0x85EBCA77, v2 := (s.hash (ctxOf s)).seed + 0x85EBCA77,
        v3 := (s.hash (ctxOf s)).seed, v4 := (s.hash (ctxOf s)).seed - 0x9E3779B1,
        count := 0, large := false, total := 0 } ∧
      (∀ c, c ≠ ctxOf s → t.hash c = s.hash c) ∧
      t = { s with h0 := t.h0, h1 := t.h1, status := endedStatus s 0x10 }

/-- R158, R161: HASH_UPDATE from an idle machine: started, ended at once for a length of 0, or refused. -/
def Obligations.HashUpdateStartsEndsAtOnceOrFailsConfig : Prop :=
  ∀ s : State, s.status.busy = false →
    let h := s.hash (ctxOf s)
    let cfg := h.addr.toNat + h.len.toNat ≤ (if s.ctrl.hsrc then s.params.obufSize else s.params.ibufSize)
    (cfg → ∃ t, exec .hashUpdate s = .next t ∧ t.hash (ctxOf s) = { h with pos := 0 } ∧
      (∀ c, c ≠ ctxOf s → t.hash c = s.hash c) ∧
      t = { s with h0 := t.h0, h1 := t.h1,
                   status := if h.len = 0 then endedStatus s 0x11 else runningStatus s 0x11 .habs }) ∧
    (¬cfg → exec .hashUpdate s = .next { s with status := configErrorStatus s 0x11 })

/-- R159, R225, R226, R61: HASH_DIGEST from an idle machine writes the digest, written out from the rules, to the digest register and, with
it, the header-check view, and changes nothing else of either context. -/
def Obligations.HashDigestWritesOnlyTheDigest : Prop :=
  ∀ s : State, s.status.busy = false →
    ∃ t, exec .hashDigest s = .next t ∧
      t.hash (ctxOf s) = { s.hash (ctxOf s) with digest := digestOf (s.hash (ctxOf s)) } ∧
      t.readReg (.hHdrchk (ctxOf s)) = (t.readReg (.hDigest (ctxOf s)) >>> 8) &&& 0xFF#32 ∧
      (∀ c, c ≠ ctxOf s → t.hash c = s.hash c) ∧
      t = { s with h0 := t.h0, h1 := t.h1, status := endedStatus s 0x12 }

/-- R151: a CMD write while busy, SOFT_RESET apart. -/
def Obligations.CommandWhileBusyIsRejected : Prop :=
  ∀ (s : State) (v : Word), s.status.busy = true → v.extractLsb' 0 8 ≠ 0xFF#8 →
    hostAct (.regWrite 0x08 4 v) s = .next (withRej s)

/-- R152: a reserved opcode. -/
def Obligations.ReservedOpcodeOnlySetsRej : Prop :=
  ∀ (s : State) (v : Word), v.extractLsb' 0 8 ∉ opcodes → hostAct (.regWrite 0x08 4 v) s = .next (withRej s)

/-- R132, R133: a word written to CMD runs the command of its low byte, whatever its upper bits. -/
def Obligations.CommandWordRunsItsOpcode : Prop :=
  ∀ (s : State) (v : Word),
    (v.extractLsb' 0 8 = 0x00#8 → hostAct (.regWrite 0x08 4 v) s = exec .ack s) ∧
    (v.extractLsb' 0 8 = 0x01#8 → hostAct (.regWrite 0x08 4 v) s = exec .decStart s) ∧
    (v.extractLsb' 0 8 = 0x02#8 → hostAct (.regWrite 0x08 4 v) s = exec .rawCopy s) ∧
    (v.extractLsb' 0 8 = 0x10#8 → hostAct (.regWrite 0x08 4 v) s = exec .hashInit s) ∧
    (v.extractLsb' 0 8 = 0x11#8 → hostAct (.regWrite 0x08 4 v) s = exec .hashUpdate s) ∧
    (v.extractLsb' 0 8 = 0x12#8 → hostAct (.regWrite 0x08 4 v) s = exec .hashDigest s) ∧
    (v.extractLsb' 0 8 = 0xFF#8 → hostAct (.regWrite 0x08 4 v) s = exec .softReset s)

/-! ### Elements of a block -/

/-- R181: TOKEN, at the end of the input and before it. -/
def Obligations.TokenTakesTheLiteralNibble : Prop :=
  ∀ (s : State) (t : Byte),
    (s.inPos = s.inLen → exec (.token t) s = .next { s with status := errorStatus s .truncated }) ∧
    (s.inPos ≠ s.inLen → exec (.token t) s = .next { s with
      inPos := s.inPos + 1, dToken := t, dCount := BitVec.ofNat 32 (t.toNat / 16),
      status := { s.status with state := if t.toNat / 16 = 15 then .lext else .litchk } })

/-- R182, R187, R191: LEXT and MEXT add their byte to D_COUNT, saturating, and go on while the byte is 255. -/
def Obligations.ExtensionByteAddsAndContinues : Prop :=
  ∀ (s : State) (e : Byte),
    (s.inPos = s.inLen → exec (.lext e) s = .next { s with status := errorStatus s .truncated } ∧
      exec (.mext e) s = .next { s with status := errorStatus s .truncated }) ∧
    (s.inPos ≠ s.inLen →
      let count := BitVec.ofNat 32 (min (s.dCount.toNat + e.toNat) (2 ^ 32 - 1))
      exec (.lext e) s = .next { s with
        inPos := s.inPos + 1, dCount := count,
        status := if e = 255 then s.status else { s.status with state := .litchk } } ∧
      exec (.mext e) s = .next { s with
        inPos := s.inPos + 1, dCount := count,
        status := if e = 255 then s.status else { s.status with state := .mchk } })

/-- R184: LITERAL stores its byte at `OUT(OUT_LEN)` and no other byte. Outside OBUF there is no such address and the machine
stops (log entry 9); `StepNeverFaultsUnderTheInvariant` says that it does not come to that. -/
def Obligations.LiteralStoresOneByte : Prop :=
  ∀ (s : State) (b : Byte),
    let addr := s.outBase.toNat + s.outLen.toNat
    (addr < s.params.obufSize → ∃ t, exec (.literal b) s = .next t ∧ t.byteAt .obuf addr = b ∧
      (∀ a, a ≠ addr → t.byteAt .obuf a = s.byteAt .obuf a) ∧
      t = { s with obuf := t.obuf, inPos := s.inPos + 1, outLen := s.outLen + 1, dCount := s.dCount - 1,
                   status := if s.dCount = 1 then { s.status with state := .off0 } else s.status }) ∧
    (s.params.obufSize ≤ addr → exec (.literal b) s = .fault (.engineAddress .obuf addr))

/-- R125, R185, R186: OFFSET ends the block when no input is left, fails when only one byte is, and else completes D_OFFSET and takes
the match nibble as the count. -/
def Obligations.OffsetIsReadLittleEndian : Prop :=
  ∀ (s : State) (o : BitVec 16), s.status.busy = true →
    (s.inPos = s.inLen → exec (.offset o) s = .next { s with status := doneStatus s }) ∧
    (s.inPos ≠ s.inLen → s.inPos + 1 = s.inLen → exec (.offset o) s = .next { s with
      inPos := s.inPos + 1, dOffset := BitVec.ofNat 16 (o.toNat % 256),
      status := { s.status with busy := false, err := true, errCode := .truncated, state := .idle, errState := .off1 } }) ∧
    (s.inPos ≠ s.inLen → s.inPos + 1 ≠ s.inLen → exec (.offset o) s = .next { s with
      inPos := s.inPos + 2, dOffset := o, dCount := BitVec.ofNat 32 (s.dToken.toNat % 16),
      status := { s.status with state := if s.dToken.toNat % 16 = 15 then .mext else .mchk } })

/-- R120, R136, R181 to R189: in a running decode, a whole SEQ that fits its bounds copies its literals and then its match, byte by
byte forward: each match byte equals the one `off` back, in the output as it then is. -/
def Obligations.SeqCopiesLiteralsThenMatch : Prop :=
  ∀ (s : State) (lits : List Byte) (off : BitVec 16) (mraw : Nat),
    let size := (encode (.seq lits off mraw)).length
    let start := s.outBase.toNat + s.outLen.toNat
    s.Inv → s.status.busy = true → s.status.state = .token →
    s.inPos.toNat + size ≤ s.inLen.toNat → s.outLen.toNat + lits.length + (mraw + 4) ≤ s.maxSize.toNat →
    1 ≤ off.toNat → off.toNat ≤ s.outLen.toNat + lits.length + s.winEff.toNat →
    ∃ t, exec (.seq lits off mraw) s = .next t ∧
      (∀ k (h : k < lits.length), t.byteAt .obuf (start + k) = lits[k]) ∧
      (∀ k, k < mraw + 4 → t.byteAt .obuf (start + lits.length + k) =
        t.byteAt .obuf (start + lits.length + k - off.toNat)) ∧
      (∀ a, a < start ∨ start + lits.length + (mraw + 4) ≤ a → t.byteAt .obuf a = s.byteAt .obuf a) ∧
      t = { s with
        obuf := t.obuf, inPos := BitVec.ofNat 32 (s.inPos.toNat + size),
        outLen := BitVec.ofNat 32 (s.outLen.toNat + lits.length + (mraw + 4)),
        dToken := BitVec.ofNat 8 (min lits.length 15 * 16 + min mraw 15), dCount := 0, dOffset := off }

/-- R129, R185: in a running decode, a LAST that ends exactly at the end of the input and fits MAX_SIZE copies its literals and ends
the command with DONE, whatever its ML nibble. -/
def Obligations.LastCopiesLiteralsAndEndsTheBlock : Prop :=
  ∀ (s : State) (lits : List Byte) (ml : BitVec 4),
    let size := (encode (.last lits ml)).length
    let start := s.outBase.toNat + s.outLen.toNat
    s.Inv → s.status.busy = true → s.status.state = .token →
    s.inPos.toNat + size = s.inLen.toNat → s.outLen.toNat + lits.length ≤ s.maxSize.toNat →
    ∃ t, exec (.last lits ml) s = .next t ∧
      (∀ k (h : k < lits.length), t.byteAt .obuf (start + k) = lits[k]) ∧
      (∀ a, a < start ∨ start + lits.length ≤ a → t.byteAt .obuf a = s.byteAt .obuf a) ∧
      t = { s with
        obuf := t.obuf, inPos := s.inLen, outLen := BitVec.ofNat 32 (s.outLen.toNat + lits.length),
        dToken := BitVec.ofNat 8 (min lits.length 15 * 16 + ml.toNat), dCount := 0, status := doneStatus s }

/-! ### Engine steps that read no element -/

/-- R183: LITCHK checks the whole literal run, TRUNCATED before OUTPUT_LIMIT, and writes STATE only. -/
def Obligations.LiteralCheckComesBeforeAnyCopy : Prop :=
  ∀ s : State, s.status.busy = true → s.status.state = .litchk →
    let n := s.dCount.toNat
    (s.inLen.toNat < s.inPos.toNat + n → engineStep s = .next { s with status := errorStatus s .truncated }) ∧
    (s.inPos.toNat + n ≤ s.inLen.toNat → s.maxSize.toNat < s.outLen.toNat + n →
      engineStep s = .next { s with status := errorStatus s .outputLimit }) ∧
    (s.inPos.toNat + n ≤ s.inLen.toNat → s.outLen.toNat + n ≤ s.maxSize.toNat →
      engineStep s = .next { s with status := { s.status with state := if n = 0 then .off0 else .lit } })

/-- R188: MCHK completes the match length and makes its three checks in the rule's order. -/
def Obligations.MatchCheckComesBeforeAnyCopy : Prop :=
  ∀ s : State, s.status.busy = true → s.status.state = .mchk →
    let m := min (s.dCount.toNat + 4) (2 ^ 32 - 1)
    let s' := { s with dCount := BitVec.ofNat 32 m }
    (s.dOffset = 0 → engineStep s = .next { s' with status := errorStatus s .offsetZero }) ∧
    (s.dOffset ≠ 0 → s.outLen.toNat + s.winEff.toNat < s.dOffset.toNat →
      engineStep s = .next { s' with status := errorStatus s .offsetRange }) ∧
    (s.dOffset ≠ 0 → s.dOffset.toNat ≤ s.outLen.toNat + s.winEff.toNat → s.maxSize.toNat < s.outLen.toNat + m →
      engineStep s = .next { s' with status := errorStatus s .outputLimit }) ∧
    (s.dOffset ≠ 0 → s.dOffset.toNat ≤ s.outLen.toNat + s.winEff.toNat → s.outLen.toNat + m ≤ s.maxSize.toNat →
      engineStep s = .next { s' with status := { s.status with state := .copy } })

/-- R189: one COPY step, in a state the invariant allows. -/
def Obligations.CopyStepReadsBackByTheOffset : Prop :=
  ∀ s : State, s.Inv → s.status.busy = true → s.status.state = .copy →
    let addr := s.outBase.toNat + s.outLen.toNat
    ∃ t, engineStep s = .next t ∧ t.byteAt .obuf addr = s.byteAt .obuf (addr - s.dOffset.toNat) ∧
      (∀ a, a ≠ addr → t.byteAt .obuf a = s.byteAt .obuf a) ∧
      t = { s with obuf := t.obuf, outLen := s.outLen + 1, dCount := s.dCount - 1,
                   status := if s.dCount = 1 then { s.status with state := .token } else s.status }

/-- R190: one RAW step: OUTPUT_LIMIT at the first step, the empty payload, and a byte copied. -/
def Obligations.RawStepCopiesOneByte : Prop :=
  ∀ s : State, s.Inv → s.status.busy = true → s.status.state = .raw →
    let addr := s.outBase.toNat + s.outLen.toNat
    (s.inPos = 0 → s.maxSize.toNat < s.inLen.toNat →
      engineStep s = .next { s with status := errorStatus s .outputLimit }) ∧
    (s.inLen = 0 → engineStep s = .next { s with status := doneStatus s }) ∧
    (s.inPos ≠ s.inLen → s.inLen.toNat ≤ s.maxSize.toNat →
      ∃ t, engineStep s = .next t ∧
        t.byteAt .obuf addr = s.byteAt .ibuf (s.inBase.toNat + s.inPos.toNat) ∧
        (∀ a, a ≠ addr → t.byteAt .obuf a = s.byteAt .obuf a) ∧
        t = { s with obuf := t.obuf, inPos := s.inPos + 1, outLen := s.outLen + 1,
                     status := if s.inPos + 1 = s.inLen then doneStatus s else s.status })

/-- R221, R223, R224: one HABS step, in a state the invariant allows: the byte at `H_ADDR + H_POS` of the buffer HSRC selects goes into the
stripe buffer, and the sixteenth folds the buffer into the four lanes by ROUND. -/
def Obligations.HashStepAbsorbsOneByte : Prop :=
  ∀ s : State, s.Inv → s.status.busy = true → s.status.state = .habs →
    let h := s.hash (ctxOf s)
    let b := s.byteAt (if s.ctrl.hsrc then .obuf else .ibuf) (h.addr.toNat + h.pos.toNat)
    let buf := h.buf.set h.count.val b h.count.isLt
    ∃ t, engineStep s = .next t ∧
      (h.count.val < 15 → t.hash (ctxOf s) =
        { h with buf := buf, count := h.count + 1, total := h.total + 1, pos := h.pos + 1 }) ∧
      (h.count.val = 15 → t.hash (ctxOf s) =
        { h with buf := buf, count := 0, large := true, total := h.total + 1, pos := h.pos + 1,
                 v1 := roundOf h.v1 (leWord buf[0] buf[1] buf[2] buf[3]),
                 v2 := roundOf h.v2 (leWord buf[4] buf[5] buf[6] buf[7]),
                 v3 := roundOf h.v3 (leWord buf[8] buf[9] buf[10] buf[11]),
                 v4 := roundOf h.v4 (leWord buf[12] buf[13] buf[14] buf[15]) }) ∧
      (∀ c, c ≠ ctxOf s → t.hash c = s.hash c) ∧
      t = { s with h0 := t.h0, h1 := t.h1, status := if h.pos + 1 = h.len then doneStatus s else s.status }

/-! ### A step -/

/-- R104, R150, R180, R330: what runs is the decoded instruction. An engine turn at a one-byte element runs the element its byte decodes
to, a fused turn the whole element the rest of the input begins with, a write to CMD the command its word decodes to; beside that a
step only takes the event off the schedule. Every other step is the first event as well: any host action but WAIT, any engine turn,
a fused turn where no whole element is there, and with no event left an engine turn (log entries 4 and 7). For WAIT see
`IdleMachineWaits`. -/
def Obligations.StepRunsTheDecodedInstruction : Prop :=
  (∀ (s : State) (st : EngState) (slot : Slot) (i : Instr) (left : List Byte),
    (st, slot) ∈ [(EngState.token, Slot.token), (.lext, .lext), (.lit, .literal), (.mext, .mext)] →
    s.status.busy = true → s.status.state = st → (s.inPos ≠ s.inLen ∨ st = .lit) →
    s.inBase.toNat + s.inPos.toNat < s.params.ibufSize →
    decode slot [s.byteAt .ibuf (s.inBase.toNat + s.inPos.toNat)] = .ok (i, left) →
    (s.schedule = [] → step s = exec i s) ∧
    (∀ rest, s.schedule = .engine :: rest → step s = exec i { s with schedule := rest })) ∧
  (∀ (s : State) (st : EngState) (slot : Slot) (i : Instr) (left : List Byte) (rest : List Event),
    (st, slot) ∈ [(EngState.token, Slot.sequence), (.off0, .offset)] →
    s.status.busy = true → s.status.state = st → s.inBase.toNat + s.inLen.toNat ≤ s.params.ibufSize →
    s.schedule = .fused :: rest →
    decode slot (s.bytesAt .ibuf (s.inBase.toNat + s.inPos.toNat) (s.inLen.toNat - s.inPos.toNat)) = .ok (i, left) →
    step s = exec i { s with schedule := rest }) ∧
  (∀ (s : State) (v : Word) (i : Instr) (rest : List Event),
    s.schedule = .host (.regWrite 0x08 4 v) :: rest → Decode.command v = .ok i →
    step s = exec i { s with schedule := rest }) ∧
  (∀ (s : State) (a : HostAction) (rest : List Event), a ≠ .wait → s.schedule = .host a :: rest →
    step s = hostAct a { s with schedule := rest }) ∧
  (∀ (s : State) (rest : List Event), s.schedule = .engine :: rest →
    step s = engineStep { s with schedule := rest }) ∧
  (∀ s : State, s.schedule = [] → step s = engineStep s) ∧
  (∀ (s : State) (rest : List Event), s.status.state ≠ .token → s.status.state ≠ .off0 →
    s.schedule = .fused :: rest → step s = engineStep { s with schedule := rest }) ∧
  (∀ (s : State) (st : EngState) (slot : Slot) (e : DecodeError) (rest : List Event),
    (st, slot) ∈ [(EngState.token, Slot.sequence), (.off0, .offset)] → s.status.state = st →
    s.schedule = .fused :: rest →
    (s.params.ibufSize < s.inBase.toNat + s.inLen.toNat ∨
      decode slot (s.bytesAt .ibuf (s.inBase.toNat + s.inPos.toNat) (s.inLen.toNat - s.inPos.toNat)) = .error e) →
    step s = engineStep { s with schedule := rest })

/-- R138, R306, R322: an idle machine with nothing scheduled stays as it is, an engine turn of an idle machine passes, and WAIT
lets a busy engine step and ends at BUSY = 0 (log entries 4 and 6). -/
def Obligations.IdleMachineWaits : Prop :=
  ∀ (s : State) (rest : List Event),
    (s.status.busy = false → s.schedule = [] → step s = .next s) ∧
    (s.status.busy = false → ∀ e ∈ [Event.engine, .fused, .host .wait], s.schedule = e :: rest →
      step s = .next { s with schedule := rest }) ∧
    (s.status.busy = true → s.schedule = .host .wait :: rest → step s = engineStep s)

/-! ### Encoding -/

/-- Words written out from R121, R125, R133, R136, one for each family. -/
def Obligations.WrittenOutWordsDecode : Prop :=
  decode .command [0x00, 0x00, 0x00, 0x00] = .ok (.ack, []) ∧
  decode .command [0x12, 0x01, 0x00, 0x00] = .ok (.hashDigest, []) ∧
  decode .command [0x03, 0x00, 0x00, 0x00] = .error (.reservedOpcode 0x03) ∧
  decode .token [0xF3] = .ok (.token 0b11110011, []) ∧
  decode .offset [0x02, 0x01] = .ok (.offset 0x0102, []) ∧
  decode .sequence [0x23, 0x61, 0x62, 0x02, 0x00] = .ok (.seq [0x61, 0x62] 2 3, []) ∧
  decode .sequence [0x1F, 0x78, 0x01, 0x00, 0xFF, 0x01, 0x00] = .ok (.seq [0x78] 1 271, [0x00]) ∧
  decode .sequence [0x13, 0x7A] = .ok (.last [0x7A] 3, [])

/-- R120 to R136: decoding what an instruction encodes gives it back, with whatever follows it. A LAST has nothing after it in
its block (R129). -/
def Obligations.DecodeInvertsEncode : Prop :=
  ∀ (i : Instr) (rest : List Byte), ((∀ lits ml, i ≠ .last lits ml) ∨ rest = []) →
    decode i.slot (encode i ++ rest) = .ok (i, rest)

/-- R130: each length has one encoding, so encoding a decoded element again gives the same bytes. -/
def Obligations.EncodeInvertsDecodeInABlock : Prop :=
  ∀ (slot : Slot) (bytes rest : List Byte) (i : Instr), slot ≠ .command → decode slot bytes = .ok (i, rest) →
    encode i ++ rest = bytes ∧ i.slot = slot

/-- R120, R128, R135: a block of non-last sequences and one last sequence disassembles to its lines. -/
def Obligations.BlockDisassemblyInvertsAssembly : Prop :=
  ∀ (is : List Instr) (lits : List Byte) (ml : BitVec 4), (∀ i ∈ is, ∃ l o m, i = .seq l o m) →
    decodeBlock (encodeBlock (is ++ [.last lits ml])) = .ok (is ++ [.last lits ml])

/-! ### The whole machine -/

/-- The invariant holds at power-on for every admitted pair of sizes. -/
def Obligations.PowerOnMeetsTheInvariant : Prop := ∀ p : Params, p.valid → (State.powerOn p).Inv

/-- Every step, of the host or the engine, keeps the invariant (R36 to R42, R49, R50, R105, R196). -/
def Obligations.StepKeepsTheInvariant : Prop :=
  ∀ s t : State, s.Inv → step s = .next t → t.Inv

/-- R105, R180 (a step never waits, every access is in range): from a state that meets the invariant a step always answers a next
state. -/
def Obligations.StepNeverFaultsUnderTheInvariant : Prop := ∀ s : State, s.Inv → ∃ t, step s = .next t

/-- R69: a step never removes a member of HOSTFAULT; and the sizes never change (R5). -/
def Obligations.HostFaultOnlyGrows : Prop :=
  ∀ s t : State, step s = .next t →
    (s.hostFault.hazard = true → t.hostFault.hazard = true) ∧
    (s.hostFault.badAccess = true → t.hostFault.badAccess = true) ∧
    (s.hostFault.badAddr = true → t.hostFault.badAddr = true) ∧ t.params = s.params

/-- R66, R90, R33: an engine turn, fused or not, writes no IBUF byte, no configuration register, no CTRL field and no host mark. -/
def Obligations.EngineTurnLeavesConfigurationAndInput : Prop :=
  ∀ s t : State, engineTurnNext s → step s = .next t →
    t.ibuf = s.ibuf ∧ t.ctrl = s.ctrl ∧ t.hostFault = s.hostFault ∧ t.reads = s.reads ∧ t.params = s.params ∧
    (∀ r ∈ configRegs, t.readReg r = s.readReg r) ∧ t.winEff = s.winEff ∧ t.status.rej = s.status.rej ∧
    t.status.lastCmd = s.status.lastCmd

/-- R105, R196: an engine turn changes no OBUF byte below the output so far nor any at or beyond `OUT_BASE + MAX_SIZE`. -/
def Obligations.EngineWritesOnlyTheOutputRange : Prop :=
  ∀ s t : State, s.Inv → engineTurnNext s → step s = .next t →
    ∀ a, (a < s.outBase.toNat + s.outLen.toNat ∨ s.outBase.toNat + s.maxSize.toNat ≤ a) →
      t.byteAt .obuf a = s.byteAt .obuf a

/-- R33, R66: the configuration of a running command cannot change under it, whatever the host does. -/
def Obligations.RunningCommandKeepsItsConfiguration : Prop :=
  ∀ s t : State, s.status.busy = true → step s = .next t → t.status.busy = true →
    t.ctrl.linked = s.ctrl.linked ∧ t.ctrl.hsrc = s.ctrl.hsrc ∧ t.ctrl.hctx = s.ctrl.hctx ∧
    (∀ r ∈ configRegs, t.readReg r = s.readReg r) ∧ t.winEff = s.winEff ∧
    t.status.lastCmd = s.status.lastCmd

/-- R151, R154: of all host actions only SOFT_RESET ends a running command. -/
def Obligations.OnlySoftResetEndsARunningCommand : Prop :=
  ∀ (s t : State) (a : HostAction) (rest : List Event), s.status.busy = true → a ≠ .wait →
    s.schedule = .host a :: rest → step s = .next t → t.status.busy = false →
    ∃ v, a = .regWrite 0x08 4 v ∧ v.extractLsb' 0 8 = 0xFF#8

/-- R39: REJ is sticky; only ACK and SOFT_RESET clear it. -/
def Obligations.OnlyAckAndSoftResetClearRej : Prop :=
  ∀ s t : State, s.status.rej = true → step s = .next t → t.status.rej = false →
    ∃ v rest, s.schedule = .host (.regWrite 0x08 4 v) :: rest ∧
      (v.extractLsb' 0 8 = 0x00#8 ∨ v.extractLsb' 0 8 = 0xFF#8)

/-- R55, R60: no instruction but SOFT_RESET touches the context HCTX does not select, and none but HASH_DIGEST and SOFT_RESET writes a
digest register. -/
def Obligations.HashContextsAreIndependent : Prop :=
  ∀ (i : Instr) (s t : State), i ≠ .softReset → exec i s = .next t →
    (∀ c, c ≠ ctxOf s → t.hash c = s.hash c) ∧
    (i ≠ .hashDigest → ∀ c, (t.hash c).digest = (s.hash c).digest)

/-- R49, R72, R199: an engine step moves IN_POS by 0 or 1, and by 1 only in a state that consumes an input byte. -/
def Obligations.InputCursorAdvancesByAtMostOne : Prop :=
  ∀ s t : State, engineStep s = .next t →
    t.inPos = s.inPos ∨ (t.inPos = s.inPos + 1 ∧
      s.status.state ∈ [EngState.token, .lext, .lit, .off0, .off1, .mext, .raw])

/-- R290, R291, R294: an engine step that raises an error writes no buffer byte and no progress register but MCHK's completed count,
records the state it was found in, and a code that state can raise. -/
def Obligations.ErrorsArePrecise : Prop :=
  ∀ s t : State, s.status.err = false → engineStep s = .next t → t.status.err = true →
    t = { s with dCount := t.dCount, status := errorStatus s t.status.errCode } ∧
    (s.status.state ≠ .mchk → t.dCount = s.dCount) ∧
    (s.status.state, t.status.errCode) ∈
      [(EngState.token, ErrCode.truncated), (.lext, .truncated), (.litchk, .truncated), (.litchk, .outputLimit),
       (.off1, .truncated), (.mext, .truncated), (.mchk, .offsetZero), (.mchk, .offsetRange), (.mchk, .outputLimit),
       (.raw, .outputLimit)]

/-- R330: a fused turn is some number of plain engine steps, so the host cannot tell it from them by where it ends (log entry 7). -/
def Obligations.FusedTurnIsSomePlainSteps : Prop :=
  ∀ s t : State, s.Inv → s.status.busy = true → s.schedule = [] → fusedStep s = .next t →
    ∃ n, 1 ≤ n ∧ runSteps n s = .next t

/-- R105, R108, R194: a running decode or raw copy depends on no IBUF byte outside its payload and no OBUF byte outside its window
and its own output; so a byte the host never wrote there never shows. -/
def Obligations.DecodingDependsOnlyOnPayloadAndWindow : Prop :=
  ∀ s s' : State, s.Inv → s'.Inv → s.status.busy = true → s.status.state ≠ .habs → s.SameView s' →
    ∃ t t', engineStep s = .next t ∧ engineStep s' = .next t' ∧ t.SameView t'

/-! ### Whole commands -/

/-- R156, R190, R197: a RAW_COPY that fits runs `max(1, IN_LEN)` engine steps and ends with the payload copied. -/
def Obligations.RawCopyRunCopiesThePayload : Prop :=
  ∀ s : State, s.params.valid → s.status.busy = false → s.schedule = [] → s.cfgRaw →
    s.inLen.toNat ≤ s.maxSize.toNat →
    ∃ s1 t, exec .rawCopy s = .next s1 ∧ runSteps (max 1 s.inLen.toNat) s1 = .next t ∧
      (∀ k, k < s.inLen.toNat → t.byteAt .obuf (s.outBase.toNat + k) = s.byteAt .ibuf (s.inBase.toNat + k)) ∧
      (∀ a, a < s.outBase.toNat ∨ s.outBase.toNat + s.inLen.toNat ≤ a → t.byteAt .obuf a = s.byteAt .obuf a) ∧
      t = { s with obuf := t.obuf, inPos := s.inLen, outLen := s.inLen, dToken := 0, dCount := 0, dOffset := 0,
                   winEff := 0, status := endedStatus s 0x02 }

/-- R158, R197, R223: a HASH_UPDATE of `H_LEN > 0` bytes runs `H_LEN` engine steps and ends with each byte absorbed in order, the other
context and the buffers untouched. -/
def Obligations.HashUpdateRunAbsorbsEveryByte : Prop :=
  ∀ s : State, s.params.valid → s.status.busy = false → s.schedule = [] → s.cfgHash → (s.hash (ctxOf s)).len ≠ 0 →
    let h := s.hash (ctxOf s)
    let data := s.bytesAt (if s.ctrl.hsrc then .obuf else .ibuf) h.addr.toNat h.len.toNat
    ∃ s1 t, exec .hashUpdate s = .next s1 ∧ runSteps h.len.toNat s1 = .next t ∧
      t.hash (ctxOf s) = { h.absorbAll data with pos := h.len } ∧ (∀ c, c ≠ ctxOf s → t.hash c = s.hash c) ∧
      t = { s with h0 := t.h0, h1 := t.h1, status := endedStatus s 0x11 }

/-- R227, R228: absorbing a string byte by byte from HASH_INIT and taking the digest gives XXH32 of the string in closed form,
whatever the context held before. -/
def Obligations.StreamedHashIsXxh32 : Prop :=
  ∀ (h : HashCtx) (seed : Word) (data : List Byte), ((h.init seed).absorbAll data).digestValue = xxh32 data seed

/-- R192, R193, R197: a whole DEC_START agrees with the function Decode, in the result, the output and the point of failure, within
`3*IN_LEN + MAX_SIZE + 1` engine steps. -/
def Obligations.DecStartRunAgreesWithDecode : Prop :=
  ∀ s : State, s.params.valid → s.status.busy = false → s.schedule = [] → s.cfgDec →
    let inp := s.bytesAt .ibuf s.inBase.toNat s.inLen.toNat
    let win := if s.ctrl.linked then s.bytesAt .obuf (s.outBase.toNat - s.winLen.toNat) s.winLen.toNat else []
    ∃ s1 t n, exec .decStart s = .next s1 ∧ n ≤ 3 * s.inLen.toNat + s.maxSize.toNat + 1 ∧
      runSteps n s1 = .next t ∧ t.status.busy = false ∧
      (∀ a, a < s.outBase.toNat ∨ s.outBase.toNat + t.outLen.toNat ≤ a → t.byteAt .obuf a = s.byteAt .obuf a) ∧
      match decodeClosed inp win s.maxSize.toNat with
      | .ok out =>
        t.status = endedStatus s 0x01 ∧ t.inPos = s.inLen ∧ t.outLen.toNat = out.length ∧
        t.bytesAt .obuf s.outBase.toNat out.length = out
      | .err code st p out =>
        t.status.err = true ∧ t.status.done = false ∧ t.status.errCode = code ∧ t.status.errState = st ∧
        t.inPos.toNat = p ∧ t.outLen.toNat = out.length ∧ t.bytesAt .obuf s.outBase.toNat out.length = out

/-- R197, R330: with the host quiet, every running command ends (log entry 4). -/
def Obligations.EveryRunningCommandEnds : Prop :=
  ∀ s : State, s.Inv → s.schedule = [] → ∃ n t, runSteps n s = .next t ∧ t.status.busy = false

/-! ### The frame host -/

/-- R251, R253, R268 to R270: the first three checks of FRAME_DECODE, in their order. No command is issued but the ACK of a rejection that
finds ERR already there (log entry 15). For a frame longer than IBUF the bytes beyond it are the model's choice (log entry 19). -/
def Obligations.FrameHeaderChecksComeInOrder : Prop :=
  ∀ (s : State) (n : Nat),
    let f := s.bytesAt .ibuf 0 n
    (n < 4 → frameDecode n s = .rejected .unexpectedEndOfStream .expectMagic (acknowledged s)) ∧
    (4 ≤ n → f.take 4 ≠ [0x04, 0x22, 0x4D, 0x18] →
      frameDecode n s = .rejected .badMagic .expectMagic (acknowledged s)) ∧
    (n = 4 → f.take 4 = [0x04, 0x22, 0x4D, 0x18] →
      frameDecode n s = .rejected .unexpectedEndOfStream .expectDescriptor (acknowledged s)) ∧
    (5 ≤ n → f.take 4 = [0x04, 0x22, 0x4D, 0x18] → (s.byteAt .ibuf 4).toNat / 64 ≠ 1 →
      frameDecode n s = .rejected .unsupportedVersion .expectDescriptor (acknowledged s))

/-- R270: whatever a frame is rejected for, and wherever, the machine is left with no error recorded; from a state that meets the
invariant, whether or not an error was recorded before (log entry 15), and for a frame longer than IBUF too, the model's choice (log entry 19). -/
def Obligations.RejectedFrameLeavesNoErrorRecorded : Prop :=
  ∀ (s t : State) (n : Nat) (reason : FrameError) (st : FrameState),
    s.Inv → frameDecode n s = .rejected reason st t → t.status.err = false

/-! ### Engine turns at an offset, and at the end of the input -/

/-- R181, R182, R185 to R187: the engine steps OFF0 and OFF1 with the byte at `IN_BASE + IN_POS`, and every element step when no input byte is
left: TRUNCATED with its own state as ERRSTATE, but DONE at OFF0. That the byte lies in IBUF holds under the invariant; for a byte that
does not exist the model stops (log entry 9). -/
def Obligations.OffsetStepsAndInputEndOfTheEngine : Prop :=
  ∀ s : State, s.status.busy = true →
    let addr := s.inBase.toNat + s.inPos.toNat
    let b := s.byteAt .ibuf addr
    (s.status.state = .off0 → s.inPos ≠ s.inLen → addr < s.params.ibufSize → engineStep s = .next { s with
      inPos := s.inPos + 1, dOffset := BitVec.ofNat 16 b.toNat, status := { s.status with state := .off1 } }) ∧
    (s.status.state = .off1 → s.inPos ≠ s.inLen → addr < s.params.ibufSize → engineStep s = .next { s with
      inPos := s.inPos + 1, dOffset := s.dOffset ||| b.zeroExtend 16 <<< 8,
      dCount := BitVec.ofNat 32 (s.dToken.toNat % 16),
      status := { s.status with state := if s.dToken.toNat % 16 = 15 then .mext else .mchk } }) ∧
    (s.status.state ∈ [EngState.token, .lext, .off1, .mext] → s.inPos = s.inLen →
      engineStep s = .next { s with status := errorStatus s .truncated }) ∧
    (s.status.state = .off0 → s.inPos = s.inLen → engineStep s = .next { s with status := doneStatus s }) ∧
    (s.status.state ∈ [EngState.token, .lext, .off0, .off1, .mext] → s.inPos ≠ s.inLen → s.params.ibufSize ≤ addr →
      engineStep s = .fault (.engineAddress .ibuf addr))
end

