-- ==== Sys2Proof/Laws/State.lean ====
section
/-!
SUPPORT. One lemma for each field and each update of State, true by definition, so that no proof unfolds a record update.
-/

namespace Sys2Proof.Machine

/-! ### enter -/

@[simp] theorem enter_params (s : State) (st : EngState) : (s.enter st).params = s.params := rfl
@[simp] theorem enter_ctrl (s : State) (st : EngState) : (s.enter st).ctrl = s.ctrl := rfl
@[simp] theorem enter_status_busy (s : State) (st : EngState) : (s.enter st).status.busy = s.status.busy := rfl
@[simp] theorem enter_status_done (s : State) (st : EngState) : (s.enter st).status.done = s.status.done := rfl
@[simp] theorem enter_status_err (s : State) (st : EngState) : (s.enter st).status.err = s.status.err := rfl
@[simp] theorem enter_status_rej (s : State) (st : EngState) : (s.enter st).status.rej = s.status.rej := rfl
@[simp] theorem enter_status_errCode (s : State) (st : EngState) : (s.enter st).status.errCode = s.status.errCode := rfl
@[simp] theorem enter_status_state (s : State) (st : EngState) : (s.enter st).status.state = st := rfl
@[simp] theorem enter_status_errState (s : State) (st : EngState) : (s.enter st).status.errState = s.status.errState := rfl
@[simp] theorem enter_status_lastCmd (s : State) (st : EngState) : (s.enter st).status.lastCmd = s.status.lastCmd := rfl
@[simp] theorem enter_inBase (s : State) (st : EngState) : (s.enter st).inBase = s.inBase := rfl
@[simp] theorem enter_inLen (s : State) (st : EngState) : (s.enter st).inLen = s.inLen := rfl
@[simp] theorem enter_outBase (s : State) (st : EngState) : (s.enter st).outBase = s.outBase := rfl
@[simp] theorem enter_maxSize (s : State) (st : EngState) : (s.enter st).maxSize = s.maxSize := rfl
@[simp] theorem enter_winLen (s : State) (st : EngState) : (s.enter st).winLen = s.winLen := rfl
@[simp] theorem enter_inPos (s : State) (st : EngState) : (s.enter st).inPos = s.inPos := rfl
@[simp] theorem enter_outLen (s : State) (st : EngState) : (s.enter st).outLen = s.outLen := rfl
@[simp] theorem enter_dToken (s : State) (st : EngState) : (s.enter st).dToken = s.dToken := rfl
@[simp] theorem enter_dCount (s : State) (st : EngState) : (s.enter st).dCount = s.dCount := rfl
@[simp] theorem enter_dOffset (s : State) (st : EngState) : (s.enter st).dOffset = s.dOffset := rfl
@[simp] theorem enter_winEff (s : State) (st : EngState) : (s.enter st).winEff = s.winEff := rfl
@[simp] theorem enter_h0 (s : State) (st : EngState) : (s.enter st).h0 = s.h0 := rfl
@[simp] theorem enter_h1 (s : State) (st : EngState) : (s.enter st).h1 = s.h1 := rfl
@[simp] theorem enter_ibuf (s : State) (st : EngState) : (s.enter st).ibuf = s.ibuf := rfl
@[simp] theorem enter_obuf (s : State) (st : EngState) : (s.enter st).obuf = s.obuf := rfl
@[simp] theorem enter_hostFault (s : State) (st : EngState) : (s.enter st).hostFault = s.hostFault := rfl
@[simp] theorem enter_schedule (s : State) (st : EngState) : (s.enter st).schedule = s.schedule := rfl
@[simp] theorem enter_reads (s : State) (st : EngState) : (s.enter st).reads = s.reads := rfl
@[simp] theorem enter_spaceSize (s : State) (st : EngState) (sp : Space) : (s.enter st).spaceSize sp = s.spaceSize sp := rfl
@[simp] theorem enter_byteAt (s : State) (st : EngState) (sp : Space) (a : Nat) : (s.enter st).byteAt sp a = s.byteAt sp a := rfl
@[simp] theorem enter_hash (s : State) (st : EngState) (c : Ctx) : (s.enter st).hash c = s.hash c := rfl
@[simp] theorem enter_activeCtx (s : State) (st : EngState) : (s.enter st).activeCtx = s.activeCtx := rfl
@[simp] theorem enter_inAddr (s : State) (st : EngState) : (s.enter st).inAddr = s.inAddr := rfl
@[simp] theorem enter_outAddr (s : State) (st : EngState) : (s.enter st).outAddr = s.outAddr := rfl

/-! ### reject -/

@[simp] theorem reject_params (s : State) : (reject s).params = s.params := rfl
@[simp] theorem reject_ctrl (s : State) : (reject s).ctrl = s.ctrl := rfl
@[simp] theorem reject_status_busy (s : State) : (reject s).status.busy = s.status.busy := rfl
@[simp] theorem reject_status_done (s : State) : (reject s).status.done = s.status.done := rfl
@[simp] theorem reject_status_err (s : State) : (reject s).status.err = s.status.err := rfl
@[simp] theorem reject_status_rej (s : State) : (reject s).status.rej = true := rfl
@[simp] theorem reject_status_errCode (s : State) : (reject s).status.errCode = s.status.errCode := rfl
@[simp] theorem reject_status_state (s : State) : (reject s).status.state = s.status.state := rfl
@[simp] theorem reject_status_errState (s : State) : (reject s).status.errState = s.status.errState := rfl
@[simp] theorem reject_status_lastCmd (s : State) : (reject s).status.lastCmd = s.status.lastCmd := rfl
@[simp] theorem reject_inBase (s : State) : (reject s).inBase = s.inBase := rfl
@[simp] theorem reject_inLen (s : State) : (reject s).inLen = s.inLen := rfl
@[simp] theorem reject_outBase (s : State) : (reject s).outBase = s.outBase := rfl
@[simp] theorem reject_maxSize (s : State) : (reject s).maxSize = s.maxSize := rfl
@[simp] theorem reject_winLen (s : State) : (reject s).winLen = s.winLen := rfl
@[simp] theorem reject_inPos (s : State) : (reject s).inPos = s.inPos := rfl
@[simp] theorem reject_outLen (s : State) : (reject s).outLen = s.outLen := rfl
@[simp] theorem reject_dToken (s : State) : (reject s).dToken = s.dToken := rfl
@[simp] theorem reject_dCount (s : State) : (reject s).dCount = s.dCount := rfl
@[simp] theorem reject_dOffset (s : State) : (reject s).dOffset = s.dOffset := rfl
@[simp] theorem reject_winEff (s : State) : (reject s).winEff = s.winEff := rfl
@[simp] theorem reject_h0 (s : State) : (reject s).h0 = s.h0 := rfl
@[simp] theorem reject_h1 (s : State) : (reject s).h1 = s.h1 := rfl
@[simp] theorem reject_ibuf (s : State) : (reject s).ibuf = s.ibuf := rfl
@[simp] theorem reject_obuf (s : State) : (reject s).obuf = s.obuf := rfl
@[simp] theorem reject_hostFault (s : State) : (reject s).hostFault = s.hostFault := rfl
@[simp] theorem reject_schedule (s : State) : (reject s).schedule = s.schedule := rfl
@[simp] theorem reject_reads (s : State) : (reject s).reads = s.reads := rfl
@[simp] theorem reject_spaceSize (s : State) (sp : Space) : (reject s).spaceSize sp = s.spaceSize sp := rfl
@[simp] theorem reject_byteAt (s : State) (sp : Space) (a : Nat) : (reject s).byteAt sp a = s.byteAt sp a := rfl
@[simp] theorem reject_hash (s : State) (c : Ctx) : (reject s).hash c = s.hash c := rfl
@[simp] theorem reject_activeCtx (s : State) : (reject s).activeCtx = s.activeCtx := rfl
@[simp] theorem reject_inAddr (s : State) : (reject s).inAddr = s.inAddr := rfl
@[simp] theorem reject_outAddr (s : State) : (reject s).outAddr = s.outAddr := rfl

/-! ### prologue -/

@[simp] theorem prologue_params (op : BitVec 8) (s : State) : (prologue op s).params = s.params := rfl
@[simp] theorem prologue_ctrl (op : BitVec 8) (s : State) : (prologue op s).ctrl = s.ctrl := rfl
@[simp] theorem prologue_status_busy (op : BitVec 8) (s : State) : (prologue op s).status.busy = s.status.busy := rfl
@[simp] theorem prologue_status_done (op : BitVec 8) (s : State) : (prologue op s).status.done = false := rfl
@[simp] theorem prologue_status_err (op : BitVec 8) (s : State) : (prologue op s).status.err = false := rfl
@[simp] theorem prologue_status_rej (op : BitVec 8) (s : State) : (prologue op s).status.rej = s.status.rej := rfl
@[simp] theorem prologue_status_errCode (op : BitVec 8) (s : State) : (prologue op s).status.errCode = .noError := rfl
@[simp] theorem prologue_status_state (op : BitVec 8) (s : State) : (prologue op s).status.state = s.status.state := rfl
@[simp] theorem prologue_status_errState (op : BitVec 8) (s : State) : (prologue op s).status.errState = .idle := rfl
@[simp] theorem prologue_status_lastCmd (op : BitVec 8) (s : State) : (prologue op s).status.lastCmd = op := rfl
@[simp] theorem prologue_inBase (op : BitVec 8) (s : State) : (prologue op s).inBase = s.inBase := rfl
@[simp] theorem prologue_inLen (op : BitVec 8) (s : State) : (prologue op s).inLen = s.inLen := rfl
@[simp] theorem prologue_outBase (op : BitVec 8) (s : State) : (prologue op s).outBase = s.outBase := rfl
@[simp] theorem prologue_maxSize (op : BitVec 8) (s : State) : (prologue op s).maxSize = s.maxSize := rfl
@[simp] theorem prologue_winLen (op : BitVec 8) (s : State) : (prologue op s).winLen = s.winLen := rfl
@[simp] theorem prologue_inPos (op : BitVec 8) (s : State) : (prologue op s).inPos = s.inPos := rfl
@[simp] theorem prologue_outLen (op : BitVec 8) (s : State) : (prologue op s).outLen = s.outLen := rfl
@[simp] theorem prologue_dToken (op : BitVec 8) (s : State) : (prologue op s).dToken = s.dToken := rfl
@[simp] theorem prologue_dCount (op : BitVec 8) (s : State) : (prologue op s).dCount = s.dCount := rfl
@[simp] theorem prologue_dOffset (op : BitVec 8) (s : State) : (prologue op s).dOffset = s.dOffset := rfl
@[simp] theorem prologue_winEff (op : BitVec 8) (s : State) : (prologue op s).winEff = s.winEff := rfl
@[simp] theorem prologue_h0 (op : BitVec 8) (s : State) : (prologue op s).h0 = s.h0 := rfl
@[simp] theorem prologue_h1 (op : BitVec 8) (s : State) : (prologue op s).h1 = s.h1 := rfl
@[simp] theorem prologue_ibuf (op : BitVec 8) (s : State) : (prologue op s).ibuf = s.ibuf := rfl
@[simp] theorem prologue_obuf (op : BitVec 8) (s : State) : (prologue op s).obuf = s.obuf := rfl
@[simp] theorem prologue_hostFault (op : BitVec 8) (s : State) : (prologue op s).hostFault = s.hostFault := rfl
@[simp] theorem prologue_schedule (op : BitVec 8) (s : State) : (prologue op s).schedule = s.schedule := rfl
@[simp] theorem prologue_reads (op : BitVec 8) (s : State) : (prologue op s).reads = s.reads := rfl
@[simp] theorem prologue_spaceSize (op : BitVec 8) (s : State) (sp : Space) : (prologue op s).spaceSize sp = s.spaceSize sp := rfl
@[simp] theorem prologue_byteAt (op : BitVec 8) (s : State) (sp : Space) (a : Nat) : (prologue op s).byteAt sp a = s.byteAt sp a := rfl
@[simp] theorem prologue_hash (op : BitVec 8) (s : State) (c : Ctx) : (prologue op s).hash c = s.hash c := rfl
@[simp] theorem prologue_activeCtx (op : BitVec 8) (s : State) : (prologue op s).activeCtx = s.activeCtx := rfl
@[simp] theorem prologue_inAddr (op : BitVec 8) (s : State) : (prologue op s).inAddr = s.inAddr := rfl
@[simp] theorem prologue_outAddr (op : BitVec 8) (s : State) : (prologue op s).outAddr = s.outAddr := rfl

/-! ### raiseError -/

@[simp] theorem raiseError_params (code : ErrCode) (s : State) : (raiseError code s).params = s.params := rfl
@[simp] theorem raiseError_ctrl (code : ErrCode) (s : State) : (raiseError code s).ctrl = s.ctrl := rfl
@[simp] theorem raiseError_status_busy (code : ErrCode) (s : State) : (raiseError code s).status.busy = false := rfl
@[simp] theorem raiseError_status_done (code : ErrCode) (s : State) : (raiseError code s).status.done = s.status.done := rfl
@[simp] theorem raiseError_status_err (code : ErrCode) (s : State) : (raiseError code s).status.err = true := rfl
@[simp] theorem raiseError_status_rej (code : ErrCode) (s : State) : (raiseError code s).status.rej = s.status.rej := rfl
@[simp] theorem raiseError_status_errCode (code : ErrCode) (s : State) : (raiseError code s).status.errCode = code := rfl
@[simp] theorem raiseError_status_state (code : ErrCode) (s : State) : (raiseError code s).status.state = .idle := rfl
@[simp] theorem raiseError_status_errState (code : ErrCode) (s : State) : (raiseError code s).status.errState = if code = .config then .idle else s.status.state := rfl
@[simp] theorem raiseError_status_lastCmd (code : ErrCode) (s : State) : (raiseError code s).status.lastCmd = s.status.lastCmd := rfl
@[simp] theorem raiseError_inBase (code : ErrCode) (s : State) : (raiseError code s).inBase = s.inBase := rfl
@[simp] theorem raiseError_inLen (code : ErrCode) (s : State) : (raiseError code s).inLen = s.inLen := rfl
@[simp] theorem raiseError_outBase (code : ErrCode) (s : State) : (raiseError code s).outBase = s.outBase := rfl
@[simp] theorem raiseError_maxSize (code : ErrCode) (s : State) : (raiseError code s).maxSize = s.maxSize := rfl
@[simp] theorem raiseError_winLen (code : ErrCode) (s : State) : (raiseError code s).winLen = s.winLen := rfl
@[simp] theorem raiseError_inPos (code : ErrCode) (s : State) : (raiseError code s).inPos = s.inPos := rfl
@[simp] theorem raiseError_outLen (code : ErrCode) (s : State) : (raiseError code s).outLen = s.outLen := rfl
@[simp] theorem raiseError_dToken (code : ErrCode) (s : State) : (raiseError code s).dToken = s.dToken := rfl
@[simp] theorem raiseError_dCount (code : ErrCode) (s : State) : (raiseError code s).dCount = s.dCount := rfl
@[simp] theorem raiseError_dOffset (code : ErrCode) (s : State) : (raiseError code s).dOffset = s.dOffset := rfl
@[simp] theorem raiseError_winEff (code : ErrCode) (s : State) : (raiseError code s).winEff = s.winEff := rfl
@[simp] theorem raiseError_h0 (code : ErrCode) (s : State) : (raiseError code s).h0 = s.h0 := rfl
@[simp] theorem raiseError_h1 (code : ErrCode) (s : State) : (raiseError code s).h1 = s.h1 := rfl
@[simp] theorem raiseError_ibuf (code : ErrCode) (s : State) : (raiseError code s).ibuf = s.ibuf := rfl
@[simp] theorem raiseError_obuf (code : ErrCode) (s : State) : (raiseError code s).obuf = s.obuf := rfl
@[simp] theorem raiseError_hostFault (code : ErrCode) (s : State) : (raiseError code s).hostFault = s.hostFault := rfl
@[simp] theorem raiseError_schedule (code : ErrCode) (s : State) : (raiseError code s).schedule = s.schedule := rfl
@[simp] theorem raiseError_reads (code : ErrCode) (s : State) : (raiseError code s).reads = s.reads := rfl
@[simp] theorem raiseError_spaceSize (code : ErrCode) (s : State) (sp : Space) : (raiseError code s).spaceSize sp = s.spaceSize sp := rfl
@[simp] theorem raiseError_byteAt (code : ErrCode) (s : State) (sp : Space) (a : Nat) : (raiseError code s).byteAt sp a = s.byteAt sp a := rfl
@[simp] theorem raiseError_hash (code : ErrCode) (s : State) (c : Ctx) : (raiseError code s).hash c = s.hash c := rfl
@[simp] theorem raiseError_activeCtx (code : ErrCode) (s : State) : (raiseError code s).activeCtx = s.activeCtx := rfl
@[simp] theorem raiseError_inAddr (code : ErrCode) (s : State) : (raiseError code s).inAddr = s.inAddr := rfl
@[simp] theorem raiseError_outAddr (code : ErrCode) (s : State) : (raiseError code s).outAddr = s.outAddr := rfl

/-! ### clearReject -/

@[simp] theorem clearReject_params (s : State) : (clearReject s).params = s.params := rfl
@[simp] theorem clearReject_ctrl (s : State) : (clearReject s).ctrl = s.ctrl := rfl
@[simp] theorem clearReject_status_busy (s : State) : (clearReject s).status.busy = s.status.busy := rfl
@[simp] theorem clearReject_status_done (s : State) : (clearReject s).status.done = s.status.done := rfl
@[simp] theorem clearReject_status_err (s : State) : (clearReject s).status.err = s.status.err := rfl
@[simp] theorem clearReject_status_rej (s : State) : (clearReject s).status.rej = false := rfl
@[simp] theorem clearReject_status_errCode (s : State) : (clearReject s).status.errCode = s.status.errCode := rfl
@[simp] theorem clearReject_status_state (s : State) : (clearReject s).status.state = s.status.state := rfl
@[simp] theorem clearReject_status_errState (s : State) : (clearReject s).status.errState = s.status.errState := rfl
@[simp] theorem clearReject_status_lastCmd (s : State) : (clearReject s).status.lastCmd = s.status.lastCmd := rfl
@[simp] theorem clearReject_inBase (s : State) : (clearReject s).inBase = s.inBase := rfl
@[simp] theorem clearReject_inLen (s : State) : (clearReject s).inLen = s.inLen := rfl
@[simp] theorem clearReject_outBase (s : State) : (clearReject s).outBase = s.outBase := rfl
@[simp] theorem clearReject_maxSize (s : State) : (clearReject s).maxSize = s.maxSize := rfl
@[simp] theorem clearReject_winLen (s : State) : (clearReject s).winLen = s.winLen := rfl
@[simp] theorem clearReject_inPos (s : State) : (clearReject s).inPos = s.inPos := rfl
@[simp] theorem clearReject_outLen (s : State) : (clearReject s).outLen = s.outLen := rfl
@[simp] theorem clearReject_dToken (s : State) : (clearReject s).dToken = s.dToken := rfl
@[simp] theorem clearReject_dCount (s : State) : (clearReject s).dCount = s.dCount := rfl
@[simp] theorem clearReject_dOffset (s : State) : (clearReject s).dOffset = s.dOffset := rfl
@[simp] theorem clearReject_winEff (s : State) : (clearReject s).winEff = s.winEff := rfl
@[simp] theorem clearReject_h0 (s : State) : (clearReject s).h0 = s.h0 := rfl
@[simp] theorem clearReject_h1 (s : State) : (clearReject s).h1 = s.h1 := rfl
@[simp] theorem clearReject_ibuf (s : State) : (clearReject s).ibuf = s.ibuf := rfl
@[simp] theorem clearReject_obuf (s : State) : (clearReject s).obuf = s.obuf := rfl
@[simp] theorem clearReject_hostFault (s : State) : (clearReject s).hostFault = s.hostFault := rfl
@[simp] theorem clearReject_schedule (s : State) : (clearReject s).schedule = s.schedule := rfl
@[simp] theorem clearReject_reads (s : State) : (clearReject s).reads = s.reads := rfl
@[simp] theorem clearReject_spaceSize (s : State) (sp : Space) : (clearReject s).spaceSize sp = s.spaceSize sp := rfl
@[simp] theorem clearReject_byteAt (s : State) (sp : Space) (a : Nat) : (clearReject s).byteAt sp a = s.byteAt sp a := rfl
@[simp] theorem clearReject_hash (s : State) (c : Ctx) : (clearReject s).hash c = s.hash c := rfl
@[simp] theorem clearReject_activeCtx (s : State) : (clearReject s).activeCtx = s.activeCtx := rfl
@[simp] theorem clearReject_inAddr (s : State) : (clearReject s).inAddr = s.inAddr := rfl
@[simp] theorem clearReject_outAddr (s : State) : (clearReject s).outAddr = s.outAddr := rfl

/-! ### finish -/

@[simp] theorem finish_params (s : State) : (finish s).params = s.params := rfl
@[simp] theorem finish_ctrl (s : State) : (finish s).ctrl = s.ctrl := rfl
@[simp] theorem finish_status_busy (s : State) : (finish s).status.busy = false := rfl
@[simp] theorem finish_status_done (s : State) : (finish s).status.done = true := rfl
@[simp] theorem finish_status_err (s : State) : (finish s).status.err = s.status.err := rfl
@[simp] theorem finish_status_rej (s : State) : (finish s).status.rej = s.status.rej := rfl
@[simp] theorem finish_status_errCode (s : State) : (finish s).status.errCode = s.status.errCode := rfl
@[simp] theorem finish_status_state (s : State) : (finish s).status.state = .idle := rfl
@[simp] theorem finish_status_errState (s : State) : (finish s).status.errState = s.status.errState := rfl
@[simp] theorem finish_status_lastCmd (s : State) : (finish s).status.lastCmd = s.status.lastCmd := rfl
@[simp] theorem finish_inBase (s : State) : (finish s).inBase = s.inBase := rfl
@[simp] theorem finish_inLen (s : State) : (finish s).inLen = s.inLen := rfl
@[simp] theorem finish_outBase (s : State) : (finish s).outBase = s.outBase := rfl
@[simp] theorem finish_maxSize (s : State) : (finish s).maxSize = s.maxSize := rfl
@[simp] theorem finish_winLen (s : State) : (finish s).winLen = s.winLen := rfl
@[simp] theorem finish_inPos (s : State) : (finish s).inPos = s.inPos := rfl
@[simp] theorem finish_outLen (s : State) : (finish s).outLen = s.outLen := rfl
@[simp] theorem finish_dToken (s : State) : (finish s).dToken = s.dToken := rfl
@[simp] theorem finish_dCount (s : State) : (finish s).dCount = s.dCount := rfl
@[simp] theorem finish_dOffset (s : State) : (finish s).dOffset = s.dOffset := rfl
@[simp] theorem finish_winEff (s : State) : (finish s).winEff = s.winEff := rfl
@[simp] theorem finish_h0 (s : State) : (finish s).h0 = s.h0 := rfl
@[simp] theorem finish_h1 (s : State) : (finish s).h1 = s.h1 := rfl
@[simp] theorem finish_ibuf (s : State) : (finish s).ibuf = s.ibuf := rfl
@[simp] theorem finish_obuf (s : State) : (finish s).obuf = s.obuf := rfl
@[simp] theorem finish_hostFault (s : State) : (finish s).hostFault = s.hostFault := rfl
@[simp] theorem finish_schedule (s : State) : (finish s).schedule = s.schedule := rfl
@[simp] theorem finish_reads (s : State) : (finish s).reads = s.reads := rfl
@[simp] theorem finish_spaceSize (s : State) (sp : Space) : (finish s).spaceSize sp = s.spaceSize sp := rfl
@[simp] theorem finish_byteAt (s : State) (sp : Space) (a : Nat) : (finish s).byteAt sp a = s.byteAt sp a := rfl
@[simp] theorem finish_hash (s : State) (c : Ctx) : (finish s).hash c = s.hash c := rfl
@[simp] theorem finish_activeCtx (s : State) : (finish s).activeCtx = s.activeCtx := rfl
@[simp] theorem finish_inAddr (s : State) : (finish s).inAddr = s.inAddr := rfl
@[simp] theorem finish_outAddr (s : State) : (finish s).outAddr = s.outAddr := rfl

/-! ### startEngine -/

@[simp] theorem startEngine_params (st : EngState) (s : State) : (startEngine st s).params = s.params := rfl
@[simp] theorem startEngine_ctrl (st : EngState) (s : State) : (startEngine st s).ctrl = s.ctrl := rfl
@[simp] theorem startEngine_status_busy (st : EngState) (s : State) : (startEngine st s).status.busy = true := rfl
@[simp] theorem startEngine_status_done (st : EngState) (s : State) : (startEngine st s).status.done = s.status.done := rfl
@[simp] theorem startEngine_status_err (st : EngState) (s : State) : (startEngine st s).status.err = s.status.err := rfl
@[simp] theorem startEngine_status_rej (st : EngState) (s : State) : (startEngine st s).status.rej = s.status.rej := rfl
@[simp] theorem startEngine_status_errCode (st : EngState) (s : State) : (startEngine st s).status.errCode = s.status.errCode := rfl
@[simp] theorem startEngine_status_state (st : EngState) (s : State) : (startEngine st s).status.state = st := rfl
@[simp] theorem startEngine_status_errState (st : EngState) (s : State) : (startEngine st s).status.errState = s.status.errState := rfl
@[simp] theorem startEngine_status_lastCmd (st : EngState) (s : State) : (startEngine st s).status.lastCmd = s.status.lastCmd := rfl
@[simp] theorem startEngine_inBase (st : EngState) (s : State) : (startEngine st s).inBase = s.inBase := rfl
@[simp] theorem startEngine_inLen (st : EngState) (s : State) : (startEngine st s).inLen = s.inLen := rfl
@[simp] theorem startEngine_outBase (st : EngState) (s : State) : (startEngine st s).outBase = s.outBase := rfl
@[simp] theorem startEngine_maxSize (st : EngState) (s : State) : (startEngine st s).maxSize = s.maxSize := rfl
@[simp] theorem startEngine_winLen (st : EngState) (s : State) : (startEngine st s).winLen = s.winLen := rfl
@[simp] theorem startEngine_inPos (st : EngState) (s : State) : (startEngine st s).inPos = s.inPos := rfl
@[simp] theorem startEngine_outLen (st : EngState) (s : State) : (startEngine st s).outLen = s.outLen := rfl
@[simp] theorem startEngine_dToken (st : EngState) (s : State) : (startEngine st s).dToken = s.dToken := rfl
@[simp] theorem startEngine_dCount (st : EngState) (s : State) : (startEngine st s).dCount = s.dCount := rfl
@[simp] theorem startEngine_dOffset (st : EngState) (s : State) : (startEngine st s).dOffset = s.dOffset := rfl
@[simp] theorem startEngine_winEff (st : EngState) (s : State) : (startEngine st s).winEff = s.winEff := rfl
@[simp] theorem startEngine_h0 (st : EngState) (s : State) : (startEngine st s).h0 = s.h0 := rfl
@[simp] theorem startEngine_h1 (st : EngState) (s : State) : (startEngine st s).h1 = s.h1 := rfl
@[simp] theorem startEngine_ibuf (st : EngState) (s : State) : (startEngine st s).ibuf = s.ibuf := rfl
@[simp] theorem startEngine_obuf (st : EngState) (s : State) : (startEngine st s).obuf = s.obuf := rfl
@[simp] theorem startEngine_hostFault (st : EngState) (s : State) : (startEngine st s).hostFault = s.hostFault := rfl
@[simp] theorem startEngine_schedule (st : EngState) (s : State) : (startEngine st s).schedule = s.schedule := rfl
@[simp] theorem startEngine_reads (st : EngState) (s : State) : (startEngine st s).reads = s.reads := rfl
@[simp] theorem startEngine_spaceSize (st : EngState) (s : State) (sp : Space) : (startEngine st s).spaceSize sp = s.spaceSize sp := rfl
@[simp] theorem startEngine_byteAt (st : EngState) (s : State) (sp : Space) (a : Nat) : (startEngine st s).byteAt sp a = s.byteAt sp a := rfl
@[simp] theorem startEngine_hash (st : EngState) (s : State) (c : Ctx) : (startEngine st s).hash c = s.hash c := rfl
@[simp] theorem startEngine_activeCtx (st : EngState) (s : State) : (startEngine st s).activeCtx = s.activeCtx := rfl
@[simp] theorem startEngine_inAddr (st : EngState) (s : State) : (startEngine st s).inAddr = s.inAddr := rfl
@[simp] theorem startEngine_outAddr (st : EngState) (s : State) : (startEngine st s).outAddr = s.outAddr := rfl

/-! ### markBadAccess -/

@[simp] theorem markBadAccess_params (s : State) : (markBadAccess s).params = s.params := rfl
@[simp] theorem markBadAccess_ctrl (s : State) : (markBadAccess s).ctrl = s.ctrl := rfl
@[simp] theorem markBadAccess_status (s : State) : (markBadAccess s).status = s.status := rfl
@[simp] theorem markBadAccess_inBase (s : State) : (markBadAccess s).inBase = s.inBase := rfl
@[simp] theorem markBadAccess_inLen (s : State) : (markBadAccess s).inLen = s.inLen := rfl
@[simp] theorem markBadAccess_outBase (s : State) : (markBadAccess s).outBase = s.outBase := rfl
@[simp] theorem markBadAccess_maxSize (s : State) : (markBadAccess s).maxSize = s.maxSize := rfl
@[simp] theorem markBadAccess_winLen (s : State) : (markBadAccess s).winLen = s.winLen := rfl
@[simp] theorem markBadAccess_inPos (s : State) : (markBadAccess s).inPos = s.inPos := rfl
@[simp] theorem markBadAccess_outLen (s : State) : (markBadAccess s).outLen = s.outLen := rfl
@[simp] theorem markBadAccess_dToken (s : State) : (markBadAccess s).dToken = s.dToken := rfl
@[simp] theorem markBadAccess_dCount (s : State) : (markBadAccess s).dCount = s.dCount := rfl
@[simp] theorem markBadAccess_dOffset (s : State) : (markBadAccess s).dOffset = s.dOffset := rfl
@[simp] theorem markBadAccess_winEff (s : State) : (markBadAccess s).winEff = s.winEff := rfl
@[simp] theorem markBadAccess_h0 (s : State) : (markBadAccess s).h0 = s.h0 := rfl
@[simp] theorem markBadAccess_h1 (s : State) : (markBadAccess s).h1 = s.h1 := rfl
@[simp] theorem markBadAccess_ibuf (s : State) : (markBadAccess s).ibuf = s.ibuf := rfl
@[simp] theorem markBadAccess_obuf (s : State) : (markBadAccess s).obuf = s.obuf := rfl
@[simp] theorem markBadAccess_hostFault (s : State) : (markBadAccess s).hostFault = { s.hostFault with badAccess := true } := rfl
@[simp] theorem markBadAccess_schedule (s : State) : (markBadAccess s).schedule = s.schedule := rfl
@[simp] theorem markBadAccess_reads (s : State) : (markBadAccess s).reads = s.reads := rfl
@[simp] theorem markBadAccess_spaceSize (s : State) (sp : Space) : (markBadAccess s).spaceSize sp = s.spaceSize sp := rfl
@[simp] theorem markBadAccess_byteAt (s : State) (sp : Space) (a : Nat) : (markBadAccess s).byteAt sp a = s.byteAt sp a := rfl
@[simp] theorem markBadAccess_hash (s : State) (c : Ctx) : (markBadAccess s).hash c = s.hash c := rfl
@[simp] theorem markBadAccess_activeCtx (s : State) : (markBadAccess s).activeCtx = s.activeCtx := rfl
@[simp] theorem markBadAccess_inAddr (s : State) : (markBadAccess s).inAddr = s.inAddr := rfl
@[simp] theorem markBadAccess_outAddr (s : State) : (markBadAccess s).outAddr = s.outAddr := rfl

/-! ### markBadAddr -/

@[simp] theorem markBadAddr_params (s : State) : (markBadAddr s).params = s.params := rfl
@[simp] theorem markBadAddr_ctrl (s : State) : (markBadAddr s).ctrl = s.ctrl := rfl
@[simp] theorem markBadAddr_status (s : State) : (markBadAddr s).status = s.status := rfl
@[simp] theorem markBadAddr_inBase (s : State) : (markBadAddr s).inBase = s.inBase := rfl
@[simp] theorem markBadAddr_inLen (s : State) : (markBadAddr s).inLen = s.inLen := rfl
@[simp] theorem markBadAddr_outBase (s : State) : (markBadAddr s).outBase = s.outBase := rfl
@[simp] theorem markBadAddr_maxSize (s : State) : (markBadAddr s).maxSize = s.maxSize := rfl
@[simp] theorem markBadAddr_winLen (s : State) : (markBadAddr s).winLen = s.winLen := rfl
@[simp] theorem markBadAddr_inPos (s : State) : (markBadAddr s).inPos = s.inPos := rfl
@[simp] theorem markBadAddr_outLen (s : State) : (markBadAddr s).outLen = s.outLen := rfl
@[simp] theorem markBadAddr_dToken (s : State) : (markBadAddr s).dToken = s.dToken := rfl
@[simp] theorem markBadAddr_dCount (s : State) : (markBadAddr s).dCount = s.dCount := rfl
@[simp] theorem markBadAddr_dOffset (s : State) : (markBadAddr s).dOffset = s.dOffset := rfl
@[simp] theorem markBadAddr_winEff (s : State) : (markBadAddr s).winEff = s.winEff := rfl
@[simp] theorem markBadAddr_h0 (s : State) : (markBadAddr s).h0 = s.h0 := rfl
@[simp] theorem markBadAddr_h1 (s : State) : (markBadAddr s).h1 = s.h1 := rfl
@[simp] theorem markBadAddr_ibuf (s : State) : (markBadAddr s).ibuf = s.ibuf := rfl
@[simp] theorem markBadAddr_obuf (s : State) : (markBadAddr s).obuf = s.obuf := rfl
@[simp] theorem markBadAddr_hostFault (s : State) : (markBadAddr s).hostFault = { s.hostFault with badAddr := true } := rfl
@[simp] theorem markBadAddr_schedule (s : State) : (markBadAddr s).schedule = s.schedule := rfl
@[simp] theorem markBadAddr_reads (s : State) : (markBadAddr s).reads = s.reads := rfl
@[simp] theorem markBadAddr_spaceSize (s : State) (sp : Space) : (markBadAddr s).spaceSize sp = s.spaceSize sp := rfl
@[simp] theorem markBadAddr_byteAt (s : State) (sp : Space) (a : Nat) : (markBadAddr s).byteAt sp a = s.byteAt sp a := rfl
@[simp] theorem markBadAddr_hash (s : State) (c : Ctx) : (markBadAddr s).hash c = s.hash c := rfl
@[simp] theorem markBadAddr_activeCtx (s : State) : (markBadAddr s).activeCtx = s.activeCtx := rfl
@[simp] theorem markBadAddr_inAddr (s : State) : (markBadAddr s).inAddr = s.inAddr := rfl
@[simp] theorem markBadAddr_outAddr (s : State) : (markBadAddr s).outAddr = s.outAddr := rfl

/-! ### markHazard -/

@[simp] theorem markHazard_params (s : State) : (markHazard s).params = s.params := rfl
@[simp] theorem markHazard_ctrl (s : State) : (markHazard s).ctrl = s.ctrl := rfl
@[simp] theorem markHazard_status (s : State) : (markHazard s).status = s.status := rfl
@[simp] theorem markHazard_inBase (s : State) : (markHazard s).inBase = s.inBase := rfl
@[simp] theorem markHazard_inLen (s : State) : (markHazard s).inLen = s.inLen := rfl
@[simp] theorem markHazard_outBase (s : State) : (markHazard s).outBase = s.outBase := rfl
@[simp] theorem markHazard_maxSize (s : State) : (markHazard s).maxSize = s.maxSize := rfl
@[simp] theorem markHazard_winLen (s : State) : (markHazard s).winLen = s.winLen := rfl
@[simp] theorem markHazard_inPos (s : State) : (markHazard s).inPos = s.inPos := rfl
@[simp] theorem markHazard_outLen (s : State) : (markHazard s).outLen = s.outLen := rfl
@[simp] theorem markHazard_dToken (s : State) : (markHazard s).dToken = s.dToken := rfl
@[simp] theorem markHazard_dCount (s : State) : (markHazard s).dCount = s.dCount := rfl
@[simp] theorem markHazard_dOffset (s : State) : (markHazard s).dOffset = s.dOffset := rfl
@[simp] theorem markHazard_winEff (s : State) : (markHazard s).winEff = s.winEff := rfl
@[simp] theorem markHazard_h0 (s : State) : (markHazard s).h0 = s.h0 := rfl
@[simp] theorem markHazard_h1 (s : State) : (markHazard s).h1 = s.h1 := rfl
@[simp] theorem markHazard_ibuf (s : State) : (markHazard s).ibuf = s.ibuf := rfl
@[simp] theorem markHazard_obuf (s : State) : (markHazard s).obuf = s.obuf := rfl
@[simp] theorem markHazard_hostFault (s : State) : (markHazard s).hostFault = { s.hostFault with hazard := true } := rfl
@[simp] theorem markHazard_schedule (s : State) : (markHazard s).schedule = s.schedule := rfl
@[simp] theorem markHazard_reads (s : State) : (markHazard s).reads = s.reads := rfl
@[simp] theorem markHazard_spaceSize (s : State) (sp : Space) : (markHazard s).spaceSize sp = s.spaceSize sp := rfl
@[simp] theorem markHazard_byteAt (s : State) (sp : Space) (a : Nat) : (markHazard s).byteAt sp a = s.byteAt sp a := rfl
@[simp] theorem markHazard_hash (s : State) (c : Ctx) : (markHazard s).hash c = s.hash c := rfl
@[simp] theorem markHazard_activeCtx (s : State) : (markHazard s).activeCtx = s.activeCtx := rfl
@[simp] theorem markHazard_inAddr (s : State) : (markHazard s).inAddr = s.inAddr := rfl
@[simp] theorem markHazard_outAddr (s : State) : (markHazard s).outAddr = s.outAddr := rfl

/-! ### recordRead -/

@[simp] theorem recordRead_params (v : Word) (s : State) : (recordRead v s).params = s.params := rfl
@[simp] theorem recordRead_ctrl (v : Word) (s : State) : (recordRead v s).ctrl = s.ctrl := rfl
@[simp] theorem recordRead_status (v : Word) (s : State) : (recordRead v s).status = s.status := rfl
@[simp] theorem recordRead_inBase (v : Word) (s : State) : (recordRead v s).inBase = s.inBase := rfl
@[simp] theorem recordRead_inLen (v : Word) (s : State) : (recordRead v s).inLen = s.inLen := rfl
@[simp] theorem recordRead_outBase (v : Word) (s : State) : (recordRead v s).outBase = s.outBase := rfl
@[simp] theorem recordRead_maxSize (v : Word) (s : State) : (recordRead v s).maxSize = s.maxSize := rfl
@[simp] theorem recordRead_winLen (v : Word) (s : State) : (recordRead v s).winLen = s.winLen := rfl
@[simp] theorem recordRead_inPos (v : Word) (s : State) : (recordRead v s).inPos = s.inPos := rfl
@[simp] theorem recordRead_outLen (v : Word) (s : State) : (recordRead v s).outLen = s.outLen := rfl
@[simp] theorem recordRead_dToken (v : Word) (s : State) : (recordRead v s).dToken = s.dToken := rfl
@[simp] theorem recordRead_dCount (v : Word) (s : State) : (recordRead v s).dCount = s.dCount := rfl
@[simp] theorem recordRead_dOffset (v : Word) (s : State) : (recordRead v s).dOffset = s.dOffset := rfl
@[simp] theorem recordRead_winEff (v : Word) (s : State) : (recordRead v s).winEff = s.winEff := rfl
@[simp] theorem recordRead_h0 (v : Word) (s : State) : (recordRead v s).h0 = s.h0 := rfl
@[simp] theorem recordRead_h1 (v : Word) (s : State) : (recordRead v s).h1 = s.h1 := rfl
@[simp] theorem recordRead_ibuf (v : Word) (s : State) : (recordRead v s).ibuf = s.ibuf := rfl
@[simp] theorem recordRead_obuf (v : Word) (s : State) : (recordRead v s).obuf = s.obuf := rfl
@[simp] theorem recordRead_hostFault (v : Word) (s : State) : (recordRead v s).hostFault = s.hostFault := rfl
@[simp] theorem recordRead_schedule (v : Word) (s : State) : (recordRead v s).schedule = s.schedule := rfl
@[simp] theorem recordRead_reads (v : Word) (s : State) : (recordRead v s).reads = v :: s.reads := rfl
@[simp] theorem recordRead_spaceSize (v : Word) (s : State) (sp : Space) : (recordRead v s).spaceSize sp = s.spaceSize sp := rfl
@[simp] theorem recordRead_byteAt (v : Word) (s : State) (sp : Space) (a : Nat) : (recordRead v s).byteAt sp a = s.byteAt sp a := rfl
@[simp] theorem recordRead_hash (v : Word) (s : State) (c : Ctx) : (recordRead v s).hash c = s.hash c := rfl
@[simp] theorem recordRead_activeCtx (v : Word) (s : State) : (recordRead v s).activeCtx = s.activeCtx := rfl
@[simp] theorem recordRead_inAddr (v : Word) (s : State) : (recordRead v s).inAddr = s.inAddr := rfl
@[simp] theorem recordRead_outAddr (v : Word) (s : State) : (recordRead v s).outAddr = s.outAddr := rfl

/-! ### advanceInput -/

@[simp] theorem advanceInput_params (s : State) : (advanceInput s).params = s.params := rfl
@[simp] theorem advanceInput_ctrl (s : State) : (advanceInput s).ctrl = s.ctrl := rfl
@[simp] theorem advanceInput_status (s : State) : (advanceInput s).status = s.status := rfl
@[simp] theorem advanceInput_inBase (s : State) : (advanceInput s).inBase = s.inBase := rfl
@[simp] theorem advanceInput_inLen (s : State) : (advanceInput s).inLen = s.inLen := rfl
@[simp] theorem advanceInput_outBase (s : State) : (advanceInput s).outBase = s.outBase := rfl
@[simp] theorem advanceInput_maxSize (s : State) : (advanceInput s).maxSize = s.maxSize := rfl
@[simp] theorem advanceInput_winLen (s : State) : (advanceInput s).winLen = s.winLen := rfl
@[simp] theorem advanceInput_inPos (s : State) : (advanceInput s).inPos = s.inPos + 1 := rfl
@[simp] theorem advanceInput_outLen (s : State) : (advanceInput s).outLen = s.outLen := rfl
@[simp] theorem advanceInput_dToken (s : State) : (advanceInput s).dToken = s.dToken := rfl
@[simp] theorem advanceInput_dCount (s : State) : (advanceInput s).dCount = s.dCount := rfl
@[simp] theorem advanceInput_dOffset (s : State) : (advanceInput s).dOffset = s.dOffset := rfl
@[simp] theorem advanceInput_winEff (s : State) : (advanceInput s).winEff = s.winEff := rfl
@[simp] theorem advanceInput_h0 (s : State) : (advanceInput s).h0 = s.h0 := rfl
@[simp] theorem advanceInput_h1 (s : State) : (advanceInput s).h1 = s.h1 := rfl
@[simp] theorem advanceInput_ibuf (s : State) : (advanceInput s).ibuf = s.ibuf := rfl
@[simp] theorem advanceInput_obuf (s : State) : (advanceInput s).obuf = s.obuf := rfl
@[simp] theorem advanceInput_hostFault (s : State) : (advanceInput s).hostFault = s.hostFault := rfl
@[simp] theorem advanceInput_schedule (s : State) : (advanceInput s).schedule = s.schedule := rfl
@[simp] theorem advanceInput_reads (s : State) : (advanceInput s).reads = s.reads := rfl
@[simp] theorem advanceInput_spaceSize (s : State) (sp : Space) : (advanceInput s).spaceSize sp = s.spaceSize sp := rfl
@[simp] theorem advanceInput_byteAt (s : State) (sp : Space) (a : Nat) : (advanceInput s).byteAt sp a = s.byteAt sp a := rfl
@[simp] theorem advanceInput_hash (s : State) (c : Ctx) : (advanceInput s).hash c = s.hash c := rfl
@[simp] theorem advanceInput_activeCtx (s : State) : (advanceInput s).activeCtx = s.activeCtx := rfl
@[simp] theorem advanceInput_outAddr (s : State) : (advanceInput s).outAddr = s.outAddr := rfl

/-! ### clearProgress -/

@[simp] theorem clearProgress_params (w : Word) (s : State) : (clearProgress w s).params = s.params := rfl
@[simp] theorem clearProgress_ctrl (w : Word) (s : State) : (clearProgress w s).ctrl = s.ctrl := rfl
@[simp] theorem clearProgress_status (w : Word) (s : State) : (clearProgress w s).status = s.status := rfl
@[simp] theorem clearProgress_inBase (w : Word) (s : State) : (clearProgress w s).inBase = s.inBase := rfl
@[simp] theorem clearProgress_inLen (w : Word) (s : State) : (clearProgress w s).inLen = s.inLen := rfl
@[simp] theorem clearProgress_outBase (w : Word) (s : State) : (clearProgress w s).outBase = s.outBase := rfl
@[simp] theorem clearProgress_maxSize (w : Word) (s : State) : (clearProgress w s).maxSize = s.maxSize := rfl
@[simp] theorem clearProgress_winLen (w : Word) (s : State) : (clearProgress w s).winLen = s.winLen := rfl
@[simp] theorem clearProgress_inPos (w : Word) (s : State) : (clearProgress w s).inPos = 0 := rfl
@[simp] theorem clearProgress_outLen (w : Word) (s : State) : (clearProgress w s).outLen = 0 := rfl
@[simp] theorem clearProgress_dToken (w : Word) (s : State) : (clearProgress w s).dToken = 0 := rfl
@[simp] theorem clearProgress_dCount (w : Word) (s : State) : (clearProgress w s).dCount = 0 := rfl
@[simp] theorem clearProgress_dOffset (w : Word) (s : State) : (clearProgress w s).dOffset = 0 := rfl
@[simp] theorem clearProgress_winEff (w : Word) (s : State) : (clearProgress w s).winEff = w := rfl
@[simp] theorem clearProgress_h0 (w : Word) (s : State) : (clearProgress w s).h0 = s.h0 := rfl
@[simp] theorem clearProgress_h1 (w : Word) (s : State) : (clearProgress w s).h1 = s.h1 := rfl
@[simp] theorem clearProgress_ibuf (w : Word) (s : State) : (clearProgress w s).ibuf = s.ibuf := rfl
@[simp] theorem clearProgress_obuf (w : Word) (s : State) : (clearProgress w s).obuf = s.obuf := rfl
@[simp] theorem clearProgress_hostFault (w : Word) (s : State) : (clearProgress w s).hostFault = s.hostFault := rfl
@[simp] theorem clearProgress_schedule (w : Word) (s : State) : (clearProgress w s).schedule = s.schedule := rfl
@[simp] theorem clearProgress_reads (w : Word) (s : State) : (clearProgress w s).reads = s.reads := rfl

/-! ### softReset -/

@[simp] theorem softReset_params (s : State) : (softReset s).params = s.params := rfl
@[simp] theorem softReset_ctrl (s : State) : (softReset s).ctrl = .reset := rfl
@[simp] theorem softReset_status (s : State) : (softReset s).status = .reset := rfl
@[simp] theorem softReset_inBase (s : State) : (softReset s).inBase = 0 := rfl
@[simp] theorem softReset_inLen (s : State) : (softReset s).inLen = 0 := rfl
@[simp] theorem softReset_outBase (s : State) : (softReset s).outBase = 0 := rfl
@[simp] theorem softReset_maxSize (s : State) : (softReset s).maxSize = 0 := rfl
@[simp] theorem softReset_winLen (s : State) : (softReset s).winLen = 0 := rfl
@[simp] theorem softReset_inPos (s : State) : (softReset s).inPos = 0 := rfl
@[simp] theorem softReset_outLen (s : State) : (softReset s).outLen = 0 := rfl
@[simp] theorem softReset_dToken (s : State) : (softReset s).dToken = 0 := rfl
@[simp] theorem softReset_dCount (s : State) : (softReset s).dCount = 0 := rfl
@[simp] theorem softReset_dOffset (s : State) : (softReset s).dOffset = 0 := rfl
@[simp] theorem softReset_winEff (s : State) : (softReset s).winEff = 0 := rfl
@[simp] theorem softReset_h0 (s : State) : (softReset s).h0 = .reset := rfl
@[simp] theorem softReset_h1 (s : State) : (softReset s).h1 = .reset := rfl
@[simp] theorem softReset_ibuf (s : State) : (softReset s).ibuf = s.ibuf := rfl
@[simp] theorem softReset_obuf (s : State) : (softReset s).obuf = s.obuf := rfl
@[simp] theorem softReset_hostFault (s : State) : (softReset s).hostFault = s.hostFault := rfl
@[simp] theorem softReset_schedule (s : State) : (softReset s).schedule = s.schedule := rfl
@[simp] theorem softReset_reads (s : State) : (softReset s).reads = s.reads := rfl

/-! ### setHash -/

@[simp] theorem setHash_params (s : State) (c : Ctx) (h : HashCtx) : (s.setHash c h).params = s.params := by cases c <;> rfl
@[simp] theorem setHash_ctrl (s : State) (c : Ctx) (h : HashCtx) : (s.setHash c h).ctrl = s.ctrl := by cases c <;> rfl
@[simp] theorem setHash_status (s : State) (c : Ctx) (h : HashCtx) : (s.setHash c h).status = s.status := by cases c <;> rfl
@[simp] theorem setHash_inBase (s : State) (c : Ctx) (h : HashCtx) : (s.setHash c h).inBase = s.inBase := by cases c <;> rfl
@[simp] theorem setHash_inLen (s : State) (c : Ctx) (h : HashCtx) : (s.setHash c h).inLen = s.inLen := by cases c <;> rfl
@[simp] theorem setHash_outBase (s : State) (c : Ctx) (h : HashCtx) : (s.setHash c h).outBase = s.outBase := by cases c <;> rfl
@[simp] theorem setHash_maxSize (s : State) (c : Ctx) (h : HashCtx) : (s.setHash c h).maxSize = s.maxSize := by cases c <;> rfl
@[simp] theorem setHash_winLen (s : State) (c : Ctx) (h : HashCtx) : (s.setHash c h).winLen = s.winLen := by cases c <;> rfl
@[simp] theorem setHash_inPos (s : State) (c : Ctx) (h : HashCtx) : (s.setHash c h).inPos = s.inPos := by cases c <;> rfl
@[simp] theorem setHash_outLen (s : State) (c : Ctx) (h : HashCtx) : (s.setHash c h).outLen = s.outLen := by cases c <;> rfl
@[simp] theorem setHash_dToken (s : State) (c : Ctx) (h : HashCtx) : (s.setHash c h).dToken = s.dToken := by cases c <;> rfl
@[simp] theorem setHash_dCount (s : State) (c : Ctx) (h : HashCtx) : (s.setHash c h).dCount = s.dCount := by cases c <;> rfl
@[simp] theorem setHash_dOffset (s : State) (c : Ctx) (h : HashCtx) : (s.setHash c h).dOffset = s.dOffset := by cases c <;> rfl
@[simp] theorem setHash_winEff (s : State) (c : Ctx) (h : HashCtx) : (s.setHash c h).winEff = s.winEff := by cases c <;> rfl
@[simp] theorem setHash_ibuf (s : State) (c : Ctx) (h : HashCtx) : (s.setHash c h).ibuf = s.ibuf := by cases c <;> rfl
@[simp] theorem setHash_obuf (s : State) (c : Ctx) (h : HashCtx) : (s.setHash c h).obuf = s.obuf := by cases c <;> rfl
@[simp] theorem setHash_hostFault (s : State) (c : Ctx) (h : HashCtx) : (s.setHash c h).hostFault = s.hostFault := by cases c <;> rfl
@[simp] theorem setHash_schedule (s : State) (c : Ctx) (h : HashCtx) : (s.setHash c h).schedule = s.schedule := by cases c <;> rfl
@[simp] theorem setHash_reads (s : State) (c : Ctx) (h : HashCtx) : (s.setHash c h).reads = s.reads := by cases c <;> rfl
@[simp] theorem setHash_hash_same (s : State) (c : Ctx) (h : HashCtx) : (s.setHash c h).hash c = h := by cases c <;> rfl
theorem setHash_hash_other (s : State) (c c' : Ctx) (h : HashCtx) (hc : c' ≠ c) : (s.setHash c h).hash c' = s.hash c' := by
  cases c <;> cases c' <;> first | rfl | exact absurd rfl hc
@[simp] theorem setHash_spaceSize (s : State) (c : Ctx) (h : HashCtx) (sp : Space) :
    (s.setHash c h).spaceSize sp = s.spaceSize sp := by cases c <;> rfl
@[simp] theorem setHash_byteAt (s : State) (c : Ctx) (h : HashCtx) (sp : Space) (a : Nat) :
    (s.setHash c h).byteAt sp a = s.byteAt sp a := by cases c <;> rfl
@[simp] theorem setHash_activeCtx (s : State) (c : Ctx) (h : HashCtx) : (s.setHash c h).activeCtx = s.activeCtx := by
  cases c <;> rfl

/-! ### putByte -/

@[simp] theorem putByte_params (s : State) (sp : Space) (a : Nat) (v : Byte) : (s.putByte sp a v).params = s.params := by cases sp <;> rfl
@[simp] theorem putByte_ctrl (s : State) (sp : Space) (a : Nat) (v : Byte) : (s.putByte sp a v).ctrl = s.ctrl := by cases sp <;> rfl
@[simp] theorem putByte_status (s : State) (sp : Space) (a : Nat) (v : Byte) : (s.putByte sp a v).status = s.status := by cases sp <;> rfl
@[simp] theorem putByte_inBase (s : State) (sp : Space) (a : Nat) (v : Byte) : (s.putByte sp a v).inBase = s.inBase := by cases sp <;> rfl
@[simp] theorem putByte_inLen (s : State) (sp : Space) (a : Nat) (v : Byte) : (s.putByte sp a v).inLen = s.inLen := by cases sp <;> rfl
@[simp] theorem putByte_outBase (s : State) (sp : Space) (a : Nat) (v : Byte) : (s.putByte sp a v).outBase = s.outBase := by cases sp <;> rfl
@[simp] theorem putByte_maxSize (s : State) (sp : Space) (a : Nat) (v : Byte) : (s.putByte sp a v).maxSize = s.maxSize := by cases sp <;> rfl
@[simp] theorem putByte_winLen (s : State) (sp : Space) (a : Nat) (v : Byte) : (s.putByte sp a v).winLen = s.winLen := by cases sp <;> rfl
@[simp] theorem putByte_inPos (s : State) (sp : Space) (a : Nat) (v : Byte) : (s.putByte sp a v).inPos = s.inPos := by cases sp <;> rfl
@[simp] theorem putByte_outLen (s : State) (sp : Space) (a : Nat) (v : Byte) : (s.putByte sp a v).outLen = s.outLen := by cases sp <;> rfl
@[simp] theorem putByte_dToken (s : State) (sp : Space) (a : Nat) (v : Byte) : (s.putByte sp a v).dToken = s.dToken := by cases sp <;> rfl
@[simp] theorem putByte_dCount (s : State) (sp : Space) (a : Nat) (v : Byte) : (s.putByte sp a v).dCount = s.dCount := by cases sp <;> rfl
@[simp] theorem putByte_dOffset (s : State) (sp : Space) (a : Nat) (v : Byte) : (s.putByte sp a v).dOffset = s.dOffset := by cases sp <;> rfl
@[simp] theorem putByte_winEff (s : State) (sp : Space) (a : Nat) (v : Byte) : (s.putByte sp a v).winEff = s.winEff := by cases sp <;> rfl
@[simp] theorem putByte_h0 (s : State) (sp : Space) (a : Nat) (v : Byte) : (s.putByte sp a v).h0 = s.h0 := by cases sp <;> rfl
@[simp] theorem putByte_h1 (s : State) (sp : Space) (a : Nat) (v : Byte) : (s.putByte sp a v).h1 = s.h1 := by cases sp <;> rfl
@[simp] theorem putByte_hostFault (s : State) (sp : Space) (a : Nat) (v : Byte) : (s.putByte sp a v).hostFault = s.hostFault := by cases sp <;> rfl
@[simp] theorem putByte_schedule (s : State) (sp : Space) (a : Nat) (v : Byte) : (s.putByte sp a v).schedule = s.schedule := by cases sp <;> rfl
@[simp] theorem putByte_reads (s : State) (sp : Space) (a : Nat) (v : Byte) : (s.putByte sp a v).reads = s.reads := by cases sp <;> rfl
@[simp] theorem putByte_memOf_same (s : State) (sp : Space) (a : Nat) (v : Byte) :
    (s.putByte sp a v).memOf sp = (s.memOf sp).store a v := by cases sp <;> rfl
theorem putByte_memOf_other (s : State) (sp sp' : Space) (a : Nat) (v : Byte) (h : sp' ≠ sp) :
    (s.putByte sp a v).memOf sp' = s.memOf sp' := by
  cases sp <;> cases sp' <;> first | rfl | exact absurd rfl h
@[simp] theorem putByte_spaceSize (s : State) (sp sp' : Space) (a : Nat) (v : Byte) :
    (s.putByte sp a v).spaceSize sp' = s.spaceSize sp' := by cases sp <;> rfl
@[simp] theorem putByte_hash (s : State) (sp : Space) (a : Nat) (v : Byte) (c : Ctx) :
    (s.putByte sp a v).hash c = s.hash c := by cases sp <;> rfl
@[simp] theorem putByte_activeCtx (s : State) (sp : Space) (a : Nat) (v : Byte) :
    (s.putByte sp a v).activeCtx = s.activeCtx := by cases sp <;> rfl

end Sys2Proof.Machine
end

