-- ==== Sys2Proof/Laws/Memory.lean ====
section
/-!
SUPPORT. The laws of the buffers: a read after a write, what a write leaves alone, and that a write keeps the canonical form.
-/

namespace Sys2Proof.Machine

@[simp] theorem lookup_nil (a : Nat) : Memory.lookup [] a = none := rfl

@[simp] theorem lookup_store_same (m : Memory) (a : Nat) (v : Byte) : (m.store a v).lookup a = some v := by
  induction m with
  | nil => simp [Memory.store, Memory.lookup]
  | cons c rest ih =>
    obtain ⟨x, w⟩ := c
    simp only [Memory.store]
    split
    · simp [Memory.lookup]
    · split
      · simp [Memory.lookup]
      · next h1 h2 => simp [Memory.lookup, h2, ih]

theorem lookup_store_other (m : Memory) (a b : Nat) (v : Byte) (h : b ≠ a) : (m.store a v).lookup b = m.lookup b := by
  induction m with
  | nil => simp [Memory.store, Memory.lookup, h]
  | cons c rest ih =>
    obtain ⟨x, w⟩ := c
    simp only [Memory.store]
    split
    · simp [Memory.lookup, h]
    · split
      · next h1 h2 => subst h2; simp [Memory.lookup, h]
      · simp only [Memory.lookup, ih]

/-- Every entry of a written buffer is the new one or an old one. -/
theorem mem_store {m : Memory} {a : Nat} {v : Byte} {c : Host.Cell} (h : c ∈ m.store a v) : c = (a, v) ∨ c ∈ m := by
  induction m with
  | nil => simpa [Memory.store] using h
  | cons d rest ih =>
    obtain ⟨x, w⟩ := d
    simp only [Memory.store] at h
    split at h
    · simpa using h
    · split at h
      · rcases List.mem_cons.mp h with h | h
        · exact .inl h
        · exact .inr (List.mem_cons_of_mem _ h)
      · rcases List.mem_cons.mp h with h | h
        · exact .inr (h ▸ List.mem_cons_self)
        · exact (ih h).imp id (List.mem_cons_of_mem _)

/-- A write keeps the canonical form. -/
theorem store_wf {m : Memory} (hm : m.wf) (a : Nat) (v : Byte) : (m.store a v).wf := by
  induction m with
  | nil => exact List.pairwise_singleton _ _
  | cons d rest ih =>
    obtain ⟨x, w⟩ := d
    obtain ⟨hx, hrest⟩ := List.pairwise_cons.mp hm
    simp only [Memory.store]
    split
    · next h =>
      refine List.pairwise_cons.mpr ⟨fun c hc => ?_, hm⟩
      rcases List.mem_cons.mp hc with rfl | hc
      · exact h
      · exact Nat.lt_trans h (hx c hc)
    · split
      · next h => subst h; exact List.pairwise_cons.mpr ⟨hx, hrest⟩
      · next h1 h2 =>
        refine List.pairwise_cons.mpr ⟨fun c hc => ?_, ih hrest⟩
        rcases mem_store hc with rfl | hc
        · exact Nat.lt_of_le_of_ne (Nat.le_of_not_lt h1) (Ne.symm h2)
        · exact hx c hc

/-- A write inside the buffer lists no address outside it. -/
theorem store_within {m : Memory} {size a : Nat} (hm : m.within size) (ha : a < size) (v : Byte) :
    (m.store a v).within size := by
  intro c hc
  rcases mem_store hc with rfl | hc
  · exact ha
  · exact hm c hc

@[simp] theorem byteAt_putByte_same (s : State) (sp : Space) (a : Nat) (v : Byte) :
    (s.putByte sp a v).byteAt sp a = v := by
  simp [State.byteAt]

theorem byteAt_putByte_otherAddr (s : State) (sp : Space) (a b : Nat) (v : Byte) (h : b ≠ a) :
    (s.putByte sp a v).byteAt sp b = s.byteAt sp b := by
  simp [State.byteAt, lookup_store_other _ _ _ _ h]

theorem byteAt_putByte_otherSpace (s : State) (sp sp' : Space) (a b : Nat) (v : Byte) (h : sp' ≠ sp) :
    (s.putByte sp a v).byteAt sp' b = s.byteAt sp' b := by
  simp [State.byteAt, putByte_memOf_other _ _ _ _ _ h]

/-- A power-on buffer is in canonical form. -/
theorem wf_nil : Memory.wf [] := List.Pairwise.nil

@[simp] theorem length_bytesAt (s : State) (sp : Space) (a n : Nat) : (s.bytesAt sp a n).length = n := by
  simp [State.bytesAt]

@[simp] theorem bytesAt_zero (s : State) (sp : Space) (a : Nat) : s.bytesAt sp a 0 = [] := rfl

theorem bytesAt_succ (s : State) (sp : Space) (a n : Nat) :
    s.bytesAt sp a (n + 1) = s.byteAt sp a :: s.bytesAt sp (a + 1) n := by
  simp only [State.bytesAt, List.range_succ_eq_map, List.map_cons, List.map_map, Nat.add_zero]
  congr 1
  refine List.map_congr_left (fun i _ => ?_)
  simp [Nat.add_comm, Nat.add_left_comm]

end Sys2Proof.Machine
end

