-- ==== Sys2Proof/Laws/Ops.lean ====
section
/-!
SUPPORT. Once for each shared operation, everything it can do.
-/

namespace Sys2Proof.Machine

/-! ### Engine accesses -/

theorem engineRead_of_lt {sp : Space} {a : Nat} {k : Byte → Result} {s : State} (h : a < s.spaceSize sp) :
    engineRead sp a k s = k (s.byteAt sp a) := if_pos h

/-- An engine read answers next only inside its buffer, and then as what follows it does. -/
theorem engineRead_next {sp : Space} {a : Nat} {k : Byte → Result} {s t : State} (h : engineRead sp a k s = .next t) :
    a < s.spaceSize sp ∧ k (s.byteAt sp a) = .next t := by
  unfold engineRead at h
  split at h
  · exact ⟨‹_›, h⟩
  · cases h

theorem engineWrite_of_lt {a : Nat} {v : Byte} {k : State → Result} {s : State} (h : a < s.spaceSize .obuf) :
    engineWrite a v k s = k (s.putByte .obuf a v) := if_pos h

/-- An engine write answers next only inside OBUF, and then as what follows it does. -/
theorem engineWrite_next {a : Nat} {v : Byte} {k : State → Result} {s t : State} (h : engineWrite a v k s = .next t) :
    a < s.spaceSize .obuf ∧ k (s.putByte .obuf a v) = .next t := by
  unfold engineWrite at h
  split at h
  · exact ⟨‹_›, h⟩
  · cases h

/-! ### Commands -/

theorem acceptCommand_idle {op : BitVec 8} {action : State → State} {s : State} (h : s.status.busy = false) :
    acceptCommand op action s = .next (action (prologue op s)) := by simp [acceptCommand, h]

theorem acceptCommand_busy {op : BitVec 8} {action : State → State} {s : State} (h : s.status.busy = true) :
    acceptCommand op action s = .next (reject s) := by simp [acceptCommand, h]

/-- A command is rejected while busy, and else its action follows the prologue. -/
theorem acceptCommand_next {op : BitVec 8} {action : State → State} {s t : State}
    (h : acceptCommand op action s = .next t) :
    (s.status.busy = true ∧ t = reject s) ∨ (s.status.busy = false ∧ t = action (prologue op s)) := by
  cases hb : s.status.busy with
  | true => rw [acceptCommand_busy hb] at h; cases h; exact .inl ⟨rfl, rfl⟩
  | false => rw [acceptCommand_idle hb] at h; cases h; exact .inr ⟨rfl, rfl⟩

/-! ### Sequencing -/

@[simp] theorem andThen_fault (f : Fault) (k : State → Result) : andThen (.fault f) k = .fault f := rfl

@[simp] theorem andThen_refused (r : Refusal) (k : State → Result) : andThen (.refused r) k = .refused r := rfl

theorem andThen_busy {s : State} {k : State → Result} (h : s.status.busy = true) : andThen (.next s) k = k s := by
  simp [andThen, h]

theorem andThen_idle {s : State} {k : State → Result} (h : s.status.busy = false) : andThen (.next s) k = .next s := by
  simp [andThen, h]

/-- A sequence answers next either because its first part ended the command, or because its second part goes on from it. -/
theorem andThen_next {r : Result} {k : State → Result} {t : State} (h : andThen r k = .next t) :
    ∃ s, r = .next s ∧ ((s.status.busy = false ∧ t = s) ∨ (s.status.busy = true ∧ k s = .next t)) := by
  cases r with
  | fault f => cases h
  | refused r => cases h
  | next s =>
    refine ⟨s, rfl, ?_⟩
    cases hb : s.status.busy with
    | true => rw [andThen_busy hb] at h; exact .inr ⟨rfl, h⟩
    | false => rw [andThen_idle hb] at h; cases h; exact .inl ⟨rfl, rfl⟩

/-- What every step keeps, a run over a string keeps. -/
theorem andThenEach_induct {P : State → Prop} {f : Byte → State → Result}
    (hf : ∀ b s t, P s → s.status.busy = true → f b s = .next t → P t) :
    ∀ (bytes : List Byte) (r : Result), (∀ s, r = .next s → P s) →
      ∀ t, andThenEach f bytes r = .next t → P t
  | [], _, hr, t, h => hr t h
  | b :: rest, r, hr, t, h => by
    refine andThenEach_induct hf rest (andThen r (f b)) (fun s hs => ?_) t h
    obtain ⟨u, hu, ⟨-, rfl⟩ | ⟨hb, hk⟩⟩ := andThen_next hs
    · exact hr _ hu
    · exact hf b u s (hr u hu) hb hk

/-- What every step keeps, a run of a number of steps keeps. -/
theorem andThenTimes_induct {P : State → Prop} {f : State → Result}
    (hf : ∀ s t, P s → s.status.busy = true → f s = .next t → P t) :
    ∀ (n : Nat) (r : Result), (∀ s, r = .next s → P s) → ∀ t, andThenTimes f n r = .next t → P t
  | 0, _, hr, t, h => hr t h
  | n + 1, r, hr, t, h => by
    refine andThenTimes_induct hf n (andThen r f) (fun s hs => ?_) t h
    obtain ⟨u, hu, ⟨-, rfl⟩ | ⟨hb, hk⟩⟩ := andThen_next hs
    · exact hr _ hu
    · exact hf u s (hr u hu) hb hk

/-! ### Decoder steps -/

/-- A byte appended to the output: inside OBUF, one byte written, one counted, and the run's last byte changes the state. -/
theorem appendByte_next {b : Byte} {last : EngState} {s t : State} (h : appendByte b last s = .next t) :
    s.outAddr < s.spaceSize .obuf ∧
    t = { s.putByte .obuf s.outAddr b with
          outLen := s.outLen + 1, dCount := s.dCount - 1,
          status := if s.dCount - 1 = 0 then { s.status with state := last } else s.status } := by
  obtain ⟨hlt, hk⟩ := engineWrite_next h
  refine ⟨hlt, ?_⟩
  simp only [Host.Outcome.next.injEq] at hk
  subst hk
  by_cases hz : s.dCount - 1 = 0
  · rw [if_pos hz]; exact if_pos hz
  · rw [if_neg hz]; exact if_neg hz

/-- An extension byte: at the end of the input an error, else one byte consumed and added. -/
theorem extensionStep_next {e : Byte} {last : EngState} {s t : State} (h : extensionStep e last s = .next t) :
    (s.inPos = s.inLen ∧ t = raiseError .truncated s) ∨
    (s.inPos ≠ s.inLen ∧ t = { s with
      inPos := s.inPos + 1, dCount := sat32 (s.dCount.toNat + e.toNat),
      status := if e = Config.extCont then s.status else { s.status with state := last } }) := by
  unfold extensionStep at h
  split at h
  · cases h; exact .inl ⟨‹_›, rfl⟩
  · refine .inr ⟨‹_›, ?_⟩
    cases h
    by_cases he : e = Config.extCont
    · rw [if_pos he, if_pos he]; rfl
    · rw [if_neg he, if_neg he]; rfl

/-- The four ways MCHK ends. -/
theorem matchChecks_next {s t : State} (h : matchChecks s = .next t) :
    (s.dOffset = 0 ∧ t = raiseError .offsetZero s) ∨
    (s.dOffset ≠ 0 ∧ s.outLen.toNat + s.winEff.toNat < s.dOffset.toNat ∧ t = raiseError .offsetRange s) ∨
    (s.dOffset ≠ 0 ∧ s.dOffset.toNat ≤ s.outLen.toNat + s.winEff.toNat ∧
      s.maxSize.toNat < s.outLen.toNat + s.dCount.toNat ∧ t = raiseError .outputLimit s) ∨
    (s.dOffset ≠ 0 ∧ s.dOffset.toNat ≤ s.outLen.toNat + s.winEff.toNat ∧
      s.outLen.toNat + s.dCount.toNat ≤ s.maxSize.toNat ∧ t = s.enter .copy) := by
  unfold matchChecks at h
  split at h
  · cases h; exact .inl ⟨‹_›, rfl⟩
  · split at h
    · cases h; exact .inr (.inl ⟨‹_›, ‹_›, rfl⟩)
    · split at h
      · cases h; exact .inr (.inr (.inl ⟨‹_›, Nat.le_of_not_lt ‹_›, ‹_›, rfl⟩))
      · cases h; exact .inr (.inr (.inr ⟨‹_›, Nat.le_of_not_lt ‹_›, Nat.le_of_not_lt ‹_›, rfl⟩))

/-- The three ways LITCHK ends. -/
theorem litchkStep_next {s t : State} (h : litchkStep s = .next t) :
    (s.inLen.toNat < s.inPos.toNat + s.dCount.toNat ∧ t = raiseError .truncated s) ∨
    (s.inPos.toNat + s.dCount.toNat ≤ s.inLen.toNat ∧ s.maxSize.toNat < s.outLen.toNat + s.dCount.toNat ∧
      t = raiseError .outputLimit s) ∨
    (s.inPos.toNat + s.dCount.toNat ≤ s.inLen.toNat ∧ s.outLen.toNat + s.dCount.toNat ≤ s.maxSize.toNat ∧
      t = s.enter (if s.dCount = 0 then .off0 else .lit)) := by
  unfold litchkStep at h
  split at h
  · cases h; exact .inl ⟨‹_›, rfl⟩
  · split at h
    · cases h; exact .inr (.inl ⟨Nat.le_of_not_lt ‹_›, ‹_›, rfl⟩)
    · cases h; exact .inr (.inr ⟨Nat.le_of_not_lt ‹_›, Nat.le_of_not_lt ‹_›, rfl⟩)

/-- An element turn: at the end of the input its end, else the element its byte decodes to. -/
theorem elementTurn_next {atEnd : State → Result} {element : Byte → State → Result} {s t : State}
    (h : elementTurn atEnd element s = .next t) :
    (s.inPos = s.inLen ∧ atEnd s = .next t) ∨
    (s.inPos ≠ s.inLen ∧ s.inAddr < s.spaceSize .ibuf ∧ element (s.byteAt .ibuf s.inAddr) s = .next t) := by
  unfold elementTurn at h
  split at h
  · exact .inl ⟨‹_›, h⟩
  · obtain ⟨h1, h2⟩ := engineRead_next h
    exact .inr ⟨‹_›, h1, h2⟩

theorem engineStep_busy {s : State} (h : s.status.busy = true) : engineStep s = engineAction s := by
  simp [engineStep, h]

theorem engineStep_idle {s : State} (h : s.status.busy = false) : engineStep s = .next s := by
  simp [engineStep, h]

/-! ### Hash contexts -/

@[simp] theorem absorbAll_nil (h : HashCtx) : h.absorbAll [] = h := rfl

theorem absorb_of_lt {h : HashCtx} {b : Byte} (hc : h.count.val + 1 ≠ 16) :
    h.absorb b = { h with buf := h.buf.set h.count.val b h.count.isLt, total := h.total + 1, count := h.count + 1 } := by
  simp [HashCtx.absorb, hc]

@[simp] theorem absorb_total (h : HashCtx) (b : Byte) : (h.absorb b).total = h.total + 1 := by
  unfold HashCtx.absorb; split <;> rfl

@[simp] theorem absorb_digest (h : HashCtx) (b : Byte) : (h.absorb b).digest = h.digest := by
  unfold HashCtx.absorb; split <;> rfl

@[simp] theorem absorb_len (h : HashCtx) (b : Byte) : (h.absorb b).len = h.len := by
  unfold HashCtx.absorb; split <;> rfl

@[simp] theorem absorb_addr (h : HashCtx) (b : Byte) : (h.absorb b).addr = h.addr := by
  unfold HashCtx.absorb; split <;> rfl

@[simp] theorem absorb_pos (h : HashCtx) (b : Byte) : (h.absorb b).pos = h.pos := by
  unfold HashCtx.absorb; split <;> rfl

@[simp] theorem absorb_seed (h : HashCtx) (b : Byte) : (h.absorb b).seed = h.seed := by
  unfold HashCtx.absorb; split <;> rfl

end Sys2Proof.Machine
end

