-- ==== Sys2Proof/Laws/Frame.lean ====
section
/-!
SUPPORT. The frame of everything the engine does: what no element, no engine step and no fused turn changes.
-/

namespace Sys2Proof.Machine

/-- What an engine turn leaves as it was: the sizes, CTRL, the configuration, IBUF, the host's marks and reads, the schedule, and of STATUS
the fields REJ and LASTCMD. -/
structure EngineFrame (s t : State) : Prop where
  params : t.params = s.params
  ctrl : t.ctrl = s.ctrl
  rej : t.status.rej = s.status.rej
  lastCmd : t.status.lastCmd = s.status.lastCmd
  inBase : t.inBase = s.inBase
  inLen : t.inLen = s.inLen
  outBase : t.outBase = s.outBase
  maxSize : t.maxSize = s.maxSize
  winLen : t.winLen = s.winLen
  winEff : t.winEff = s.winEff
  ibuf : t.ibuf = s.ibuf
  hostFault : t.hostFault = s.hostFault
  schedule : t.schedule = s.schedule
  reads : t.reads = s.reads

theorem EngineFrame.refl (s : State) : EngineFrame s s := by constructor <;> rfl

theorem EngineFrame.trans {s t u : State} (h : EngineFrame s t) (k : EngineFrame t u) : EngineFrame s u := by
  cases h; cases k; constructor <;> simp [*]

/-- What a block element leaves as it was beside: both hash contexts. -/
structure BlockFrame (s t : State) : Prop extends EngineFrame s t where
  h0 : t.h0 = s.h0
  h1 : t.h1 = s.h1

theorem BlockFrame.refl (s : State) : BlockFrame s s := ⟨.refl s, rfl, rfl⟩

theorem BlockFrame.trans {s t u : State} (h : BlockFrame s t) (k : BlockFrame t u) : BlockFrame s u :=
  ⟨h.toEngineFrame.trans k.toEngineFrame, k.h0.trans h.h0, k.h1.trans h.h1⟩

theorem raiseError_frame (code : ErrCode) (s : State) : BlockFrame s (raiseError code s) :=
  ⟨by constructor <;> rfl, rfl, rfl⟩

theorem finish_frame (s : State) : BlockFrame s (finish s) := ⟨by constructor <;> rfl, rfl, rfl⟩

theorem enter_frame (s : State) (st : EngState) : BlockFrame s (s.enter st) := ⟨by constructor <;> rfl, rfl, rfl⟩

theorem appendByte_frame {b : Byte} {last : EngState} {s t : State} (h : appendByte b last s = .next t) :
    BlockFrame s t := by
  obtain ⟨-, rfl⟩ := appendByte_next h
  refine ⟨?_, rfl, rfl⟩
  constructor <;> first | rfl | (dsimp only; split <;> rfl)

theorem extensionStep_frame {e : Byte} {last : EngState} {s t : State} (h : extensionStep e last s = .next t) :
    BlockFrame s t := by
  obtain ⟨-, rfl⟩ | ⟨-, rfl⟩ := extensionStep_next h
  · exact raiseError_frame _ _
  · refine ⟨?_, rfl, rfl⟩
    constructor <;> first | rfl | (dsimp only; split <;> rfl)

theorem execToken_frame {b : Byte} {s t : State} (h : execToken b s = .next t) : BlockFrame s t := by
  unfold execToken at h
  split at h
  · cases h; exact raiseError_frame _ _
  · cases h; exact ⟨by constructor <;> rfl, rfl, rfl⟩

theorem execLiteral_frame {b : Byte} {s t : State} (h : execLiteral b s = .next t) : BlockFrame s t :=
  .trans (t := advanceInput s) ⟨by constructor <;> rfl, rfl, rfl⟩ (appendByte_frame h)

theorem offsetLowStep_frame {b : Byte} {s t : State} (h : offsetLowStep b s = .next t) : BlockFrame s t := by
  unfold offsetLowStep at h
  split at h
  · cases h; exact finish_frame _
  · cases h; exact ⟨by constructor <;> rfl, rfl, rfl⟩

theorem offsetHighStep_frame {b : Byte} {s t : State} (h : offsetHighStep b s = .next t) : BlockFrame s t := by
  unfold offsetHighStep at h
  split at h
  · cases h; exact raiseError_frame _ _
  · cases h; exact ⟨by constructor <;> rfl, rfl, rfl⟩

theorem litchkStep_frame {s t : State} (h : litchkStep s = .next t) : BlockFrame s t := by
  obtain ⟨-, rfl⟩ | ⟨-, -, rfl⟩ | ⟨-, -, rfl⟩ := litchkStep_next h
  · exact raiseError_frame _ _
  · exact raiseError_frame _ _
  · exact enter_frame _ _

theorem mchkStep_frame {s t : State} (h : mchkStep s = .next t) : BlockFrame s t := by
  refine .trans (t := { s with dCount := sat32 (s.dCount.toNat + Config.minMatch) })
    ⟨by constructor <;> rfl, rfl, rfl⟩ ?_
  obtain ⟨-, rfl⟩ | ⟨-, -, rfl⟩ | ⟨-, -, -, rfl⟩ | ⟨-, -, -, rfl⟩ := matchChecks_next h
  · exact raiseError_frame _ _
  · exact raiseError_frame _ _
  · exact raiseError_frame _ _
  · exact enter_frame _ _

theorem copyStep_frame {s t : State} (h : copyStep s = .next t) : BlockFrame s t :=
  appendByte_frame (engineRead_next h).2

theorem rawStep_frame {s t : State} (h : rawStep s = .next t) : BlockFrame s t := by
  unfold rawStep at h
  split at h
  · cases h; exact raiseError_frame _ _
  · split at h
    · cases h; exact finish_frame _
    · obtain ⟨-, h⟩ := engineRead_next h
      obtain ⟨-, h⟩ := engineWrite_next h
      cases h
      split
      · exact ⟨by constructor <;> rfl, rfl, rfl⟩
      · exact ⟨by constructor <;> rfl, rfl, rfl⟩

/-- What a first part keeps and the second keeps, the two in sequence keep. -/
theorem andThen_frame {r : Result} {k : State → Result} {s t : State} (hr : ∀ u, r = .next u → BlockFrame s u)
    (hk : ∀ u v, k u = .next v → BlockFrame u v) (h : andThen r k = .next t) : BlockFrame s t := by
  obtain ⟨u, hu, ⟨-, rfl⟩ | ⟨-, hv⟩⟩ := andThen_next h
  · exact hr _ hu
  · exact (hr u hu).trans (hk u t hv)

theorem andThenEach_frame {f : Byte → State → Result} {bytes : List Byte} {r : Result} {s t : State}
    (hr : ∀ u, r = .next u → BlockFrame s u) (hf : ∀ b u v, f b u = .next v → BlockFrame u v)
    (h : andThenEach f bytes r = .next t) : BlockFrame s t :=
  andThenEach_induct (P := BlockFrame s) (fun b u v hu _ hv => hu.trans (hf b u v hv)) bytes r hr t h

theorem execOffset_frame {o : BitVec 16} {s t : State} (h : execOffset o s = .next t) : BlockFrame s t :=
  andThen_frame (fun _ => offsetLowStep_frame) (fun _ _ => offsetHighStep_frame) h

theorem sequenceHead_frame {b : Byte} {lits : List Byte} {s t : State} (h : sequenceHead b lits s = .next t) :
    BlockFrame s t :=
  andThenEach_frame
    (fun _ => andThen_frame (fun _ => andThenEach_frame (fun _ => execToken_frame) (fun _ _ _ => extensionStep_frame))
      (fun _ _ => litchkStep_frame))
    (fun _ _ _ => execLiteral_frame) h

theorem copyRun_frame {s t : State} (h : copyRun s = .next t) : BlockFrame s t :=
  andThenTimes_induct (P := BlockFrame s) (fun _ _ hu _ hv => hu.trans (copyStep_frame hv)) _ _
    (fun u hu => by cases hu; exact .refl s) t h

theorem execSeq_frame {lits : List Byte} {off : BitVec 16} {mraw : Nat} {s t : State}
    (h : execSeq lits off mraw s = .next t) : BlockFrame s t :=
  andThen_frame
    (fun _ => andThen_frame
      (fun _ => andThenEach_frame
        (fun _ => andThen_frame (fun _ => sequenceHead_frame) (fun _ _ => execOffset_frame))
        (fun _ _ _ => extensionStep_frame))
      (fun _ _ => mchkStep_frame))
    (fun _ _ => copyRun_frame) h

theorem endOfBlock_frame {s t : State} (h : endOfBlock s = .next t) : BlockFrame s t := by
  unfold endOfBlock at h
  split at h
  · cases h; exact finish_frame _
  · cases h; exact .refl _

theorem execLast_frame {lits : List Byte} {ml : BitVec 4} {s t : State} (h : execLast lits ml s = .next t) :
    BlockFrame s t :=
  andThen_frame (fun _ => sequenceHead_frame) (fun _ _ => endOfBlock_frame) h

/-- A block element keeps the block frame. -/
theorem exec_frame {i : Instr} {s t : State} (hi : i.opcode = none) (h : exec i s = .next t) : BlockFrame s t := by
  cases i with
  | ack => cases hi
  | decStart => cases hi
  | rawCopy => cases hi
  | hashInit => cases hi
  | hashUpdate => cases hi
  | hashDigest => cases hi
  | softReset => cases hi
  | token b => exact execToken_frame h
  | lext e => exact extensionStep_frame h
  | literal b => exact execLiteral_frame h
  | offset o => exact execOffset_frame h
  | mext e => exact extensionStep_frame h
  | seq lits off mraw => exact execSeq_frame h
  | last lits ml => exact execLast_frame h

theorem setHash_frame (s : State) (c : Ctx) (h : HashCtx) : EngineFrame s (s.setHash c h) := by
  cases c <;> constructor <;> rfl

theorem habsStep_frame {s t : State} (h : habsStep s = .next t) : EngineFrame s t := by
  obtain ⟨-, h⟩ := engineRead_next h
  cases h
  unfold habsWith
  dsimp only
  split
  · exact (setHash_frame _ _ _).trans (finish_frame _).toEngineFrame
  · exact setHash_frame _ _ _

theorem elementTurn_frame {atEnd : State → Result} {element : Byte → State → Result} {s t : State}
    (ha : ∀ u, atEnd s = .next u → BlockFrame s u) (he : ∀ b u, element b s = .next u → BlockFrame s u)
    (h : elementTurn atEnd element s = .next t) : BlockFrame s t := by
  obtain ⟨-, h⟩ | ⟨-, -, h⟩ := elementTurn_next h
  · exact ha _ h
  · exact he _ _ h

theorem truncatedEnd_frame {s t : State} (h : truncatedEnd s = .next t) : BlockFrame s t := by
  cases h; exact raiseError_frame _ _

theorem finishEnd_frame {s t : State} (h : finishEnd s = .next t) : BlockFrame s t := by
  cases h; exact finish_frame _

theorem engineAction_frame {s t : State} (h : engineAction s = .next t) : EngineFrame s t := by
  unfold engineAction at h
  split at h
  · cases h
  · exact (elementTurn_frame (fun _ => truncatedEnd_frame) (fun _ _ => execToken_frame) h).toEngineFrame
  · exact (elementTurn_frame (fun _ => truncatedEnd_frame) (fun _ _ => extensionStep_frame) h).toEngineFrame
  · exact (litchkStep_frame h).toEngineFrame
  · exact (execLiteral_frame (engineRead_next h).2).toEngineFrame
  · exact (elementTurn_frame (fun _ => finishEnd_frame) (fun _ _ => offsetLowStep_frame) h).toEngineFrame
  · exact (elementTurn_frame (fun _ => truncatedEnd_frame) (fun _ _ => offsetHighStep_frame) h).toEngineFrame
  · exact (elementTurn_frame (fun _ => truncatedEnd_frame) (fun _ _ => extensionStep_frame) h).toEngineFrame
  · exact (mchkStep_frame h).toEngineFrame
  · exact (copyStep_frame h).toEngineFrame
  · exact (rawStep_frame h).toEngineFrame
  · exact habsStep_frame h

theorem engineStep_frame {s t : State} (h : engineStep s = .next t) : EngineFrame s t := by
  unfold engineStep at h
  split at h
  · exact engineAction_frame h
  · cases h; exact .refl s

/-- The instruction of a fused turn stands in a block, so it is no command. -/
theorem afterLiterals_opcode {lits : List Byte} {ml : BitVec 4} {bytes rest : List Byte} {i : Instr}
    (h : Decode.afterLiterals lits ml bytes = .ok (i, rest)) : i.opcode = none := by
  unfold Decode.afterLiterals at h
  split at h
  · cases h; rfl
  · cases h
  · split at h
    · cases h
    · cases h; rfl

theorem sequence_opcode {bytes rest : List Byte} {i : Instr} (h : Decode.sequence bytes = .ok (i, rest)) :
    i.opcode = none := by
  unfold Decode.sequence at h
  split at h
  · cases h
  · split at h
    · cases h
    · split at h
      · cases h
      · exact afterLiterals_opcode h

theorem decodedInstr_some {r : Except DecodeError (Instr × List Byte)} {i : Instr} (h : decodedInstr r = some i) :
    ∃ rest, r = .ok (i, rest) := by
  unfold decodedInstr at h
  split at h
  · cases h; exact ⟨_, rfl⟩
  · cases h

/-- What a fused turn takes: a whole sequence at TOKEN, or an offset at OFF0. -/
theorem fusedInstr_some {s : State} {i : Instr} (h : fusedInstr s = some i) :
    s.inputFits ∧
    ((s.status.state = .token ∧ ∃ rest, Decode.sequence s.inputLeft = .ok (i, rest)) ∨
      (s.status.state = .off0 ∧ ∃ rest, decode .offset s.inputLeft = .ok (i, rest))) := by
  unfold fusedInstr at h
  split at h
  · cases h
  · rename_i slot hslot
    split at h
    · refine ⟨‹_›, ?_⟩
      cases hst : s.status.state <;> rw [hst] at hslot <;> cases hslot
      · exact .inl ⟨rfl, decodedInstr_some h⟩
      · exact .inr ⟨rfl, decodedInstr_some h⟩
    · cases h

theorem fusedInstr_opcode {s : State} {i : Instr} (h : fusedInstr s = some i) : i.opcode = none := by
  obtain ⟨-, ⟨-, rest, h⟩ | ⟨-, rest, h⟩⟩ := fusedInstr_some h
  · exact sequence_opcode h
  · unfold decode at h
    split at h <;> first | contradiction | (cases h; rfl)

theorem fusedStep_frame {s t : State} (h : fusedStep s = .next t) : EngineFrame s t := by
  unfold fusedStep at h
  split at h
  · split at h
    · exact (exec_frame (fusedInstr_opcode ‹_›) h).toEngineFrame
    · exact engineAction_frame h
  · cases h; exact .refl s

end Sys2Proof.Machine
end

