-- ==== Sys2Proof/Laws/FrameHost.lean ====
section
/-!
SUPPORT. What a rejection of a frame does to the machine.
-/

namespace Sys2Proof.Machine

/-- With no error shown, a rejection leaves the machine as it is. -/
theorem rejectFrame_clear {reason : FrameError} {st : FrameState} {s : State} (h : s.status.err = false) :
    Frame.rejectFrame reason st s = .rejected reason st s := by
  simp [Frame.rejectFrame, h]

/-- The ACK of the frame host is the instruction ACK. -/
theorem hostDo_ack (s : State) : hostDo (Asm.cmd 0x00) s = exec .ack s := rfl

/-- With an error shown and no command running, a rejection leaves the machine as ACK does. -/
theorem rejectFrame_error {reason : FrameError} {st : FrameState} {s : State} (h : s.status.err = true)
    (hb : s.status.busy = false) :
    Frame.rejectFrame reason st s = .rejected reason st (clearReject (prologue 0x00 s)) := by
  rw [Frame.rejectFrame, if_pos h, hostDo_ack, exec, execAck, acceptCommand_idle hb, Frame.after]

/-- A rejection has no other outcome, and it leaves no error where none is recorded while a command runs (R37, R153). -/
theorem rejectFrame_err {reason reason' : FrameError} {st st' : FrameState} {s t : State}
    (hs : s.status.busy = true → s.status.err = false) (h : Frame.rejectFrame reason st s = .rejected reason' st' t) :
    reason' = reason ∧ st' = st ∧ t.status.err = false := by
  cases he : s.status.err with
  | false => rw [rejectFrame_clear he] at h; cases h; exact ⟨rfl, rfl, he⟩
  | true =>
    have hb : s.status.busy = false := by
      cases hb : s.status.busy with
      | false => rfl
      | true => rw [hs hb] at he; cases he
    rw [rejectFrame_error he hb] at h
    cases h
    exact ⟨rfl, rfl, rfl⟩

end Sys2Proof.Machine
end

