-- ==== Sys2Proof/Laws/PerInstr.lean ====
section
/-!
SUPPORT. What is said of every instruction as syntax, one lemma for each constructor.
-/

namespace Sys2Proof.Laws.CommandEncoding

/-- An instruction with an opcode is a command: it stands in a word written to CMD, and its word is the opcode with 24 zero bits above
(R132, R133). One without an opcode stands in a block. -/
def Statement (i : Instr) : Prop :=
  (∀ op, i.opcode = some op → i.slot = .command ∧ encode i = [op, 0, 0, 0]) ∧ (i.opcode = none → i.slot ≠ .command)

theorem ack : Statement .ack := by simp [Statement, Instr.opcode, Instr.slot, encode, Encode.command]

theorem decStart : Statement .decStart := by simp [Statement, Instr.opcode, Instr.slot, encode, Encode.command]

theorem rawCopy : Statement .rawCopy := by simp [Statement, Instr.opcode, Instr.slot, encode, Encode.command]

theorem hashInit : Statement .hashInit := by simp [Statement, Instr.opcode, Instr.slot, encode, Encode.command]

theorem hashUpdate : Statement .hashUpdate := by simp [Statement, Instr.opcode, Instr.slot, encode, Encode.command]

theorem hashDigest : Statement .hashDigest := by simp [Statement, Instr.opcode, Instr.slot, encode, Encode.command]

theorem softReset : Statement .softReset := by simp [Statement, Instr.opcode, Instr.slot, encode, Encode.command]

theorem token (t : Byte) : Statement (.token t) := by simp [Statement, Instr.opcode, Instr.slot]

theorem lext (e : Byte) : Statement (.lext e) := by simp [Statement, Instr.opcode, Instr.slot]

theorem literal (b : Byte) : Statement (.literal b) := by simp [Statement, Instr.opcode, Instr.slot]

theorem offset (o : BitVec 16) : Statement (.offset o) := by simp [Statement, Instr.opcode, Instr.slot]

theorem mext (e : Byte) : Statement (.mext e) := by simp [Statement, Instr.opcode, Instr.slot]

theorem seq (lits : List Byte) (off : BitVec 16) (mraw : Nat) : Statement (.seq lits off mraw) := by
  simp [Statement, Instr.opcode, Instr.slot]

theorem last (lits : List Byte) (ml : BitVec 4) : Statement (.last lits ml) := by
  simp [Statement, Instr.opcode, Instr.slot]

end Sys2Proof.Laws.CommandEncoding
end

