-- ==== Sys2Proof/Tests/Slice0.lean ====
section
/-!
SUPPORT. Small tests: what WellFormed refuses, words of spec/30_encoding.md decoded, vectors of spec/95_test_vectors.md run for one step or
one instruction, and a witness for the hypotheses of every obligation that has some.
-/

open Sys2Proof.Machine Sys2Proof.Claims

namespace Sys2Proof.Tests

/-! ### States the tests start from -/

/-- A result that is a next state of which `p` holds. -/
def gives (r : Result) (p : State → Bool) : Bool :=
  match r with
  | .next t => p t
  | .fault _ => false
  | .refused _ => false

def small : Params := { ibufSize := 64, obufSize := 64 }

def idle : State := State.powerOn small

/-- Bytes listed from an address on. -/
def listing : Nat → List Byte → Memory
  | _, [] => []
  | a, b :: rest => (a, b) :: listing (a + 1) rest

/-- An idle machine with a payload at `IB(0)` and 64 bytes of room at `OB(0)`. -/
def loaded (bytes : List Byte) : State :=
  { idle with ibuf := listing 0 bytes, inLen := BitVec.ofNat 32 bytes.length, maxSize := 64 }

/-- That machine running a command in a state. -/
def running (op : BitVec 8) (st : EngState) (bytes : List Byte) : State :=
  { loaded bytes with status := runningStatus idle op st }

/-- A decoder in MCHK with one byte of output and a match of raw length `n`. -/
def atMchk (off : BitVec 16) (n : Word) : State :=
  { running 0x01 .mchk [] with outLen := 1, dCount := n, dOffset := off }

/-- A decoder in COPY, one byte from the end of a match of offset 1. -/
def atCopy : State :=
  { running 0x01 .copy [] with outLen := 1, dCount := 1, dOffset := 1, obuf := [(0, 0x61)] }

/-- A HASH_UPDATE that has `n` bytes in the stripe buffer and two to absorb. -/
def atHabs (n : Fin 16) : State :=
  { running 0x11 .habs [0x61, 0x62] with h0 := { HashCtx.reset with len := 2, count := n } }

/-! ### WellFormed -/

/-- An offset of 0 may not be written (R125, R135). -/
theorem test_wellFormed_refuses_offset_zero : (Instr.offset 0).wellFormed = false := by decide

/-- Nor in a sequence. -/
theorem test_wellFormed_refuses_seq_offset_zero : (Instr.seq [0x61] 0 4).wellFormed = false := by decide

theorem test_wellFormed_takes_the_largest_offset : (Instr.offset 65535).wellFormed = true := by decide

/-! ### Decoding: words written out from R121 to R136 -/

theorem test_decode_ack : decode .command [0b00000000, 0, 0, 0] = .ok (.ack, []) := by rfl

theorem test_decode_decStart : decode .command [0b00000001, 0, 0, 0] = .ok (.decStart, []) := by rfl

theorem test_decode_rawCopy : decode .command [0b00000010, 0, 0, 0] = .ok (.rawCopy, []) := by rfl

theorem test_decode_hashInit : decode .command [0b00010000, 0, 0, 0] = .ok (.hashInit, []) := by rfl

theorem test_decode_hashUpdate : decode .command [0b00010001, 0, 0, 0] = .ok (.hashUpdate, []) := by rfl

/-- C4: the upper bits are ignored. -/
theorem test_decode_hashDigest : decode .command [0b00010010, 1, 0, 0] = .ok (.hashDigest, []) := by rfl

theorem test_decode_softReset : decode .command [0b11111111, 0, 0, 0] = .ok (.softReset, []) := by rfl

/-- C1: 0x03 is reserved. -/
theorem test_decode_reserved : decode .command [0b00000011, 0, 0, 0] = .error (.reservedOpcode 0x03) := by rfl

/-- D12: `53` is five literals and a match nibble of 3. -/
theorem test_decode_token :
    decode .token [0b01010011] = .ok (.token 0x53, []) ∧ Decode.literalNibble 0x53 = 5 ∧ Decode.matchNibble 0x53 = 3 := by
  decide +revert

theorem test_decode_lext : decode .lext [0b11111111] = .ok (.lext 0xFF, []) := by rfl

theorem test_decode_literal : decode .literal [0b01001000] = .ok (.literal 0x48, []) := by rfl

/-- The low byte comes first (R125). -/
theorem test_decode_offset : decode .offset [0b00000010, 0b00000001] = .ok (.offset 258, []) := by rfl

theorem test_decode_mext : decode .mext [0b00000001] = .ok (.mext 1, []) := by rfl

/-- D7's sequence: Mraw = 15 + 255 + 1, so M = 275. -/
theorem test_decode_seq :
    decode .sequence [0x1F, 0x78, 0x01, 0x00, 0xFF, 0x01, 0x00] = .ok (.seq [0x78] 1 271, [0x00]) := by rfl

/-- D4: fifteen literals, one extension byte of 0. -/
theorem test_decode_last :
    decode .sequence ([0xF0, 0x00] ++ List.replicate 15 0x41) = .ok (.last (List.replicate 15 0x41) 0, []) := by rfl

/-- R136: the assembler's bytes for `SEQ "x", off=1, len=275` (D7) and `LAST "z", ml=3` (D8). -/
theorem test_encode_seq_last :
    encode (.seq [0x78] 1 271) = [0x1F, 0x78, 0x01, 0x00, 0xFF, 0x01] ∧ encode (.last [0x7A] 3) = [0x13, 0x7A] := by
  decide

/-- Two words as the opcode table numbers their bits: a command of four bytes and an offset of two. -/
theorem test_decodeTableWord :
    decodeTableWord 32 0x112 = some .hashDigest ∧ decodeTableWord 8 0xFF = some .softReset ∧
    decodeTableWord 16 0x0102 = some (.offset 258) := by decide

/-! ### Commands -/

/-- C6: ACK after OFFSET_RANGE at MCHK. -/
theorem test_ack :
    gives (exec .ack { idle with status :=
      { Status.reset with err := true, errCode := .offsetRange, errState := .mchk, lastCmd := 0x01 } })
      (fun t => t.status.word == 0x00000000) = true := by decide

/-- D12, before its first step. -/
theorem test_decStart :
    gives (exec .decStart { loaded [0x53] with outLen := 7 }) (fun t => t.status.word == 0x00010101 && t.outLen == 0) = true := by
  decide

/-- L4: WIN_LEN above OUT_BASE is CONFIG. -/
theorem test_decStart_window :
    gives (exec .decStart { loaded [0x01] with
      ctrl := { Ctrl.reset with linked := true }, winLen := 7, outBase := 3, maxSize := 8 })
      (fun t => t.status.word == 0x00010054 && t.winEff == 0) = true := by decide

/-- R6: the output bound leaves OBUF. -/
theorem test_rawCopy :
    gives (exec .rawCopy { loaded [0x61] with params := { ibufSize := 16, obufSize := 16 }, outBase := 10, maxSize := 7 })
      (fun t => t.status.word == 0x00020054) = true := by decide

/-- H12's lanes for seed 1. -/
theorem test_hashInit :
    gives (exec .hashInit { idle with h0 := { HashCtx.reset with seed := 1 } })
      (fun t => t.status.word == 0x00100002 && t.h0.v1 == 0x24234429 && t.h0.v4 == 0x61C88650) = true := by decide

/-- H19: nothing to absorb. -/
theorem test_hashUpdate :
    gives (exec .hashUpdate idle) (fun t => t.status.word == 0x00110002) = true := by decide

/-- H22: with HSRC the bound is the OBUF size. -/
theorem test_hashUpdate_source :
    gives (exec .hashUpdate { idle with
      params := { ibufSize := 16, obufSize := 32 }, ctrl := { Ctrl.reset with hsrc := true },
      h0 := { HashCtx.reset with addr := 10, len := 7 } }) (fun t => t.status.word == 0x00110B01) = true := by decide

/-- H16, in context 1. -/
theorem test_hashDigest :
    gives (exec .hashDigest { idle with ctrl := { Ctrl.reset with hctx := true } })
      (fun t => t.status.word == 0x00120002 && t.h1.digest == 0x02CC5D05 && t.h0.digest == 0) = true := by decide

/-- H3 and H4: "abc", a tail of bytes, and "abcd", a tail of one word. -/
theorem test_hashDigest_tail :
    ((HashCtx.reset.init 0).absorbAll [0x61, 0x62, 0x63]).digestValue = 0x32D153FF ∧
    ((HashCtx.reset.init 0).absorbAll [0x61, 0x62, 0x63, 0x64]).digestValue = 0xA3643705 := by decide

/-- C13: SOFT_RESET of a running decode; the output so far stays. -/
theorem test_softReset :
    gives (exec .softReset atCopy)
      (fun t => t.status.word == 0 && t.inLen == 0 && t.byteAt .obuf 0 == 0x61) = true := by decide

/-! ### Elements -/

/-- D12, step 1. -/
theorem test_token :
    gives (exec (.token 0x53) (running 0x01 .token [0x53, 0x48]))
      (fun t => t.status.word == 0x00010301 && t.inPos == 1 && t.dCount == 5 && t.dToken == 0x53) = true := by decide

/-- E3: after `FF` the run goes on, at 270. -/
theorem test_lext :
    gives (exec (.lext 0xFF) { running 0x01 .lext [0xF0, 0xFF, 0x00] with inPos := 1, dCount := 15 })
      (fun t => t.status.word == 0x00010201 && t.dCount == 270) = true := by decide

/-- R191: D_COUNT saturates. -/
theorem test_lext_saturates :
    gives (exec (.lext 0xFE) { running 0x01 .lext [0xF0, 0xFE] with inPos := 1, dCount := 0xFFFFFFF0 })
      (fun t => t.dCount == 0xFFFFFFFF) = true := by decide

/-- D12, step 7: the last literal. -/
theorem test_literal :
    gives (exec (.literal 0x6F) { running 0x01 .lit [0x53, 0x48, 0x65, 0x6C, 0x6C, 0x6F, 0x02] with
      inPos := 5, outLen := 4, dCount := 1 })
      (fun t => t.status.word == 0x00010501 && t.byteAt .obuf 4 == 0x6F && t.outLen == 5) = true := by decide

/-- D12, steps 8 and 9. -/
theorem test_offset :
    gives (exec (.offset 2) { running 0x01 .off0 [0x53, 0x48, 0x65, 0x6C, 0x6C, 0x6F, 0x02, 0x00, 0x10, 0x21] with
      inPos := 6, dToken := 0x53 })
      (fun t => t.status.word == 0x00010801 && t.inPos == 8 && t.dCount == 3 && t.dOffset == 2) = true := by decide

/-- E5: the input ends inside the offset. -/
theorem test_offset_truncated :
    gives (exec (.offset 1) { running 0x01 .off0 [0x10, 0x61, 0x01] with inPos := 2, dToken := 0x10 })
      (fun t => t.status.word == 0x00016034 && t.inPos == 3 && t.dOffset == 1) = true := by decide

/-- D6's MEXT byte 0 ends the run. -/
theorem test_mext :
    gives (exec (.mext 0) { running 0x01 .mext [0x1F, 0x78, 0x01, 0x00, 0x00, 0x00] with inPos := 4, dCount := 15 })
      (fun t => t.status.word == 0x00010801 && t.dCount == 15) = true := by decide

/-- D2: the overlapping match of `SEQ "ab", off=2, len=7`. -/
theorem test_seq :
    gives (exec (.seq [0x61, 0x62] 2 3) (running 0x01 .token [0x23, 0x61, 0x62, 0x02, 0x00, 0x00]))
      (fun t => t.status.word == 0x00010101 && t.outLen == 9 &&
        t.bytesAt .obuf 0 9 == [0x61, 0x62, 0x61, 0x62, 0x61, 0x62, 0x61, 0x62, 0x61]) = true := by decide

/-- E8: an offset past the output. -/
theorem test_seq_range :
    gives (exec (.seq [0x61] 2 0) (running 0x01 .token [0x10, 0x61, 0x02, 0x00, 0x00]))
      (fun t => t.status.word == 0x00018024 && t.outLen == 1 && t.dCount == 4 && t.dOffset == 2) = true := by decide

/-- D8: the ML nibble of the last token is ignored. -/
theorem test_last :
    gives (exec (.last [0x7A] 3) (running 0x01 .token [0x13, 0x7A]))
      (fun t => t.status.word == 0x00010002 && t.bytesAt .obuf 0 1 == [0x7A] && t.dToken == 0x13) = true := by decide

/-- A word of the table runs as the first step after reset: C4. -/
theorem test_withFetchWord_command :
    gives (step (State.reset.withFetchWord 32 0x112)) (fun t => t.h0.digest == 0x02CC5D05) = true := by decide

/-- So does an element: a literal byte, at `OUT(0)`. -/
theorem test_withFetchWord_literal :
    gives (step (State.reset.withFetchWord 8 0x48)) (fun t => t.byteAt .obuf 0 == 0x48 && t.inPos == 1) = true := by decide

/-! ### Engine steps with no element -/

/-- E17: TRUNCATED comes before OUTPUT_LIMIT. -/
theorem test_litchk :
    gives (engineStep { running 0x01 .litchk [0x30, 0x61, 0x62] with inPos := 1, dCount := 3, maxSize := 2 })
      (fun t => t.status.word == 0x00013034) = true := by decide

/-- E10: one byte too many for MAX_SIZE, and D_COUNT is the completed length. -/
theorem test_mchk :
    gives (engineStep { atMchk 1 0 with maxSize := 4 })
      (fun t => t.status.word == 0x00018044 && t.dCount == 4) = true := by decide

/-- R3: the first step finds OUTPUT_LIMIT. -/
theorem test_raw :
    gives (engineStep { running 0x02 .raw [0x61, 0x62, 0x63, 0x64, 0x65] with maxSize := 4 })
      (fun t => t.status.word == 0x0002A044 && t.outLen == 0) = true := by decide

/-- H17: after one step. -/
theorem test_habs :
    gives (engineStep { running 0x11 .habs [0x00, 0x01] with h0 := { HashCtx.reset with len := 2 } })
      (fun t => t.status.word == 0x00110B01 && t.readWindow 0x4C == 1 && t.readWindow 0x5C == 0x001) = true := by decide

/-- H8: sixteen zero bytes, the lanes after one stripe and the digest of the rotated lane sum. -/
theorem test_stripe_zeros :
    let h := (HashCtx.reset.init 0).absorbAll (List.replicate 16 0)
    h.bufcnt = 0x100 ∧ h.v1 = 0x93768344 ∧ h.v2 = 0x8DF8C7AD ∧ h.v3 = 0 ∧ h.v4 = 0xFA824469 ∧
    h.digestValue = 0x8E022B3A := by decide

/-- H9: the alphabet, a stripe and then a tail of two words and two bytes. -/
theorem test_stripe_alphabet :
    let h := (HashCtx.reset.init 0).absorbAll ((List.range 26).map (fun i => BitVec.ofNat 8 (0x61 + i)))
    h.bufcnt = 0x10A ∧ h.v1 = 0xE7D631C0 ∧ h.v2 = 0x64734CDF ∧ h.v3 = 0xD5391599 ∧ h.v4 = 0x410C50B8 ∧
    h.digestValue = 0x63A14D5F := by decide

/-! ### The register window -/

/-- C1. -/
theorem test_reserved_opcode :
    gives (hostAct (.regWrite 0x08 4 0x03) idle) (fun t => t.status.word == 0x00000008) = true := by decide

/-- C8 to C10: while busy a configuration write sets REJ and CTRL keeps all but IRQ_EN. -/
theorem test_busy_writes :
    gives (hostAct (.regWrite 0x14 4 5) atCopy) (fun t => t.inLen == 0 && t.status.rej) = true ∧
    gives (hostAct (.regWrite 0x04 4 0xF) atCopy) (fun t => t.readWindow 0x04 == 0x4 && !t.status.rej) = true := by
  decide

/-- X1: a wrong magic, with no command issued. -/
theorem test_frame_magic :
    frameDecode 4 (loaded [0x04, 0x22, 0x4D, 0x19]) =
      .rejected .badMagic .expectMagic (loaded [0x04, 0x22, 0x4D, 0x19]) := by decide

/-- An idle machine that shows E1's error, TRUNCATED at TOKEN, with four bytes of a frame that is none. -/
def afterError : State :=
  { loaded [0x04, 0x22, 0x4D, 0x19] with
    status := { Status.reset with err := true, errCode := .truncated, errState := .token, lastCmd := 0x01 } }

/-- R270: the rejection sends ACK, since the machine shows ERR. -/
theorem test_frame_reject_acknowledges :
    frameDecode 4 afterError = .rejected .badMagic .expectMagic (loaded [0x04, 0x22, 0x4D, 0x19]) := by decide

/-! ### Witnesses: states that meet the hypotheses of the obligations -/

/-- The states below meet the invariant. -/
theorem inv_idle : idle.Inv := ⟨by decide, by decide, by decide, by decide⟩

theorem inv_loaded : (loaded [0x13, 0x7A]).Inv := ⟨by decide, by decide, by decide, by decide⟩

theorem inv_token : (running 0x01 .token [0x13, 0x7A]).Inv := ⟨by decide, by decide, by decide, by decide⟩

theorem inv_seq : (running 0x01 .token [0x23, 0x61, 0x62, 0x02, 0x00, 0x00]).Inv :=
  ⟨by decide, by decide, by decide, by decide⟩

theorem inv_copy : atCopy.Inv := ⟨by decide, by decide, by decide, by decide⟩

theorem inv_raw : (running 0x02 .raw [0x61]).Inv := ⟨by decide, by decide, by decide, by decide⟩

theorem inv_raw_over : ({ running 0x02 .raw [0x61] with maxSize := 0 } : State).Inv :=
  ⟨by decide, by decide, by decide, by decide⟩

theorem inv_raw_empty : (running 0x02 .raw []).Inv := ⟨by decide, by decide, by decide, by decide⟩

theorem inv_habs_first : (atHabs 0).Inv := ⟨by decide, by decide, by decide, by decide⟩

theorem inv_habs_last : (atHabs 15).Inv := ⟨by decide, by decide, by decide, by decide⟩

theorem inv_error : (running 0x01 .token []).Inv := ⟨by decide, by decide, by decide, by decide⟩

/-- The last word offset of the window, reserved and reset to 0, and the last register. -/
theorem witness_ResetLeavesEveryRegisterAtItsResetValue :
    0xFC % 4 = 0 ∧ 0xFC < 256 ∧ resetColumn 0xFC = 0 ∧ resetColumn 0xAC = 0x61C8864F := by decide

theorem witness_RegisterMapIsOneToOne :
    Reg.ofOffset 0xAC = some (.hV4 .c1) ∧ Reg.ofOffset 0xFC = none ∧ reservedOffset 0xFC ∧ ¬reservedOffset 0xAC := by
  decide

theorem witness_BusyCtrlWriteChangesOnlyIrqEnable : atCopy.status.busy = true := by decide

theorem witness_IdleCtrlWriteStoresTheModeBits : idle.status.busy = false := by decide

theorem witness_ConfigWriteIsStoredOnlyWhenIdle :
    Reg.inBase ∈ configRegs ∧ Reg.hLen .c1 ∈ configRegs ∧ atCopy.status.busy = true ∧ idle.status.busy = false := by
  decide

theorem witness_ReadOnlyWriteIsIgnored : Reg.id ∈ readOnlyRegs ∧ Reg.hV4 .c1 ∈ readOnlyRegs := by decide

theorem witness_ReservedOffsetsReadZeroAndIgnoreWrites :
    reservedOffset 0x3C ∧ reservedOffset 0x70 ∧ reservedOffset 0x7C ∧ reservedOffset 0xB0 ∧ reservedOffset 0xFC := by
  decide

/-- The last aligned word, and the nearest bad accesses: past the end, unaligned, narrow. -/
theorem witness_RegisterAccessIsAlignedWordsOnly :
    goodAccess 0xFC 4 ∧ ¬goodAccess 0x100 4 ∧ ¬goodAccess 0xFD 4 ∧ ¬goodAccess 0xFC 2 := by decide

/-- The last byte of a buffer and the first address past it. -/
theorem witness_BufferAccessFollowsTheHostContract : 63 < idle.spaceSize .obuf ∧ idle.spaceSize .ibuf ≤ 64 := by decide

theorem witness_InterruptFollowsCompletion : (0xB#32).getLsbD 2 = false := by decide

/-- The third state is the rule's example. -/
theorem witness_AckClearsTheRecord :
    idle.status.busy = false ∧ atCopy.status.busy = true ∧
    ({ Status.reset with err := true, errCode := .offsetRange, errState := .mchk, lastCmd := 0x01 } : Status).word =
      0x00018024 := by decide

/-- All bounds met with equality, linked; and one byte too many. -/
theorem witness_DecStartStartsTheDecoderOrFailsConfig :
    let s := { idle with params := { ibufSize := 64, obufSize := 65600 }, inLen := 64, outBase := 65536, maxSize := 64,
                         winLen := 65536, ctrl := { Ctrl.reset with linked := true } }
    s.status.busy = false ∧ s.cfgDec ∧ ¬({ s with winLen := 65537 } : State).cfgDec ∧
    ¬({ s with inLen := 65 } : State).cfgDec := by decide

/-- Bounds met with equality whatever the window; and one byte too many. -/
theorem witness_RawCopyStartsTheCopyOrFailsConfig :
    let s := { idle with inLen := 64, maxSize := 64, winLen := 99, ctrl := { Ctrl.reset with linked := true } }
    s.status.busy = false ∧ s.cfgRaw ∧ ¬({ s with maxSize := 65 } : State).cfgRaw := by decide

theorem witness_HashInitLoadsTheSeedLanes : idle.status.busy = false ∧ Ctx.c1 ≠ ctxOf idle := by decide

/-- A length of 0 and one that ends with the buffer; and one byte too many. -/
theorem witness_HashUpdateStartsEndsAtOnceOrFailsConfig :
    let s := fun n => { idle with h0 := { HashCtx.reset with addr := 10, len := n } }
    (s 0).status.busy = false ∧ (s 0).cfgHash ∧ (s 54).cfgHash ∧ ¬(s 55).cfgHash := by decide

theorem witness_HashDigestWritesOnlyTheDigest : idle.status.busy = false ∧ Ctx.c1 ≠ ctxOf idle := by decide

theorem witness_CommandWhileBusyIsRejected :
    atCopy.status.busy = true ∧ (0x00#32).extractLsb' 0 8 ≠ 0xFF#8 ∧ (0xFE#32).extractLsb' 0 8 ≠ 0xFF#8 := by decide

theorem witness_ReservedOpcodeOnlySetsRej :
    (0x03#32).extractLsb' 0 8 ∉ opcodes ∧ (0x13#32).extractLsb' 0 8 ∉ opcodes ∧ (0xFE#32).extractLsb' 0 8 ∉ opcodes := by
  decide

theorem witness_CommandWordRunsItsOpcode :
    ∀ op ∈ opcodes, ∃ v : Word, v.extractLsb' 0 8 = op := by
  simp only [opcodes, List.forall_mem_cons]
  exact ⟨⟨0x100, rfl⟩, ⟨0x01, rfl⟩, ⟨0x02, rfl⟩, ⟨0x10, rfl⟩, ⟨0x11, rfl⟩, ⟨0x12, rfl⟩, ⟨0xFFFFFFFF, rfl⟩, nofun⟩

/-- The end of the input, and one byte before it. -/
theorem witness_TokenTakesTheLiteralNibble :
    (loaded []).inPos = (loaded []).inLen ∧ (loaded [0xF0]).inPos ≠ (loaded [0xF0]).inLen := by decide

theorem witness_ExtensionByteAddsAndContinues :
    (loaded []).inPos = (loaded []).inLen ∧ (loaded [0xFF]).inPos ≠ (loaded [0xFF]).inLen := by decide

/-- The last byte of OBUF, and the first address past it. -/
theorem witness_LiteralStoresOneByte :
    ({ idle with outLen := 63 } : State).outAddr < small.obufSize ∧
    small.obufSize ≤ ({ idle with outLen := 64 } : State).outAddr := by decide

/-- No byte, one byte and two bytes left. -/
theorem witness_OffsetIsReadLittleEndian :
    let s := fun bytes => running 0x01 .off0 bytes
    (s []).status.busy = true ∧ (s []).inPos = (s []).inLen ∧
    ((s [1]).status.busy = true ∧ (s [1]).inPos ≠ (s [1]).inLen ∧ (s [1]).inPos + 1 = (s [1]).inLen) ∧
    ((s [1, 0]).status.busy = true ∧ (s [1, 0]).inPos ≠ (s [1, 0]).inLen ∧ (s [1, 0]).inPos + 1 ≠ (s [1, 0]).inLen) := by
  decide

/-- D2's sequence, with an offset that just reaches the first byte of output. -/
theorem witness_SeqCopiesLiteralsThenMatch :
    let s := running 0x01 .token [0x23, 0x61, 0x62, 0x02, 0x00, 0x00]
    s.Inv ∧ s.status.busy = true ∧ s.status.state = .token ∧
    s.inPos.toNat + (encode (.seq [0x61, 0x62] 2 3)).length ≤ s.inLen.toNat ∧
    s.outLen.toNat + [0x61, 0x62].length + (3 + 4) ≤ s.maxSize.toNat ∧
    1 ≤ (2#16).toNat ∧ (2#16).toNat ≤ s.outLen.toNat + [0x61, 0x62].length + s.winEff.toNat :=
  ⟨inv_seq, by decide⟩

/-- D8. -/
theorem witness_LastCopiesLiteralsAndEndsTheBlock :
    let s := running 0x01 .token [0x13, 0x7A]
    s.Inv ∧ s.status.busy = true ∧ s.status.state = .token ∧
    s.inPos.toNat + (encode (.last [0x7A] 3)).length = s.inLen.toNat ∧
    s.outLen.toNat + [0x7A].length ≤ s.maxSize.toNat :=
  ⟨inv_token, by decide⟩

/-- One literal too many for the input, one too many for the output, and exactly as many as fit. -/
theorem witness_LiteralCheckComesBeforeAnyCopy :
    let s := fun n max => { running 0x01 .litchk [0x30, 0x61, 0x62] with inPos := 1, dCount := n, maxSize := max }
    (s 3 2).status.busy = true ∧ (s 3 2).status.state = .litchk ∧
    (s 3 2).inLen.toNat < (s 3 2).inPos.toNat + (s 3 2).dCount.toNat ∧
    ((s 2 1).inPos.toNat + (s 2 1).dCount.toNat ≤ (s 2 1).inLen.toNat ∧
      (s 2 1).maxSize.toNat < (s 2 1).outLen.toNat + (s 2 1).dCount.toNat) ∧
    ((s 2 2).inPos.toNat + (s 2 2).dCount.toNat ≤ (s 2 2).inLen.toNat ∧
      (s 2 2).outLen.toNat + (s 2 2).dCount.toNat ≤ (s 2 2).maxSize.toNat) := by decide

/-- Offsets 0, 2 (one too far), and 1 (just in reach) with one byte too many and just enough room. -/
theorem witness_MatchCheckComesBeforeAnyCopy :
    (atMchk 0 0).status.busy = true ∧ (atMchk 0 0).status.state = .mchk ∧ (atMchk 0 0).dOffset = 0 ∧
    ((atMchk 2 0).dOffset ≠ 0 ∧ (atMchk 2 0).outLen.toNat + (atMchk 2 0).winEff.toNat < (atMchk 2 0).dOffset.toNat) ∧
    ((atMchk 1 60).dOffset.toNat ≤ (atMchk 1 60).outLen.toNat + (atMchk 1 60).winEff.toNat ∧
      (atMchk 1 60).maxSize.toNat < (atMchk 1 60).outLen.toNat + min ((atMchk 1 60).dCount.toNat + 4) (2 ^ 32 - 1)) ∧
    (atMchk 1 59).outLen.toNat + min ((atMchk 1 59).dCount.toNat + 4) (2 ^ 32 - 1) ≤ (atMchk 1 59).maxSize.toNat := by
  decide

theorem witness_CopyStepReadsBackByTheOffset :
    atCopy.Inv ∧ atCopy.status.busy = true ∧ atCopy.status.state = .copy := ⟨inv_copy, by decide⟩

theorem witness_RawStepCopiesOneByte_limit :
    let s := { running 0x02 .raw [0x61] with maxSize := 0 }
    s.Inv ∧ s.status.busy = true ∧ s.status.state = .raw ∧ s.inPos = 0 ∧ s.maxSize.toNat < s.inLen.toNat :=
  ⟨inv_raw_over, by decide⟩

theorem witness_RawStepCopiesOneByte_empty :
    let s := running 0x02 .raw []
    s.Inv ∧ s.status.busy = true ∧ s.status.state = .raw ∧ s.inLen = 0 := ⟨inv_raw_empty, by decide⟩

theorem witness_RawStepCopiesOneByte_byte :
    let s := running 0x02 .raw [0x61]
    s.Inv ∧ s.status.busy = true ∧ s.status.state = .raw ∧ s.inPos ≠ s.inLen ∧ s.inLen.toNat ≤ s.maxSize.toNat :=
  ⟨inv_raw, by decide⟩

/-- The first byte of a stripe. -/
theorem witness_HashStepAbsorbsOneByte_first :
    (atHabs 0).Inv ∧ (atHabs 0).status.busy = true ∧ (atHabs 0).status.state = .habs ∧
    ((atHabs 0).hash (ctxOf (atHabs 0))).count.val < 15 := ⟨inv_habs_first, by decide⟩

/-- The sixteenth. -/
theorem witness_HashStepAbsorbsOneByte_sixteenth :
    (atHabs 15).Inv ∧ (atHabs 15).status.busy = true ∧ (atHabs 15).status.state = .habs ∧
    ((atHabs 15).hash (ctxOf (atHabs 15))).count.val = 15 := ⟨inv_habs_last, by decide⟩

/-- A plain turn at TOKEN, a fused turn at TOKEN and a write to CMD. -/
theorem witness_StepRunsTheDecodedInstruction :
    let s := { running 0x01 .token [0x13, 0x7A] with schedule := [.fused] }
    s.status.busy = true ∧ s.status.state = .token ∧ s.inPos ≠ s.inLen ∧
    s.inBase.toNat + s.inPos.toNat < s.params.ibufSize ∧
    decodedInstr (decode .token [s.byteAt .ibuf (s.inBase.toNat + s.inPos.toNat)]) = some (.token 0x13) ∧
    s.inBase.toNat + s.inLen.toNat ≤ s.params.ibufSize ∧
    decodedInstr (decode .sequence s.inputLeft) = some (.last [0x7A] 3) ∧
    Decode.command 0x112 = .ok .hashDigest := by decide +revert

/-- A turn at LIT, which LITCHK has sent there, at the last byte of IBUF. -/
theorem witness_StepRunsTheDecodedInstruction_literal :
    let s := { running 0x01 .lit [] with inPos := 63, inLen := 64, ibuf := [(63, 0x7A)] }
    s.status.busy = true ∧ s.status.state = .lit ∧ s.inBase.toNat + s.inPos.toNat < s.params.ibufSize ∧
    decodedInstr (decode .literal [s.byteAt .ibuf (s.inBase.toNat + s.inPos.toNat)]) = some (.literal 0x7A) := by decide

/-- A scheduled read, a fused turn at MEXT, and a fused turn at a sequence whose MEXT byte is missing (E6) and at half an offset. -/
theorem witness_StepRunsTheDecodedInstruction_events :
    HostAction.regRead 0 4 ≠ .wait ∧
    (running 0x01 .mext []).status.state ≠ .token ∧ (running 0x01 .mext []).status.state ≠ .off0 ∧
    decode .sequence ((running 0x01 .token [0x1F, 0x61, 0x01, 0x00]).bytesAt .ibuf 0 4) = .error (.inputEnd .mext) ∧
    decode .offset ((running 0x01 .off0 [0x01]).bytesAt .ibuf 0 1) = .error (.inputEnd .offset) ∧
    64 < (0#32).toNat + (65#32).toNat := by
  refine ⟨by decide, by decide, by decide, rfl, rfl, by decide⟩

theorem witness_IdleMachineWaits :
    idle.status.busy = false ∧ idle.schedule = [] ∧
    ({ atCopy with schedule := [.host .wait] } : State).status.busy = true := by decide

/-- A LAST with nothing after it, and a SEQ with a byte after it. -/
theorem witness_DecodeInvertsEncode :
    ((∀ lits ml, Instr.last [0x7A] 3 ≠ .last lits ml) ∨ ([] : List Byte) = []) ∧
    ((∀ lits ml, Instr.seq [0x78] 1 271 ≠ .last lits ml) ∨ [(0 : Byte)] = []) := by simp

theorem witness_EncodeInvertsDecodeInABlock :
    Slot.sequence ≠ .command ∧ decode .sequence [0x13, 0x7A] = .ok (.last [0x7A] 3, []) := ⟨by decide, rfl⟩

theorem witness_BlockDisassemblyInvertsAssembly :
    ∀ i ∈ [Instr.seq [0x61, 0x62] 2 3], ∃ l o m, i = .seq l o m := by simp

/-- The smallest and the largest sizes. -/
theorem witness_PowerOnMeetsTheInvariant :
    ({ ibufSize := 1, obufSize := 1 } : Params).valid ∧ ({ ibufSize := 2 ^ 31, obufSize := 2 ^ 31 } : Params).valid := by
  decide

/-- For every statement about a step from a state that meets the invariant: an engine step. -/
theorem witness_StepKeepsTheInvariant :
    atCopy.Inv ∧ ∃ t, step atCopy = .next t ∧ t.status.state = .token := ⟨inv_copy, _, rfl, by decide⟩

theorem witness_StepNeverFaultsUnderTheInvariant : atCopy.Inv := inv_copy

/-- A busy buffer write, which leaves HOST_HAZARD beside a mark already there. -/
theorem witness_HostFaultOnlyGrows :
    let s := { atCopy with hostFault := { HostFault.none with badAddr := true },
                           schedule := [.host (.bufWrite .obuf 0 0)] }
    s.hostFault.badAddr = true ∧ ∃ t, step s = .next t ∧ t.hostFault.hazard = true := ⟨by decide, _, rfl, by decide⟩

theorem witness_EngineTurnLeavesConfigurationAndInput :
    engineTurnNext atCopy ∧ engineTurnNext { atCopy with schedule := [.fused] } ∧ ∃ t, step atCopy = .next t :=
  ⟨.inl rfl, .inr ⟨.fused, by decide, [], rfl⟩, _, rfl⟩

/-- The byte just below the output so far, and the first one past the bound. -/
theorem witness_EngineWritesOnlyTheOutputRange :
    atCopy.Inv ∧ engineTurnNext atCopy ∧ (∃ t, step atCopy = .next t) ∧
    0 < atCopy.outBase.toNat + atCopy.outLen.toNat ∧ atCopy.outBase.toNat + atCopy.maxSize.toNat ≤ 64 :=
  ⟨inv_copy, .inl rfl, ⟨_, rfl⟩, by decide⟩

/-- The host writes a configuration register of a running decode. -/
theorem witness_RunningCommandKeepsItsConfiguration :
    let s := { atCopy with schedule := [.host (.regWrite 0x10 4 5)] }
    s.status.busy = true ∧ ∃ t, step s = .next t ∧ t.status.busy = true := ⟨by decide, _, rfl, by decide⟩

theorem witness_OnlySoftResetEndsARunningCommand :
    let s := { atCopy with schedule := [.host (.regWrite 0x08 4 0xFF)] }
    s.status.busy = true ∧ HostAction.regWrite 0x08 4 0xFF ≠ .wait ∧ ∃ t, step s = .next t ∧ t.status.busy = false :=
  ⟨by decide, by decide, _, rfl, by decide⟩

theorem witness_OnlyAckAndSoftResetClearRej :
    let s := { withRej idle with schedule := [.host (.regWrite 0x08 4 0)] }
    s.status.rej = true ∧ ∃ t, step s = .next t ∧ t.status.rej = false := ⟨by decide, _, rfl, by decide⟩

theorem witness_HashContextsAreIndependent :
    Instr.hashInit ≠ .softReset ∧ (∃ t, exec .hashInit idle = .next t) ∧ Ctx.c1 ≠ ctxOf idle ∧
    Instr.hashInit ≠ .hashDigest := ⟨by decide, ⟨_, rfl⟩, by decide, by decide⟩

/-- A step that consumes a byte and one that does not. -/
theorem witness_InputCursorAdvancesByAtMostOne :
    (∃ t, engineStep (running 0x01 .token [0x13, 0x7A]) = .next t ∧ t.inPos = 1) ∧
    (∃ t, engineStep atCopy = .next t ∧ t.inPos = 0) := ⟨⟨_, rfl, by decide⟩, ⟨_, rfl, by decide⟩⟩

/-- E1: the empty block; and a match out of range, which completes D_COUNT. -/
theorem witness_ErrorsArePrecise :
    (running 0x01 .token []).status.err = false ∧
    (∃ t, engineStep (running 0x01 .token []) = .next t ∧ t.status.err = true) ∧
    (∃ t, engineStep (atMchk 2 0) = .next t ∧ t.status.err = true ∧ t.dCount = 4) :=
  ⟨by decide, ⟨_, rfl, by decide⟩, ⟨_, rfl, by decide⟩⟩

theorem witness_FusedTurnIsSomePlainSteps :
    let s := running 0x01 .token [0x13, 0x7A]
    s.Inv ∧ s.status.busy = true ∧ s.schedule = [] ∧ ∃ t, fusedStep s = .next t ∧ t.status.busy = false :=
  ⟨inv_token, by decide, rfl, _, rfl, by decide⟩

/-- The two machines differ at an OBUF byte that is neither window nor output. -/
theorem witness_DecodingDependsOnlyOnPayloadAndWindow :
    let s' := { atCopy with obuf := [(0, 0x61), (1, 0xEE)] }
    atCopy.Inv ∧ s'.Inv ∧ atCopy.status.busy = true ∧ atCopy.status.state ≠ .habs ∧ atCopy.SameView s' ∧ s' ≠ atCopy := by
  refine ⟨inv_copy, ⟨by decide, by decide, by decide, by decide⟩, by decide, by decide, ⟨rfl, fun _ _ _ => rfl, ?_⟩, by decide⟩
  intro a _ h
  have h0 : a = 0 := by
    have : atCopy.outAddr = 1 := by decide
    omega
  subst h0
  decide

/-- R4: a payload as long as MAX_SIZE. -/
theorem witness_RawCopyRunCopiesThePayload :
    let s := { loaded [0x61, 0x62] with maxSize := 2 }
    s.params.valid ∧ s.status.busy = false ∧ s.schedule = [] ∧ s.cfgRaw ∧ s.inLen.toNat ≤ s.maxSize.toNat := by decide

theorem witness_HashUpdateRunAbsorbsEveryByte :
    let s := { loaded [0x61, 0x62] with h0 := { HashCtx.reset with len := 2 } }
    s.params.valid ∧ s.status.busy = false ∧ s.schedule = [] ∧ s.cfgHash ∧ (s.hash (ctxOf s)).len ≠ 0 := by decide

theorem witness_DecStartRunAgreesWithDecode :
    let s := loaded [0x13, 0x7A]
    s.params.valid ∧ s.status.busy = false ∧ s.schedule = [] ∧ s.cfgDec := by decide

theorem witness_EveryRunningCommandEnds : atCopy.Inv ∧ atCopy.schedule = [] := ⟨inv_copy, rfl⟩

/-- Three bytes of a frame, a wrong magic, the magic alone, and version bits 10. -/
theorem witness_FrameHeaderChecksComeInOrder :
    let s := loaded [0x04, 0x22, 0x4D, 0x18, 0xA4]
    3 < 4 ∧ ((loaded [0x04, 0x22, 0x4D, 0x19]).bytesAt .ibuf 0 4).take 4 ≠ [0x04, 0x22, 0x4D, 0x18] ∧
    (s.bytesAt .ibuf 0 4).take 4 = [0x04, 0x22, 0x4D, 0x18] ∧
    ((s.bytesAt .ibuf 0 5).take 4 = [0x04, 0x22, 0x4D, 0x18] ∧ (s.byteAt .ibuf 4).toNat / 64 ≠ 1) := by decide

/-- A rejection that finds an error recorded before. -/
theorem witness_RejectedFrameLeavesNoErrorRecorded :
    afterError.Inv ∧ afterError.status.err = true ∧
    frameDecode 4 afterError = .rejected .badMagic .expectMagic (loaded [0x04, 0x22, 0x4D, 0x19]) :=
  ⟨⟨by decide, by decide, by decide, by decide⟩, by decide, test_frame_reject_acknowledges⟩

/-- The last byte of IBUF at OFF0 and at OFF1 with a full nibble, the end of the input in each element state, and the first address
IBUF does not have. -/
theorem witness_OffsetStepsAndInputEndOfTheEngine :
    let s := fun st => { running 0x01 st [] with inPos := 63, inLen := 64, ibuf := [(63, 0x7A)], dToken := 0x0F }
    ((s .off0).status.busy = true ∧ (s .off0).status.state = .off0 ∧ (s .off0).inPos ≠ (s .off0).inLen ∧
      (s .off0).inBase.toNat + (s .off0).inPos.toNat < (s .off0).params.ibufSize) ∧
    ((s .off1).status.busy = true ∧ (s .off1).status.state = .off1 ∧ (s .off1).inPos ≠ (s .off1).inLen) ∧
    (∀ st ∈ [EngState.token, .lext, .off1, .mext, .off0],
      (running 0x01 st []).status.busy = true ∧ (running 0x01 st []).status.state = st ∧
      (running 0x01 st []).inPos = (running 0x01 st []).inLen) ∧
    (let t := { s .off0 with inPos := 64, inLen := 65 }
     t.inPos ≠ t.inLen ∧ t.params.ibufSize ≤ t.inBase.toNat + t.inPos.toNat) := by decide

end Sys2Proof.Tests
end

section
/-!
The register window as the host's writes see it (spec/10_state.md R30, R33, R66, R67), reset (R70, R160) and the interrupt line (R68).
-/

open Sys2Proof.Claims

namespace Sys2Proof.Machine

/-! ### A host write to a register -/

/-- R30: the window holds a register at its own offset. -/
@[simp] theorem ofOffset_offset (r : Reg) : Reg.ofOffset r.offset = some r := by
  cases r with
  | hSeed c | hAddr c | hLen c | hPos c | hTotal c | hDigest c | hHdrchk c | hBufcnt c | hV1 c | hV2 c | hV3 c | hV4 c =>
    cases c <;> rfl
  | _ => rfl

/-- R94: a word access at a register's offset is a good one. -/
theorem goodAccess_offset (r : Reg) : goodAccess r.offset 4 := by
  cases r with
  | hSeed c | hAddr c | hLen c | hPos c | hTotal c | hDigest c | hHdrchk c | hBufcnt c | hV1 c | hV2 c | hV3 c | hV4 c =>
    cases c <;> decide
  | _ => decide

/-- A word written at the offset of any register but CMD is a write to that register; `hr` rules out the arm of CMD. -/
theorem hostAct_regWrite {r : Reg} (hr : r ≠ .cmd) (v : Word) (s : State) :
    hostAct (.regWrite r.offset 4 v) s = .next (writeReg r v s) := by
  simp only [hostAct, hostRegWrite, if_pos (goodAccess_offset r), ofOffset_offset]

theorem writeReg_readOnly {r : Reg} (hr : r ∈ readOnlyRegs) (v : Word) (s : State) : writeReg r v s = s := by
  revert r
  simp [readOnlyRegs, writeReg]

theorem writeCtrl_busy {s : State} (h : s.status.busy = true) (v : Word) :
    writeCtrl v s = { s with ctrl := { s.ctrl with irqEn := v.getLsbD 2 } } := if_pos h

/-- R32, R33: IRQ_EN takes the written bit 2, busy or idle. -/
@[simp] theorem writeCtrl_irqEn (v : Word) (s : State) : (writeCtrl v s).ctrl.irqEn = v.getLsbD 2 := by
  unfold writeCtrl
  split <;> rfl

/-! ### Configuration registers (R66) -/

/-- The state with a configuration register replaced: what an idle write does, for every RW register but CTRL. -/
def storeConfig (r : Reg) (v : Word) (s : State) : State :=
  match r with
  | .inBase => { s with inBase := v }
  | .inLen => { s with inLen := v }
  | .outBase => { s with outBase := v }
  | .maxSize => { s with maxSize := v }
  | .winLen => { s with winLen := v }
  | .hSeed c => s.setHash c { s.hash c with seed := v }
  | .hAddr c => s.setHash c { s.hash c with addr := v }
  | .hLen c => s.setHash c { s.hash c with len := v }
  | _ => s

theorem writeReg_config {r : Reg} (hr : r ∈ configRegs) (v : Word) (s : State) :
    writeReg r v s = writeConfig (storeConfig r v) s := by
  revert r
  simp [configRegs, writeReg, storeConfig, writeConfig]

theorem writeReg_config_busy {r : Reg} (hr : r ∈ configRegs) {s : State} (h : s.status.busy = true) (v : Word) :
    writeReg r v s = reject s := (writeReg_config hr v s).trans (if_pos h)

theorem writeReg_config_idle {r : Reg} (hr : r ∈ configRegs) {s : State} (h : s.status.busy = false) (v : Word) :
    writeReg r v s = storeConfig r v s := (writeReg_config hr v s).trans (if_neg (by simp [h]))

theorem readReg_storeConfig_same {r : Reg} (hr : r ∈ configRegs) (v : Word) (s : State) :
    (storeConfig r v s).readReg r = v := by
  revert r
  simp [configRegs, storeConfig, State.readReg]

/-- A hash context's configuration register replaced, seen from either context. -/
theorem hash_setHash_seed (s : State) (c c' : Ctx) (v : Word) :
    (s.setHash c { s.hash c with seed := v }).hash c' =
      { s.hash c' with seed := if c' = c then v else (s.hash c').seed } := by
  cases c <;> cases c' <;> rfl

theorem hash_setHash_addr (s : State) (c c' : Ctx) (v : Word) :
    (s.setHash c { s.hash c with addr := v }).hash c' =
      { s.hash c' with addr := if c' = c then v else (s.hash c').addr } := by
  cases c <;> cases c' <;> rfl

theorem hash_setHash_len (s : State) (c c' : Ctx) (v : Word) :
    (s.setHash c { s.hash c with len := v }).hash c' =
      { s.hash c' with len := if c' = c then v else (s.hash c').len } := by
  cases c <;> cases c' <;> rfl

/-- R66: no register but the one written changes. -/
theorem readReg_storeConfig_other {r r' : Reg} (h : r' ≠ r) (v : Word) (s : State) :
    (storeConfig r v s).readReg r' = s.readReg r' := by
  cases r with
  | inBase => cases r' with
    | inBase => exact absurd rfl h
    | _ => rfl
  | inLen => cases r' with
    | inLen => exact absurd rfl h
    | _ => rfl
  | outBase => cases r' with
    | outBase => exact absurd rfl h
    | _ => rfl
  | maxSize => cases r' with
    | maxSize => exact absurd rfl h
    | _ => rfl
  | winLen => cases r' with
    | winLen => exact absurd rfl h
    | _ => rfl
  | hSeed c => cases r' with
    | hSeed c' =>
      have hc : c' ≠ c := by simpa using h
      simp [storeConfig, State.readReg, hash_setHash_seed, hc]
    | _ => simp [storeConfig, State.readReg, hash_setHash_seed, HashCtx.hdrchk, HashCtx.bufcnt]
  | hAddr c => cases r' with
    | hAddr c' =>
      have hc : c' ≠ c := by simpa using h
      simp [storeConfig, State.readReg, hash_setHash_addr, hc]
    | _ => simp [storeConfig, State.readReg, hash_setHash_addr, HashCtx.hdrchk, HashCtx.bufcnt]
  | hLen c => cases r' with
    | hLen c' =>
      have hc : c' ≠ c := by simpa using h
      simp [storeConfig, State.readReg, hash_setHash_len, hc]
    | _ => simp [storeConfig, State.readReg, hash_setHash_len, HashCtx.hdrchk, HashCtx.bufcnt]
  | _ => rfl

/-- What a store to a configuration register leaves alone beside the registers: the hidden stripe buffers, both buffers, the host's marks,
the sizes, and the model's own schedule and reads. -/
structure StoreFrame (s t : State) : Prop where
  hashBuf : ∀ c, (t.hash c).buf = (s.hash c).buf
  ibuf : t.ibuf = s.ibuf
  obuf : t.obuf = s.obuf
  hostFault : t.hostFault = s.hostFault
  params : t.params = s.params
  schedule : t.schedule = s.schedule
  reads : t.reads = s.reads

theorem storeConfig_frame (r : Reg) (v : Word) (s : State) : StoreFrame s (storeConfig r v s) := by
  cases r with
  | hSeed c => constructor <;> simp [storeConfig, hash_setHash_seed]
  | hAddr c => constructor <;> simp [storeConfig, hash_setHash_addr]
  | hLen c => constructor <;> simp [storeConfig, hash_setHash_len]
  | _ => constructor <;> intros <;> rfl

/-- Settles O6: a configuration register is stored when idle, and a busy write is a rejection. -/
theorem configWriteIsStoredOnlyWhenIdle : Obligations.ConfigWriteIsStoredOnlyWhenIdle := by
  intro r hr s v
  have hcmd : r ≠ .cmd := ne_of_mem_of_not_mem hr (by decide)
  refine ⟨fun hb => ?_, fun hb => ⟨storeConfig r v s, ?_⟩⟩
  · rw [hostAct_regWrite hcmd, writeReg_config_busy hr hb]; rfl
  · obtain ⟨hbuf, hi, ho, hf, hp, hs, hreads⟩ := storeConfig_frame r v s
    refine ⟨?_, readReg_storeConfig_same hr v s, fun r' h => readReg_storeConfig_other h v s, hbuf, hi, ho, hf, hp, hs,
      hreads⟩
    rw [hostAct_regWrite hcmd, writeReg_config_idle hr hb]

/-- Settles O4: a write to CTRL while busy is `writeCtrl`'s busy branch. -/
theorem busyCtrlWriteChangesOnlyIrqEnable : Obligations.BusyCtrlWriteChangesOnlyIrqEnable := by
  intro s v hb
  have hwrite : hostAct (.regWrite 0x04 4 v) s = .next (writeCtrl v s) := hostAct_regWrite (r := .ctrl) (by decide) v s
  rw [hwrite, writeCtrl_busy hb]

/-- Settles O7: the register write at a read-only register's offset is the identity. -/
theorem readOnlyWriteIsIgnored : Obligations.ReadOnlyWriteIsIgnored := by
  intro r hr s v
  rw [hostAct_regWrite (ne_of_mem_of_not_mem hr (by decide)), writeReg_readOnly hr]

/-! ### Reset (R70, R160) -/

theorem exec_softReset (s : State) : exec .softReset s = .next (softReset s) := rfl

@[simp] theorem powerOn_hash (p : Params) (c : Ctx) : (State.powerOn p).hash c = .reset := by cases c <;> rfl

@[simp] theorem softReset_hash (s : State) (c : Ctx) : (softReset s).hash c = .reset := by cases c <;> rfl

/-- R63, R70: the reset column of a hash context is what HASH_INIT gives for seed 0. -/
theorem init_zero_reset : HashCtx.reset.init 0 = HashCtx.reset := by decide

/-- The window shows nothing but the registers. -/
theorem readWindow_congr {s t : State} (h : ∀ r, s.readReg r = t.readReg r) (off : Nat) :
    s.readWindow off = t.readWindow off := by
  unfold State.readWindow
  split
  · exact h _
  · rfl

theorem readReg_powerOn (p : Params) (r : Reg) : (State.powerOn p).readReg r = State.reset.readReg r := rfl

theorem readReg_softReset (s : State) (r : Reg) : (softReset s).readReg r = State.reset.readReg r := rfl

/-- The 64 words of the window against the reset column of R30. -/
theorem readWindow_reset (k : Fin 64) : State.reset.readWindow (4 * k) = resetColumn (4 * k) := by
  revert k
  decide

/-- A state whose registers read as after power-on reads the reset column at every word of the window. -/
theorem readWindow_eq_resetColumn {s : State} (h : ∀ r, s.readReg r = State.reset.readReg r) {off : Nat}
    (halign : off % 4 = 0) (hlt : off < 256) : s.readWindow off = resetColumn off := by
  obtain ⟨k, rfl⟩ : 4 ∣ off := Nat.dvd_of_mod_eq_zero halign
  rw [readWindow_congr h]
  exact readWindow_reset ⟨k, by omega⟩

/-! ### The interrupt line (R68) -/

theorem irq_iff (s : State) :
    s.irq = true ↔ s.ctrl.irqEn = true ∧ (s.status.done = true ∨ s.status.err = true) := by
  simp [State.irq]

theorem irq_of_masked {s : State} (h : s.ctrl.irqEn = false) : s.irq = false := by simp [State.irq, h]

@[simp] theorem powerOn_irq (p : Params) : (State.powerOn p).irq = false := irq_of_masked rfl

@[simp] theorem softReset_irq (s : State) : (softReset s).irq = false := irq_of_masked rfl

@[simp] theorem raiseError_irq (code : ErrCode) (s : State) : (raiseError code s).irq = s.ctrl.irqEn := by
  simp [State.irq]

@[simp] theorem finish_irq (s : State) : (finish s).irq = s.ctrl.irqEn := by simp [State.irq]

@[simp] theorem prologue_irq (op : BitVec 8) (s : State) : (prologue op s).irq = false := by simp [State.irq]

/-- Settles O1: power-on and SOFT_RESET show the same registers, and those read the reset column. -/
theorem resetLeavesEveryRegisterAtItsResetValue : Obligations.ResetLeavesEveryRegisterAtItsResetValue := by
  refine ⟨fun p off => readWindow_eq_resetColumn (readReg_powerOn p), fun p => ?_, fun s => ⟨softReset s, ?_⟩⟩
  · refine ⟨powerOn_irq p, rfl, fun _ => rfl, fun _ => rfl, fun c => ?_⟩
    rw [powerOn_hash, init_zero_reset]
  · refine ⟨exec_softReset s, fun off => readWindow_eq_resetColumn (readReg_softReset s), softReset_irq s, fun c => ?_,
      rfl, rfl, rfl, rfl, rfl, rfl⟩
    rw [softReset_hash, init_zero_reset]

/-- Settles O11: one law of the interrupt line for each operation that ends, starts, resets or masks. -/
theorem interruptFollowsCompletion : Obligations.InterruptFollowsCompletion :=
  ⟨irq_iff, powerOn_irq, fun s code => raiseError_irq code s, finish_irq, fun s op => prologue_irq op s,
    fun s => ⟨softReset s, exec_softReset s, softReset_irq s⟩,
    fun s v h => irq_of_masked ((writeCtrl_irqEn v s).trans h)⟩

end Sys2Proof.Machine
end

section
/-!
A word written to CMD: what it decodes to, and that the write runs it (spec/30_encoding.md R132, R133; spec/40_commands.md R150).
-/

namespace Sys2Proof.Machine

/-- R132, R133: a word decodes to the command whose opcode its low byte is. -/
theorem command_of_opcode {i : Instr} {v : Word} (h : i.opcode = some (Decode.opcodeOf v)) :
    Decode.command v = .ok i := by
  cases i with
  | ack | decStart | rawCopy | hashInit | hashUpdate | hashDigest | softReset =>
    have hop : Decode.opcodeOf v = _ := (Option.some.inj h).symm
    simp [Decode.command, hop]
  | _ => nomatch h

theorem commandWrite_of_ok {i : Instr} {v : Word} (h : Decode.command v = .ok i) (s : State) :
    commandWrite v s = exec i s := by simp [commandWrite, h]

/-- A word written at the offset of CMD is a command word; `hostAct_regWrite` has the other registers. -/
theorem hostAct_cmdWrite (v : Word) (s : State) : hostAct (.regWrite Reg.cmd.offset 4 v) s = commandWrite v s := by
  simp only [hostAct, hostRegWrite, if_pos (goodAccess_offset .cmd), ofOffset_offset]

/-- A write to CMD of any word with a command's opcode in its low byte is the execution of that command. -/
theorem hostAct_cmdWrite_of_opcode {i : Instr} {v : Word} (h : i.opcode = some (Decode.opcodeOf v)) (s : State) :
    hostAct (.regWrite Reg.cmd.offset 4 v) s = exec i s :=
  (hostAct_cmdWrite v s).trans (commandWrite_of_ok (command_of_opcode h) s)

/-- Settles O20: each of the seven low bytes is the opcode of its command. -/
theorem commandWordRunsItsOpcode : Obligations.CommandWordRunsItsOpcode := by
  intro s v
  have run : ∀ (i : Instr) (op : Byte), i.opcode = some op → Decode.opcodeOf v = op →
      hostAct (.regWrite Reg.cmd.offset 4 v) s = exec i s :=
    fun i _ hop hv => hostAct_cmdWrite_of_opcode (hv ▸ hop) s
  exact ⟨run .ack 0x00 rfl, run .decStart 0x01 rfl, run .rawCopy 0x02 rfl, run .hashInit 0x10 rfl,
    run .hashUpdate 0x11 rfl, run .hashDigest 0x12 rfl, run .softReset 0xFF rfl⟩

end Sys2Proof.Machine
end

section
/-!
The commands themselves (spec/40_commands.md): rejection of a word while busy (R151) and of a reserved one (R152), ACK (R154) and
HASH_INIT (R157).
-/

open Sys2Proof.Claims

namespace Sys2Proof.Machine

/-! ### What a word decodes to -/

/-- R132, R133: the converse of `command_of_opcode`; a word decodes to no command but the one of its low byte. -/
theorem opcode_of_command {i : Instr} {v : Word} (h : Decode.command v = .ok i) :
    i.opcode = some (Decode.opcodeOf v) := by
  unfold Decode.command at h
  dsimp only at h
  split_ifs at h
  all_goals cases h; exact congrArg some (Eq.symm ‹_›)

/-- R133: the commands have the opcodes of the table. -/
theorem opcode_mem_opcodes {i : Instr} {op : Byte} (h : i.opcode = some op) : op ∈ opcodes := by
  cases i with
  | ack | decStart | rawCopy | hashInit | hashUpdate | hashDigest | softReset => cases h; decide
  | _ => nomatch h

/-! ### Rejection (R151, R152) -/

theorem reject_eq_withRej (s : State) : reject s = withRej s := rfl

theorem commandWrite_of_error {e : DecodeError} {v : Word} (h : Decode.command v = .error e) (s : State) :
    commandWrite v s = .next (reject s) := by simp [commandWrite, h]

/-- R151: while busy, every command but SOFT_RESET is a rejection. -/
theorem exec_command_busy {i : Instr} {op : Byte} (hi : i.opcode = some op) (hop : op ≠ 0xFF) {s : State}
    (hb : s.status.busy = true) : exec i s = .next (reject s) := by
  cases i with
  | ack | decStart | rawCopy | hashInit | hashUpdate | hashDigest => exact acceptCommand_busy hb
  | softReset => cases hi; exact absurd rfl hop
  | _ => nomatch hi

/-- Settles O18: the word is a command's, which `exec_command_busy` rejects, or a reserved one. -/
theorem commandWhileBusyIsRejected : Obligations.CommandWhileBusyIsRejected := by
  intro s v hb hv
  refine (hostAct_cmdWrite v s).trans ?_
  cases hc : Decode.command v with
  | ok i => rw [commandWrite_of_ok hc, exec_command_busy (opcode_of_command hc) hv hb, reject_eq_withRej]
  | error e => rw [commandWrite_of_error hc, reject_eq_withRej]

/-- Settles O19: a word that decoded to a command would have an opcode of the table. -/
theorem reservedOpcodeOnlySetsRej : Obligations.ReservedOpcodeOnlySetsRej := by
  intro s v hv
  refine (hostAct_cmdWrite v s).trans ?_
  cases hc : Decode.command v with
  | ok i => exact absurd (opcode_mem_opcodes (opcode_of_command hc)) hv
  | error e => rw [commandWrite_of_error hc, reject_eq_withRej]

/-! ### ACK (R154) -/

/-- R153, R154: an accepted ACK clears STATUS but for STATE, which it leaves. -/
theorem exec_ack_idle {s : State} (hb : s.status.busy = false) :
    exec .ack s = .next { s with status := { Status.reset with state := s.status.state } } := by
  refine (acceptCommand_idle hb).trans ?_
  simp [clearReject, prologue, Status.reset, hb]

/-- BUSY is bit 0 of STATUS (R35). -/
theorem statusWord_busy (st : Status) : st.word.getLsbD 0 = st.busy :=
  BitVec.getLsbD_append.trans (by simp)

/-- STATE is bits 11:8 of STATUS (R35): above the four flags and ERRCODE. -/
theorem statusWord_state (st : Status) : st.word.extractLsb' 8 4 = st.state.code := by
  refine (BitVec.extractLsb'_append_eq_of_le (by decide)).trans ?_
  iterate 4 rw [BitVec.extractLsb'_append_eq_of_le (by decide)]
  exact BitVec.extractLsb'_append_eq_right

theorem state_eq_idle_of_code {st : EngState} (h : st.code = 0) : st = .idle := by
  cases st with
  | idle => rfl
  | _ => exact absurd h (by decide)

/-- Settles O12: the rule's example shows BUSY 0 and STATE IDLE, so its ACK is an idle one that clears every field. -/
theorem ackClearsTheRecord : Obligations.AckClearsTheRecord := by
  intro s
  refine ⟨exec_ack_idle, fun hb => acceptCommand_busy hb, fun hw => ?_⟩
  have hb : s.status.busy = false := by rw [← statusWord_busy, hw]; decide
  have hst : s.status.state = .idle := state_eq_idle_of_code (by rw [← statusWord_state, hw]; decide)
  exact ⟨_, exec_ack_idle hb, by rw [hst]; exact (by decide : Status.reset.word = 0)⟩

/-! ### HASH_INIT (R157, R222) -/

theorem ctxOf_eq_activeCtx (s : State) : ctxOf s = s.activeCtx := rfl

/-- What a command that replaces a hash context and ends in the same host action changes beside the contexts: STATUS alone. -/
theorem finish_setHash_prologue (op : BitVec 8) (c : Ctx) (h : HashCtx) (s : State) :
    finish ((prologue op s).setHash c h) =
      { s with h0 := ((prologue op s).setHash c h).h0, h1 := ((prologue op s).setHash c h).h1, status := endedStatus s op } := by
  cases c <;> rfl

/-- R222, with the primes of R220. -/
theorem lanes_init_eq (seed : Word) :
    Lanes.init seed =
      { v1 := seed + 0x9E3779B1 + 0x85EBCA77, v2 := seed + 0x85EBCA77, v3 := seed, v4 := seed - 0x9E3779B1 } := rfl

/-- R222: the seed's lanes, and nothing absorbed yet. -/
theorem hash_init_eq (seed : Word) (h : HashCtx) :
    h.init seed = { h with v1 := seed + 0x9E3779B1 + 0x85EBCA77, v2 := seed + 0x85EBCA77, v3 := seed,
                           v4 := seed - 0x9E3779B1, count := 0, large := false, total := 0 } := by
  rw [HashCtx.init, HashCtx.withLanes, lanes_init_eq]

/-- R157: HASH_INIT initialises the selected context from that context's seed. -/
theorem exec_hashInit_idle {s : State} (hb : s.status.busy = false) :
    exec .hashInit s = .next (finish ((prologue 0x10 s).setHash s.activeCtx
      ((s.hash s.activeCtx).init (s.hash s.activeCtx).seed))) := acceptCommand_idle hb

/-- Settles O15: the active context is the one set, to `HashCtx.init` of its own seed; the rest is the frame of `setHash`. -/
theorem hashInitLoadsTheSeedLanes : Obligations.HashInitLoadsTheSeedLanes := by
  intro s hb
  rw [ctxOf_eq_activeCtx]
  refine ⟨_, exec_hashInit_idle hb, ?_, fun c hc => ?_, finish_setHash_prologue _ _ _ s⟩
  · rw [finish_hash, setHash_hash_same, hash_init_eq]
  · rw [finish_hash, setHash_hash_other _ _ _ _ hc, prologue_hash]

end Sys2Proof.Machine
end

section
/-!
The engine steps that read no element (spec/41_block_decode.md): LITCHK (R183), MCHK (R188), COPY (R189) and RAW (R190).
-/

open Sys2Proof.Claims

namespace Sys2Proof.Machine

/-! ### How a step ends -/

/-- R291: an error that a step raises keeps the step's own state as ERRSTATE; only a command's CONFIG error does not. -/
theorem raiseError_eq_errorStatus {code : ErrCode} (h : code ≠ .config) (s : State) :
    raiseError code s = { s with status := errorStatus s code } := by
  simp [raiseError, errorStatus, h]

theorem finish_eq_doneStatus (s : State) : finish s = { s with status := doneStatus s } := rfl

@[simp] theorem toNat_sat32 (x : Nat) : (sat32 x).toNat = min x (2 ^ 32 - 1) :=
  (BitVec.toNat_ofNat _ _).trans (Nat.mod_eq_of_lt (by omega))

/-! ### The state's action (R180) -/

theorem engineStep_litchk {s : State} (hb : s.status.busy = true) (hst : s.status.state = .litchk) :
    engineStep s = litchkStep s := by simp only [engineStep_busy hb, engineAction, hst]

theorem engineStep_mchk {s : State} (hb : s.status.busy = true) (hst : s.status.state = .mchk) :
    engineStep s = mchkStep s := by simp only [engineStep_busy hb, engineAction, hst]

theorem engineStep_copy {s : State} (hb : s.status.busy = true) (hst : s.status.state = .copy) :
    engineStep s = copyStep s := by simp only [engineStep_busy hb, engineAction, hst]

theorem engineStep_raw {s : State} (hb : s.status.busy = true) (hst : s.status.state = .raw) :
    engineStep s = rawStep s := by simp only [engineStep_busy hb, engineAction, hst]

/-! ### LITCHK (R183) -/

theorem litchkStep_of_truncated {s : State} (h : s.inLen.toNat < s.inPos.toNat + s.dCount.toNat) :
    litchkStep s = .next (raiseError .truncated s) := if_pos h

theorem litchkStep_of_outputLimit {s : State} (hin : s.inPos.toNat + s.dCount.toNat ≤ s.inLen.toNat)
    (h : s.maxSize.toNat < s.outLen.toNat + s.dCount.toNat) : litchkStep s = .next (raiseError .outputLimit s) :=
  (if_neg hin.not_gt).trans (if_pos h)

theorem litchkStep_of_fits {s : State} (hin : s.inPos.toNat + s.dCount.toNat ≤ s.inLen.toNat)
    (hout : s.outLen.toNat + s.dCount.toNat ≤ s.maxSize.toNat) :
    litchkStep s = .next (s.enter (if s.dCount = 0 then .off0 else .lit)) :=
  (if_neg hin.not_gt).trans (if_neg hout.not_gt)

/-- Settles O27: LITCHK's three cases in the rule's order. -/
theorem literalCheckComesBeforeAnyCopy : Obligations.LiteralCheckComesBeforeAnyCopy := by
  intro s hb hst n
  have hzero : n = 0 ↔ s.dCount = 0 := BitVec.toNat_inj (y := 0)
  rw [engineStep_litchk hb hst]
  refine ⟨fun hshort => ?_, fun hin hover => ?_, fun hin hout => ?_⟩
  · rw [litchkStep_of_truncated hshort, raiseError_eq_errorStatus (by decide)]
  · rw [litchkStep_of_outputLimit hin hover, raiseError_eq_errorStatus (by decide)]
  · simp only [litchkStep_of_fits hin hout, State.enter, hzero]

/-! ### MCHK (R188) -/

theorem matchChecks_of_offsetZero {s : State} (h : s.dOffset = 0) :
    matchChecks s = .next (raiseError .offsetZero s) := if_pos h

theorem matchChecks_of_offsetRange {s : State} (hzero : s.dOffset ≠ 0)
    (h : s.outLen.toNat + s.winEff.toNat < s.dOffset.toNat) : matchChecks s = .next (raiseError .offsetRange s) :=
  (if_neg hzero).trans (if_pos h)

theorem matchChecks_of_outputLimit {s : State} (hzero : s.dOffset ≠ 0)
    (hreach : s.dOffset.toNat ≤ s.outLen.toNat + s.winEff.toNat)
    (h : s.maxSize.toNat < s.outLen.toNat + s.dCount.toNat) : matchChecks s = .next (raiseError .outputLimit s) :=
  (if_neg hzero).trans <| (if_neg hreach.not_gt).trans (if_pos h)

theorem matchChecks_of_fits {s : State} (hzero : s.dOffset ≠ 0)
    (hreach : s.dOffset.toNat ≤ s.outLen.toNat + s.winEff.toNat)
    (hout : s.outLen.toNat + s.dCount.toNat ≤ s.maxSize.toNat) : matchChecks s = .next (s.enter .copy) :=
  (if_neg hzero).trans <| (if_neg hreach.not_gt).trans (if_neg hout.not_gt)

/-- Settles O28: MCHK's four cases in the rule's order, on the state with the completed length, whose count is `m` itself. -/
theorem matchCheckComesBeforeAnyCopy : Obligations.MatchCheckComesBeforeAnyCopy := by
  intro s hb hst m s'
  have hstep : engineStep s = matchChecks s' := engineStep_mchk hb hst
  have hcount : s'.dCount.toNat = m := toNat_sat32 _
  rw [hstep, ← hcount]
  refine ⟨fun hzero => ?_, fun hzero hfar => ?_, fun hzero hreach hover => ?_, fun hzero hreach hout => ?_⟩
  · rw [matchChecks_of_offsetZero (s := s') hzero, raiseError_eq_errorStatus (by decide)]; rfl
  · rw [matchChecks_of_offsetRange (s := s') hzero hfar, raiseError_eq_errorStatus (by decide)]; rfl
  · rw [matchChecks_of_outputLimit (s := s') hzero hreach hover, raiseError_eq_errorStatus (by decide)]; rfl
  · rw [matchChecks_of_fits (s := s') hzero hreach hout]; rfl

/-! ### COPY (R189): a byte appended to the output -/

/-- Inside OBUF a byte is appended, with the outcome of `appendByte_next`. -/
theorem appendByte_of_lt {b : Byte} {last : EngState} {s : State} (h : s.outAddr < s.params.obufSize) :
    appendByte b last s = .next { s.putByte .obuf s.outAddr b with
      outLen := s.outLen + 1, dCount := s.dCount - 1,
      status := if s.dCount = 1 then { s.status with state := last } else s.status } := by
  obtain ⟨t, ht⟩ : ∃ t, appendByte b last s = .next t := ⟨_, engineWrite_of_lt h⟩
  obtain ⟨-, rfl⟩ := appendByte_next ht
  simpa only [sub_eq_zero] using ht

/-- R105, R189: a match that MCHK has passed has room, so its next byte is in OBUF. -/
theorem State.Inv.outAddr_lt_of_copy {s : State} (hi : s.Inv) (hst : s.status.state = .copy) :
    s.outAddr < s.params.obufSize := by
  obtain ⟨hdecode, -, hmatch, -⟩ := hi.engine
  obtain ⟨⟨-, hout, -⟩, -⟩ := hdecode (by simp [hst])
  obtain ⟨hleft, hroom, -⟩ := hmatch hst
  unfold State.outAddr
  omega

/-- R189: where the destination is in OBUF the source before it is too, and its byte is appended. -/
theorem copyStep_of_lt {s : State} (h : s.outAddr < s.params.obufSize) :
    copyStep s = appendByte (s.byteAt .obuf s.matchAddr) .token s :=
  engineRead_of_lt ((Nat.sub_le s.outAddr _).trans_lt h)

/-- Settles O29: the invariant keeps the destination in OBUF, so the step appends the byte read one offset back. -/
theorem copyStepReadsBackByTheOffset : Obligations.CopyStepReadsBackByTheOffset := by
  intro s hi hb hst
  have hlt := hi.outAddr_lt_of_copy hst
  refine ⟨_, (engineStep_copy hb hst).trans ((copyStep_of_lt hlt).trans (appendByte_of_lt hlt)), ?_, fun a ha => ?_, rfl⟩
  · exact byteAt_putByte_same s .obuf s.outAddr _
  · exact byteAt_putByte_otherAddr s .obuf s.outAddr a _ ha

/-! ### RAW (R190) -/

/-- R190: a raw copy that is not at the end of its payload is before it, at its first byte too. -/
theorem State.Inv.inPos_lt_of_raw {s : State} (hi : s.Inv) (hst : s.status.state = .raw) (hend : s.inPos ≠ s.inLen) :
    s.inPos.toNat < s.inLen.toNat := by
  obtain ⟨-, -, -, hraw, -⟩ := hi.engine
  obtain ⟨⟨-, -, -, hzero | ⟨hlt, -⟩⟩, -⟩ := hraw hst
  · bv_omega
  · exact hlt

theorem State.Inv.inAddr_lt_of_raw {s : State} (hi : s.Inv) (hst : s.status.state = .raw) (hend : s.inPos ≠ s.inLen) :
    s.inAddr < s.params.ibufSize := by
  obtain ⟨-, -, -, hraw, -⟩ := hi.engine
  obtain ⟨⟨hin, -⟩, -⟩ := hraw hst
  have hpos := hi.inPos_lt_of_raw hst hend
  unfold State.inAddr
  omega

theorem State.Inv.outAddr_lt_of_raw {s : State} (hi : s.Inv) (hst : s.status.state = .raw) (hend : s.inPos ≠ s.inLen)
    (hfits : s.inLen.toNat ≤ s.maxSize.toNat) : s.outAddr < s.params.obufSize := by
  obtain ⟨-, -, -, hraw, -⟩ := hi.engine
  obtain ⟨⟨-, hout, hcursors, -⟩, -⟩ := hraw hst
  have hpos := hi.inPos_lt_of_raw hst hend
  unfold State.outAddr
  rw [hcursors]
  omega

/-- R190: a raw copy of an empty payload is still at its first byte. -/
theorem State.Inv.inPos_eq_zero_of_raw_empty {s : State} (hi : s.Inv) (hst : s.status.state = .raw) (hempty : s.inLen = 0) :
    s.inPos = 0 := by
  by_contra hne
  have hlt := hi.inPos_lt_of_raw hst (by rwa [hempty])
  simp [hempty] at hlt

theorem rawStep_of_outputLimit {s : State} (hpos : s.inPos = 0) (h : s.maxSize.toNat < s.inLen.toNat) :
    rawStep s = .next (raiseError .outputLimit s) := if_pos ⟨hpos, h⟩

theorem rawStep_of_inputEnd {s : State} (hfits : s.inLen.toNat ≤ s.maxSize.toNat) (h : s.inPos = s.inLen) :
    rawStep s = .next (finish s) := (if_neg fun hover => hfits.not_gt hover.2).trans (if_pos h)

theorem rawStep_of_lt {s : State} (hfits : s.inLen.toNat ≤ s.maxSize.toNat) (h : s.inPos ≠ s.inLen)
    (hin : s.inAddr < s.params.ibufSize) : rawStep s = rawWith (s.byteAt .ibuf s.inAddr) s :=
  (if_neg fun hover => hfits.not_gt hover.2).trans ((if_neg h).trans (engineRead_of_lt hin))

theorem rawWith_of_lt {b : Byte} {s : State} (h : s.outAddr < s.params.obufSize) :
    rawWith b s = .next { s.putByte .obuf s.outAddr b with
      inPos := s.inPos + 1, outLen := s.outLen + 1,
      status := if s.inPos + 1 = s.inLen then doneStatus s else s.status } := by
  refine (engineWrite_of_lt h).trans ?_
  refine congrArg Host.Outcome.next ?_
  by_cases hlast : s.inPos + 1 = s.inLen
  · rw [if_pos hlast]; exact if_pos hlast
  · rw [if_neg hlast]; exact if_neg hlast

/-- Settles O30: the limit at the first step, the empty payload, whose cursor is 0, and else a byte from IBUF appended to OBUF. -/
theorem rawStepCopiesOneByte : Obligations.RawStepCopiesOneByte := by
  intro s hi hb hst addr
  rw [engineStep_raw hb hst]
  refine ⟨fun hpos hover => ?_, fun hempty => ?_, fun hend hfits => ?_⟩
  · rw [rawStep_of_outputLimit hpos hover, raiseError_eq_errorStatus (by decide)]
  · have hpos := hi.inPos_eq_zero_of_raw_empty hst hempty
    rw [rawStep_of_inputEnd (by simp [hempty]) (hpos.trans hempty.symm), finish_eq_doneStatus]
  · rw [rawStep_of_lt hfits hend (hi.inAddr_lt_of_raw hst hend), rawWith_of_lt (hi.outAddr_lt_of_raw hst hend hfits)]
    refine ⟨_, rfl, ?_, fun a ha => ?_, rfl⟩
    · exact byteAt_putByte_same s .obuf s.outAddr _
    · exact byteAt_putByte_otherAddr s .obuf s.outAddr a _ ha

end Sys2Proof.Machine
end

section
/-!
The xxHash32 engine (spec/42_xxhash32.md): the rules' arithmetic against the model's (R220 to R226), HASH_DIGEST (R159), and the HABS step
(R223, R224).
-/

open Sys2Proof.Claims

namespace Sys2Proof.Machine

/-! ### Arithmetic (R93, R221, R224) -/

/-- R93, R224: a bit of the concatenated word stands in one of the four bytes, and the shifts bring that byte to its place. -/
theorem wordOf_eq_leWord (b0 b1 b2 b3 : Byte) : Decode.wordOf b0 b1 b2 b3 = leWord b0 b1 b2 b3 := by
  refine BitVec.eq_of_getLsbD_eq fun i hi => ?_
  simp only [Decode.wordOf, leWord, BitVec.getLsbD_append, BitVec.getLsbD_or, BitVec.getLsbD_shiftLeft,
    BitVec.getLsbD_setWidth]
  grind

theorem xxhRound_eq_roundOf (acc w : Word) : xxhRound acc w = roundOf acc w := rfl

/-- The words of a stripe are read from the bytes of the buffer, by index. -/
theorem wordAt_toList (v : Vector Byte 16) (i : Nat) (h : i + 3 < 16) :
    wordAt v.toList i = leWord v[i] v[i + 1] v[i + 2] v[i + 3] := by
  rw [wordAt, wordOf_eq_leWord]
  simp [List.getD_eq_getElem?_getD, h, show i < 16 by omega, show i + 1 < 16 by omega, show i + 2 < 16 by omega]

/-! ### The tail of a digest (R225) -/

/-- One word of the tail. -/
def mixWord (x w : Word) : Word := rotated (x + w * 0xC2B2AE3D) 17 * 0x27D4EB2F

/-- One byte of the tail. -/
def mixByte (x : Word) (b : Byte) : Word := rotated (x + b.zeroExtend 32 * 0x165667B1) 11 * 0x9E3779B1

/-- The words of a tail of `n` bytes, as R225 indexes them. -/
def tailWords (x : Word) (byte : Nat → Byte) (n : Nat) : Word :=
  (List.range (n / 4)).foldl
    (fun x k => mixWord x (leWord (byte (4 * k)) (byte (4 * k + 1)) (byte (4 * k + 2)) (byte (4 * k + 3)))) x

/-- The tail of `n` bytes, as R225 indexes them: the words, then the bytes after them. -/
def tailByIndex (x : Word) (byte : Nat → Byte) (n : Nat) : Word :=
  (List.range (n % 4)).foldl (fun x k => mixByte x (byte (4 * (n / 4) + k))) (tailWords x byte n)

/-- R225, R226: the rules' start value and AVALANCHE are the model's; their tail is the one by index. -/
theorem digestOf_eq_avalanche_tailByIndex (h : HashCtx) :
    digestOf h = avalanche (tailByIndex ((if h.large then h.lanes.merge else h.v3 + prime5) + h.total)
      (fun i => h.buf.toList.getD i 0) h.count.val) := rfl

/-- A word at the head of the tail is mixed in first. -/
theorem tailByIndex_add_four (x : Word) (byte : Nat → Byte) (n : Nat) :
    tailByIndex x byte (n + 4) =
      tailByIndex (mixWord x (leWord (byte 0) (byte 1) (byte 2) (byte 3))) (fun i => byte (i + 4)) n := by
  have hdiv : (n + 4) / 4 = n / 4 + 1 := by omega
  have hmod : (n + 4) % 4 = n % 4 := by omega
  simp only [tailByIndex, tailWords, hdiv, hmod, List.range_succ_eq_map, List.foldl_cons, List.foldl_map,
    Nat.mul_succ, Nat.mul_zero, Nat.zero_add, Nat.add_right_comm _ 4]

/-- Where no word is left, the byte at the head of the tail is mixed in first. -/
theorem tailByIndex_succ_of_lt (x : Word) (byte : Nat → Byte) {n : Nat} (h : n < 3) :
    tailByIndex x byte (n + 1) = tailByIndex (mixByte x (byte 0)) (fun i => byte (i + 1)) n := by
  have hdiv : (n + 1) / 4 = 0 := by omega
  have hdiv' : n / 4 = 0 := by omega
  have hmod : (n + 1) % 4 = n + 1 := by omega
  have hmod' : n % 4 = n := by omega
  simp [tailByIndex, tailWords, hdiv, hdiv', hmod, hmod', List.range_succ_eq_map, List.foldl_map]

theorem length_lt_three {rest : List Byte} (h : ∀ b1 b2 b3 tail, rest = b1 :: b2 :: b3 :: tail → False) :
    rest.length < 3 := by
  match rest, h with
  | [], _ | [_], _ | [_, _], _ => simp
  | b1 :: b2 :: b3 :: tail, h => exact (h b1 b2 b3 tail rfl).elim

theorem digestTail_byte (x : Word) (b : Byte) {rest : List Byte} (h : rest.length < 3) :
    digestTail x (b :: rest) = digestTail (mixByte x b) rest := by
  rw [digestTail, mixByte]
  · rfl
  · rintro b1 b2 b3 rest rfl
    exact absurd h (by simp)

/-- The tail of the bytes at the head of a list, whatever stands after them, is the tail by index. -/
theorem digestTail_eq_tailByIndex (x : Word) (bytes after : List Byte) :
    digestTail x bytes = tailByIndex x (fun i => (bytes ++ after).getD i 0) bytes.length := by
  induction x, bytes using digestTail.induct with
  | case1 x b0 b1 b2 b3 rest ih =>
    have hlen : (b0 :: b1 :: b2 :: b3 :: rest).length = rest.length + 4 := rfl
    rw [digestTail, ih, hlen, tailByIndex_add_four, wordOf_eq_leWord]
    rfl
  | case2 x b rest hlt ih =>
    have hrest := length_lt_three hlt
    rw [digestTail_byte x b hrest, List.length_cons, tailByIndex_succ_of_lt _ _ hrest]
    exact ih
  | case3 x => rfl

/-- R225, R226: the model's digest is the one of the rules. -/
theorem digestValue_eq_digestOf (h : HashCtx) : h.digestValue = digestOf h := by
  have hbuf : h.pending ++ h.buf.toList.drop h.count.val = h.buf.toList := List.take_append_drop _ _
  have hlen : h.pending.length = h.count.val := by simp [HashCtx.pending]
  rw [HashCtx.digestValue, digestTail_eq_tailByIndex _ _ (h.buf.toList.drop h.count.val), hbuf, hlen,
    digestOf_eq_avalanche_tailByIndex]

/-! ### HASH_DIGEST (R159) -/

/-- R159: HASH_DIGEST writes the digest of the selected context to its digest register. -/
theorem exec_hashDigest_idle {s : State} (hb : s.status.busy = false) :
    exec .hashDigest s = .next (finish ((prologue 0x12 s).setHash s.activeCtx
      { s.hash s.activeCtx with digest := (s.hash s.activeCtx).digestValue })) := acceptCommand_idle hb

/-- R61: the header check is a view of the digest register. -/
theorem readReg_hHdrchk (s : State) (c : Ctx) :
    s.readReg (.hHdrchk c) = (s.readReg (.hDigest c) >>> 8) &&& 0xFF#32 := rfl

/-- Settles O17: the active context is the one set, to itself with the digest of the rules; the rest is the frame of `setHash`. -/
theorem hashDigestWritesOnlyTheDigest : Obligations.HashDigestWritesOnlyTheDigest := by
  intro s hb
  rw [ctxOf_eq_activeCtx]
  refine ⟨_, exec_hashDigest_idle hb, ?_, readReg_hHdrchk _ _, fun c hc => ?_, finish_setHash_prologue _ _ _ s⟩
  · rw [finish_hash, setHash_hash_same, digestValue_eq_digestOf]
  · rw [finish_hash, setHash_hash_other _ _ _ _ hc, prologue_hash]

/-! ### HABS (R223, R224) -/

theorem engineStep_habs {s : State} (hb : s.status.busy = true) (hst : s.status.state = .habs) :
    engineStep s = habsStep s := by simp only [engineStep_busy hb, engineAction, hst]

/-- R161, R223: a running HASH_UPDATE has a byte left, and its data lie in their buffer. -/
theorem State.Inv.hashAddr_lt {s : State} (hi : s.Inv) (hst : s.status.state = .habs) :
    s.hashAddr < s.spaceSize s.hashSpace := by
  obtain ⟨-, -, -, -, hhash⟩ := hi.engine
  obtain ⟨⟨hcfg, hpos⟩, -⟩ := hhash hst
  unfold State.hashAddr
  omega

theorem habsStep_of_lt {s : State} (h : s.hashAddr < s.spaceSize s.hashSpace) :
    habsStep s = .next (habsWith (s.byteAt s.hashSpace s.hashAddr) s) := engineRead_of_lt h

/-- R223, R224: the sixteenth byte completes the stripe, which is folded into the lanes. -/
theorem absorb_of_last {h : HashCtx} {b : Byte} (hc : h.count.val + 1 = 16) :
    h.absorb b =
      ({ h with buf := h.buf.set h.count.val b h.count.isLt, total := h.total + 1 } : HashCtx).stripe := by
  simp [HashCtx.absorb, hc]

/-- R224: STRIPE with ROUND, and the buffer read as four little-endian words. -/
theorem stripe_eq (h : HashCtx) :
    h.stripe = { h with
      v1 := roundOf h.v1 (leWord h.buf[0] h.buf[1] h.buf[2] h.buf[3]),
      v2 := roundOf h.v2 (leWord h.buf[4] h.buf[5] h.buf[6] h.buf[7]),
      v3 := roundOf h.v3 (leWord h.buf[8] h.buf[9] h.buf[10] h.buf[11]),
      v4 := roundOf h.v4 (leWord h.buf[12] h.buf[13] h.buf[14] h.buf[15]),
      count := 0, large := true } := by
  simp [HashCtx.stripe, HashCtx.withLanes, HashCtx.lanes, Lanes.fold, wordAt_toList, xxhRound_eq_roundOf]

/-- Setting a context leaves STATUS as it was. -/
theorem setHash_withStatus_self (s : State) (c : Ctx) (h : HashCtx) :
    { s.setHash c h with status := s.status } = s.setHash c h := by cases c <;> rfl

/-- Beside the contexts, setting one and STATUS changes STATUS alone. -/
theorem setHash_withStatus_frame (s : State) (c : Ctx) (h : HashCtx) (st : Status) :
    { s.setHash c h with status := st } = { s with h0 := (s.setHash c h).h0, h1 := (s.setHash c h).h1, status := st } := by
  cases c <;> rfl

/-- R223: a HABS step sets the active context and, at the last byte, ends the command. -/
theorem habsWith_eq (b : Byte) (s : State) :
    habsWith b s =
      { s.setHash s.activeCtx { (s.hash s.activeCtx).absorb b with pos := (s.hash s.activeCtx).pos + 1 } with
        status := if (s.hash s.activeCtx).pos + 1 = (s.hash s.activeCtx).len then doneStatus s else s.status } := by
  unfold habsWith
  simp only [absorb_pos, absorb_len]
  split
  · rw [finish_eq_doneStatus, doneStatus, setHash_status, doneStatus]
  · exact (setHash_withStatus_self s _ _).symm

/-- Settles O31: the invariant keeps the read inside its buffer, so the step sets the active context to `HashCtx.absorb` of the byte;
the rest is the frame of `setHash`. -/
theorem hashStepAbsorbsOneByte : Obligations.HashStepAbsorbsOneByte := by
  intro s hi hb hst h b buf
  have hstep : engineStep s = .next (habsWith b s) :=
    (engineStep_habs hb hst).trans (habsStep_of_lt (hi.hashAddr_lt hst))
  have hset : (habsWith b s).hash (ctxOf s) = { h.absorb b with pos := h.pos + 1 } := by
    rw [habsWith_eq]
    exact setHash_hash_same s _ _
  refine ⟨habsWith b s, hstep, fun hlt => ?_, fun hlast => ?_, fun c hc => ?_, ?_⟩
  · rw [hset, absorb_of_lt (by omega)]
  · rw [hset, absorb_of_last (by omega), stripe_eq]
  · rw [habsWith_eq]
    exact setHash_hash_other s _ c _ hc
  · rw [habsWith_eq]
    exact setHash_withStatus_frame s _ _ _

end Sys2Proof.Machine
end

section
/-!
The encoding of a block (spec/30_encoding.md R120 to R136): lengths, tokens and offsets are read back from their bytes, and no other bytes
give them.
-/

namespace Sys2Proof

/-! ### Lengths (R122, R123, R130) -/

@[simp] theorem toNat_extCont : Config.extCont.toNat = 255 := rfl

/-- R122: a run of `k` bytes of 255 goes on to its last byte. -/
theorem extension_run (k : Nat) {e : Byte} (he : e ≠ Config.extCont) (rest : List Byte) (acc : Nat) :
    Decode.extension (List.replicate k Config.extCont ++ e :: rest) acc = some (acc + 255 * k + e.toNat, rest) := by
  induction k generalizing acc with
  | zero => simp [Decode.extension, he]
  | succ k ih =>
    simp only [List.replicate_succ, List.cons_append, Decode.extension, if_true, ih]
    rw [toNat_extCont]
    congr 2
    omega

/-- R122: whatever extension run is read, it is some bytes of 255 and one other byte. -/
theorem extension_some {bytes rest : List Byte} {acc n : Nat} (h : Decode.extension bytes acc = some (n, rest)) :
    ∃ (k : Nat) (e : Byte), e ≠ Config.extCont ∧ bytes = List.replicate k Config.extCont ++ e :: rest ∧
      n = acc + 255 * k + e.toNat := by
  induction bytes generalizing acc with
  | nil => cases h
  | cons e tail ih =>
    simp only [Decode.extension] at h
    split at h
    · next he =>
      subst he
      obtain ⟨k, e, he, rfl, rfl⟩ := ih h
      refine ⟨k + 1, e, he, rfl, ?_⟩
      rw [toNat_extCont]
      omega
    · next he =>
      cases h
      exact ⟨0, e, he, rfl, rfl⟩

/-- R130, R136: the extension bytes of a length from its quotient and remainder by 255. -/
theorem encode_extension_of_le {n : Nat} (h : 15 ≤ n) :
    Encode.extension n = List.replicate ((n - 15) / 255) Config.extCont ++ [BitVec.ofNat 8 ((n - 15) % 255)] :=
  if_neg (by simpa [Config.nibbleEsc] using h)

theorem encode_extension_of_lt {n : Nat} (h : n < 15) : Encode.extension n = [] := if_pos h

/-- The last extension byte is below 255. -/
theorem extension_lastByte_ne (n : Nat) : BitVec.ofNat 8 (n % 255) ≠ Config.extCont := by
  intro h
  have hval := congrArg BitVec.toNat h
  rw [BitVec.toNat_ofNat, toNat_extCont] at hval
  omega

theorem toNat_nibble (n : Nat) : (Encode.nibble n).toNat = min n 15 := by
  simp [Encode.nibble, Config.nibbleEsc]

/-- R123, R127, R136: a length is read back from its nibble and its extension bytes. -/
theorem length_encode (n : Nat) (rest : List Byte) :
    Decode.length (Encode.nibble n) (Encode.extension n ++ rest) = some (n, rest) := by
  unfold Decode.length
  rw [toNat_nibble]
  by_cases h : n < 15
  · rw [if_neg (by rw [Config.nibbleEsc]; omega), encode_extension_of_lt h, Nat.min_eq_left h.le]
    rfl
  · have hn : Config.nibbleEsc + 255 * ((n - 15) / 255) + (BitVec.ofNat 8 ((n - 15) % 255)).toNat = n := by
      rw [BitVec.toNat_ofNat, Config.nibbleEsc]
      omega
    rw [if_pos (by rw [Config.nibbleEsc]; omega), encode_extension_of_le (by omega), List.append_assoc,
      List.singleton_append, extension_run _ (extension_lastByte_ne _), hn]

/-- R130: a length has no other nibble and extension bytes than its own. -/
theorem encode_of_length {nib : BitVec 4} {bytes rest : List Byte} {n : Nat}
    (h : Decode.length nib bytes = some (n, rest)) : Encode.nibble n = nib ∧ Encode.extension n ++ rest = bytes := by
  have hnib := nib.isLt
  unfold Decode.length at h
  split at h
  · next hesc =>
    simp only [Config.nibbleEsc] at hesc h
    obtain ⟨k, e, he, rfl, rfl⟩ := extension_some h
    have hlt : e.toNat < 255 := by
      have : e.toNat ≠ 255 := fun h => he (BitVec.eq_of_toNat_eq h)
      omega
    refine ⟨BitVec.eq_of_toNat_eq ?_, ?_⟩
    · rw [toNat_nibble]; omega
    · have hdiv : (15 + 255 * k + e.toNat - 15) / 255 = k := by omega
      have hmod : (15 + 255 * k + e.toNat - 15) % 255 = e.toNat := by omega
      rw [encode_extension_of_le (by omega), hdiv, hmod]
      simp
  · next hesc =>
    cases h
    simp only [Config.nibbleEsc] at hesc
    refine ⟨BitVec.eq_of_toNat_eq ?_, ?_⟩
    · rw [toNat_nibble]; omega
    · rw [encode_extension_of_lt (by omega)]; rfl

/-! ### Fields (R121, R125, R136) -/

@[simp] theorem literalNibble_token (ll ml : BitVec 4) : Decode.literalNibble (Encode.token ll ml) = ll := by
  unfold Decode.literalNibble Encode.token
  exact BitVec.extractLsb'_append_eq_left

@[simp] theorem matchNibble_token (ll ml : BitVec 4) : Decode.matchNibble (Encode.token ll ml) = ml := by
  unfold Decode.matchNibble Encode.token
  exact BitVec.extractLsb'_append_eq_right

/-- R121: a token is its two nibbles. -/
@[simp] theorem token_nibbles (t : Byte) : Encode.token (Decode.literalNibble t) (Decode.matchNibble t) = t := by
  refine BitVec.eq_of_getLsbD_eq fun i hi => ?_
  simp only [Encode.token, Decode.literalNibble, Decode.matchNibble, BitVec.getLsbD_append, BitVec.getLsbD_extractLsb']
  grind

@[simp] theorem offsetLow_offsetOf (o0 o1 : Byte) : Decode.offsetLow (Decode.offsetOf o0 o1) = o0 := by
  unfold Decode.offsetLow Decode.offsetOf
  exact BitVec.extractLsb'_append_eq_right

@[simp] theorem offsetHigh_offsetOf (o0 o1 : Byte) : Decode.offsetHigh (Decode.offsetOf o0 o1) = o1 := by
  unfold Decode.offsetHigh Decode.offsetOf
  exact BitVec.extractLsb'_append_eq_left

/-- R125, R136: an offset is its two bytes. -/
@[simp] theorem offsetOf_bytes (o : BitVec 16) : Decode.offsetOf (Decode.offsetLow o) (Decode.offsetHigh o) = o := by
  refine BitVec.eq_of_getLsbD_eq fun i hi => ?_
  simp only [Decode.offsetOf, Decode.offsetLow, Decode.offsetHigh, BitVec.getLsbD_append, BitVec.getLsbD_extractLsb']
  grind

/-! ### Sequences (R120, R129, R135) -/

/-- R135: the encoding of SEQ, its token first. -/
theorem encode_seq (lits : List Byte) (off : BitVec 16) (mraw : Nat) :
    encode (.seq lits off mraw) = Encode.token (Encode.nibble lits.length) (Encode.nibble mraw) ::
      (Encode.extension lits.length ++ (lits ++
        (Decode.offsetLow off :: Decode.offsetHigh off :: Encode.extension mraw))) := by
  simp [encode]

/-- R129, R135: the encoding of LAST, its token first. -/
theorem encode_last (lits : List Byte) (ml : BitVec 4) :
    encode (.last lits ml) =
      Encode.token (Encode.nibble lits.length) ml :: (Encode.extension lits.length ++ lits) := by
  simp [encode]

/-- R123: a token with its literals is read back, whatever its match nibble; what follows is OFFSET and MEXT, or nothing. -/
theorem sequence_encode (lits : List Byte) (ml : BitVec 4) (tail : List Byte) :
    Decode.sequence
      (Encode.token (Encode.nibble lits.length) ml :: (Encode.extension lits.length ++ (lits ++ tail))) =
      Decode.afterLiterals lits ml tail := by
  simp [Decode.sequence, length_encode]

theorem decode_encode_seq (lits : List Byte) (off : BitVec 16) (mraw : Nat) (rest : List Byte) :
    Decode.sequence (encode (.seq lits off mraw) ++ rest) = .ok (.seq lits off mraw, rest) := by
  simp only [encode_seq, List.cons_append, List.append_assoc]
  rw [sequence_encode, Decode.afterLiterals, length_encode, offsetOf_bytes]

theorem decode_encode_last (lits : List Byte) (ml : BitVec 4) :
    Decode.sequence (encode (.last lits ml)) = .ok (.last lits ml, []) := by
  have h := sequence_encode lits ml []
  rwa [List.append_nil, ← encode_last] at h

theorem decode_encode_command {i : Instr} {op : Byte} (h : i.opcode = some op) (rest : List Byte) :
    decode .command (encode i ++ rest) = .ok (i, rest) := by
  cases i with
  | ack | decStart | rawCopy | hashInit | hashUpdate | hashDigest | softReset => rfl
  | _ => nomatch h

/-- Settles O35: a command by its opcode, an element by its own bytes, a sequence by its lengths and fields. -/
theorem decodeInvertsEncode : Obligations.DecodeInvertsEncode := by
  intro i rest h
  cases i with
  | ack | decStart | rawCopy | hashInit | hashUpdate | hashDigest | softReset => exact decode_encode_command rfl rest
  | token _ | lext _ | literal _ | mext _ => rfl
  | offset o => exact congrArg (fun o => Except.ok (Instr.offset o, rest)) (offsetOf_bytes o)
  | seq lits off mraw => exact decode_encode_seq lits off mraw rest
  | last lits ml =>
    obtain h | rfl := h
    · exact absurd rfl (h lits ml)
    · rw [List.append_nil]; exact decode_encode_last lits ml

/-! ### One encoding for each element (R130) -/

/-- What follows the literals of a sequence: nothing after a LAST, else the offset and the match length's extension bytes. -/
theorem afterLiterals_ok {lits bytes rest : List Byte} {ml : BitVec 4} {i : Instr}
    (h : Decode.afterLiterals lits ml bytes = .ok (i, rest)) :
    (i = .last lits ml ∧ bytes = [] ∧ rest = []) ∨
    ∃ (off : BitVec 16) (mraw : Nat), i = .seq lits off mraw ∧ ml = Encode.nibble mraw ∧
      bytes = Decode.offsetLow off :: Decode.offsetHigh off :: (Encode.extension mraw ++ rest) := by
  unfold Decode.afterLiterals at h
  split at h
  · cases h; exact .inl ⟨rfl, rfl, rfl⟩
  · cases h
  · split at h
    · cases h
    · next o0 o1 tail _ mraw rest' hlen =>
      cases h
      obtain ⟨hnib, hext⟩ := encode_of_length hlen
      exact .inr ⟨_, _, rfl, hnib.symm, by simp [hext]⟩

/-- R120, R130: the bytes a sequence is decoded from are its encoding and what is left. -/
theorem encode_of_sequence {bytes rest : List Byte} {i : Instr} (h : Decode.sequence bytes = .ok (i, rest)) :
    encode i ++ rest = bytes ∧ i.slot = .sequence := by
  unfold Decode.sequence at h
  split at h
  · cases h
  · next t tail =>
    split at h
    · cases h
    · next n tail' hlen =>
      split at h
      · cases h
      · next hn =>
        obtain ⟨hnib, rfl⟩ := encode_of_length hlen
        have hlits : (tail'.take n).length = n := List.length_take_of_le (by omega)
        obtain ⟨rfl, hdrop, rfl⟩ | ⟨off, mraw, rfl, hml, hdrop⟩ := afterLiterals_ok h
        · have htake := List.take_append_drop n tail'
          rw [hdrop, List.append_nil] at htake
          refine ⟨?_, rfl⟩
          rw [encode_last, hlits, hnib, token_nibbles, htake, List.append_nil]
        · refine ⟨?_, rfl⟩
          rw [encode_seq, hlits, hnib, ← hml, token_nibbles]
          simp only [List.cons_append, List.append_assoc, ← hdrop, List.take_append_drop]

/-- Settles O36: a sequence by `encode_of_sequence`, the other elements by their one or two bytes. -/
theorem encodeInvertsDecodeInABlock : Obligations.EncodeInvertsDecodeInABlock := by
  intro slot bytes rest i hslot h
  cases slot with
  | command => exact absurd rfl hslot
  | sequence => exact encode_of_sequence h
  | token | lext | literal | mext =>
    match bytes with
    | [] => cases h
    | _ :: _ => cases h; exact ⟨rfl, rfl⟩
  | offset =>
    match bytes with
    | [] | [_] => cases h
    | o0 :: o1 :: tail => cases h; exact ⟨by simp [encode], rfl⟩

/-! ### Blocks (R135) -/

theorem encode_ne_nil (i : Instr) : 1 ≤ (encode i).length := by
  cases i with
  | seq lits off mraw => simp [encode_seq]
  | last lits ml => simp [encode_last]
  | _ => simp [encode, Encode.command]

theorem length_le_encodeBlock (is : List Instr) : is.length ≤ (encodeBlock is).length := by
  induction is with
  | nil => exact Nat.le_refl 0
  | cons i is ih =>
    have := encode_ne_nil i
    simp only [encodeBlock, List.flatMap_cons, List.length_append, List.length_cons] at ih ⊢
    omega

/-- With fuel for each of its lines a block is read back, a line in each turn. -/
theorem decodeBlockFuel_encodeBlock {is : List Instr} (h : ∀ i ∈ is, ∃ l o m, i = .seq l o m) (lits : List Byte)
    (ml : BitVec 4) {fuel : Nat} (hf : is.length < fuel) :
    decodeBlockFuel fuel (encodeBlock (is ++ [.last lits ml])) = .ok (is ++ [.last lits ml]) := by
  induction is generalizing fuel with
  | nil =>
    obtain ⟨fuel, rfl⟩ := Nat.exists_eq_add_of_lt hf
    simp [encodeBlock, decodeBlockFuel, decode_encode_last]
  | cons i is ih =>
    obtain ⟨fuel, rfl⟩ := Nat.exists_eq_add_of_lt hf
    obtain ⟨l, o, m, rfl⟩ := h _ List.mem_cons_self
    have ih' := @ih (fun i hi => h i (List.mem_cons_of_mem _ hi)) (is.length + 1 + fuel) (by omega)
    have hblock : encodeBlock (.seq l o m :: is ++ [.last lits ml]) =
        encode (.seq l o m) ++ encodeBlock (is ++ [.last lits ml]) := by simp [encodeBlock]
    rw [hblock]
    simp [decodeBlockFuel, decode_encode_seq, ih']

/-- Settles O37: the length of the bytes is fuel enough for the lines. -/
theorem blockDisassemblyInvertsAssembly : Obligations.BlockDisassemblyInvertsAssembly := by
  intro is lits ml h
  refine decodeBlockFuel_encodeBlock h lits ml ?_
  have := length_le_encodeBlock (is ++ [.last lits ml])
  simp only [List.length_append, List.length_cons, List.length_nil] at this
  omega

/-- Settles O34: small closed decodings. -/
theorem writtenOutWordsDecode : Obligations.WrittenOutWordsDecode := by
  unfold Obligations.WrittenOutWordsDecode
  decide

end Sys2Proof
end

section
/-!
One turn of a busy engine (spec/41_block_decode.md R180 to R190, spec/42_xxhash32.md R223): every way it can go, said once.
-/

open Sys2Proof.Claims

namespace Sys2Proof.Machine

/-! ### What an element does when it is not at the end of the input -/

/-- R181: the token is recorded and its literal nibble taken as the count. -/
def tokenTaken (b : Byte) (s : State) : State :=
  { s with inPos := s.inPos + 1, dToken := b, dCount := (Decode.literalNibble b).zeroExtend 32,
           status := { s.status with state := if Decode.literalNibble b = 15 then .lext else .litchk } }

/-- R182, R187, R191: an extension byte is added, and the run goes on while it is 255. -/
def extensionTaken (e : Byte) (last : EngState) (s : State) : State :=
  { s with inPos := s.inPos + 1, dCount := sat32 (s.dCount.toNat + e.toNat),
           status := if e = Config.extCont then s.status else { s.status with state := last } }

/-- R185: the low byte of the offset. -/
def offsetLowTaken (lo : Byte) (s : State) : State :=
  { s with inPos := s.inPos + 1, dOffset := lo.zeroExtend 16, status := { s.status with state := .off1 } }

/-- R186: the high byte of the offset, and the match nibble as the count. -/
def offsetHighTaken (hi : Byte) (s : State) : State :=
  { s with inPos := s.inPos + 1, dOffset := s.dOffset ||| hi.zeroExtend 16 <<< 8,
           dCount := (Decode.matchNibble s.dToken).zeroExtend 32,
           status := { s.status with state := if Decode.matchNibble s.dToken = 15 then .mext else .mchk } }

/-- R184, R189: a byte is appended to the output and counted off its run. -/
def byteAppended (b : Byte) (last : EngState) (s : State) : State :=
  { s.putByte .obuf s.outAddr b with
    outLen := s.outLen + 1, dCount := s.dCount - 1,
    status := if s.dCount = 1 then { s.status with state := last } else s.status }

/-- R188: the match length with the four bytes its encoding leaves out. -/
def matchCompleted (s : State) : State := { s with dCount := sat32 (s.dCount.toNat + Config.minMatch) }

/-- R190: a byte of a stored block is copied, and the last one ends the command. -/
def rawTaken (b : Byte) (s : State) : State :=
  { s.putByte .obuf s.outAddr b with
    inPos := s.inPos + 1, outLen := s.outLen + 1,
    status := if s.inPos + 1 = s.inLen then doneStatus s else s.status }

theorem execToken_of_ne {s : State} (h : s.inPos ≠ s.inLen) (b : Byte) : execToken b s = .next (tokenTaken b s) :=
  if_neg h

theorem extensionStep_of_ne {s : State} (h : s.inPos ≠ s.inLen) (e : Byte) (last : EngState) :
    extensionStep e last s = .next (extensionTaken e last s) := by
  refine (if_neg h).trans (congrArg Host.Outcome.next ?_)
  by_cases he : e = Config.extCont
  · simp [he, extensionTaken, advanceInput]
  · simp [he, extensionTaken, advanceInput, State.enter]

theorem offsetLowStep_of_ne {s : State} (h : s.inPos ≠ s.inLen) (lo : Byte) :
    offsetLowStep lo s = .next (offsetLowTaken lo s) := if_neg h

theorem offsetHighStep_of_ne {s : State} (h : s.inPos ≠ s.inLen) (hi : Byte) :
    offsetHighStep hi s = .next (offsetHighTaken hi s) := if_neg h

theorem execToken_of_end {s : State} (h : s.inPos = s.inLen) (b : Byte) :
    execToken b s = .next (raiseError .truncated s) := if_pos h

theorem extensionStep_of_end {s : State} (h : s.inPos = s.inLen) (e : Byte) (last : EngState) :
    extensionStep e last s = .next (raiseError .truncated s) := if_pos h

theorem offsetLowStep_of_end {s : State} (h : s.inPos = s.inLen) (lo : Byte) :
    offsetLowStep lo s = .next (finish s) := if_pos h

theorem offsetHighStep_of_end {s : State} (h : s.inPos = s.inLen) (hi : Byte) :
    offsetHighStep hi s = .next (raiseError .truncated s) := if_pos h

theorem appendByte_eq {s : State} (h : s.outAddr < s.params.obufSize) (b : Byte) (last : EngState) :
    appendByte b last s = .next (byteAppended b last s) := appendByte_of_lt h

theorem execLiteral_eq {s : State} (h : s.outAddr < s.params.obufSize) (b : Byte) :
    execLiteral b s = .next (byteAppended b .off0 (advanceInput s)) := appendByte_eq (s := advanceInput s) h b .off0

/-! ### The action of each state (R180) -/

theorem engineStep_token {s : State} (hb : s.status.busy = true) (hst : s.status.state = .token) :
    engineStep s = elementTurn truncatedEnd execToken s := by simp only [engineStep_busy hb, engineAction, hst]; rfl

theorem engineStep_lext {s : State} (hb : s.status.busy = true) (hst : s.status.state = .lext) :
    engineStep s = elementTurn truncatedEnd (extensionStep · .litchk) s := by
  simp only [engineStep_busy hb, engineAction, hst]; rfl

theorem engineStep_lit {s : State} (hb : s.status.busy = true) (hst : s.status.state = .lit) :
    engineStep s = fetchInput (execLiteral · s) s := by simp only [engineStep_busy hb, engineAction, hst]; rfl

theorem engineStep_off0 {s : State} (hb : s.status.busy = true) (hst : s.status.state = .off0) :
    engineStep s = elementTurn finishEnd offsetLowStep s := by simp only [engineStep_busy hb, engineAction, hst]

theorem engineStep_off1 {s : State} (hb : s.status.busy = true) (hst : s.status.state = .off1) :
    engineStep s = elementTurn truncatedEnd offsetHighStep s := by simp only [engineStep_busy hb, engineAction, hst]

theorem engineStep_mext {s : State} (hb : s.status.busy = true) (hst : s.status.state = .mext) :
    engineStep s = elementTurn truncatedEnd (extensionStep · .mchk) s := by
  simp only [engineStep_busy hb, engineAction, hst]; rfl

theorem elementTurn_of_end {atEnd : State → Result} {element : Byte → State → Result} {s : State}
    (h : s.inPos = s.inLen) : elementTurn atEnd element s = atEnd s := if_pos h

theorem elementTurn_of_ne {atEnd : State → Result} {element : Byte → State → Result} {s : State}
    (h : s.inPos ≠ s.inLen) (hin : s.inAddr < s.params.ibufSize) :
    elementTurn atEnd element s = element (s.byteAt .ibuf s.inAddr) s :=
  (if_neg h).trans (engineRead_of_lt (sp := .ibuf) hin)

/-! ### Every way a turn can go -/

/-- One turn of a busy engine: each constructor is one branch of the step rule of a state. -/
inductive Turn (s : State) : State → Prop
  | truncated (hst : s.status.state ∈ [EngState.token, .lext, .off1, .mext]) (hend : s.inPos = s.inLen) :
    Turn s (raiseError .truncated s)
  | endOfBlock (hst : s.status.state = .off0) (hend : s.inPos = s.inLen) : Turn s (finish s)
  | token (hst : s.status.state = .token) (hne : s.inPos ≠ s.inLen) (hin : s.inAddr < s.params.ibufSize) :
    Turn s (tokenTaken (s.byteAt .ibuf s.inAddr) s)
  | extension (last : EngState) (hst : (s.status.state, last) ∈ [(EngState.lext, EngState.litchk), (.mext, .mchk)])
    (hne : s.inPos ≠ s.inLen) (hin : s.inAddr < s.params.ibufSize) :
    Turn s (extensionTaken (s.byteAt .ibuf s.inAddr) last s)
  | literalsTruncated (hst : s.status.state = .litchk) (hover : s.inLen.toNat < s.inPos.toNat + s.dCount.toNat) :
    Turn s (raiseError .truncated s)
  | literalsLimit (hst : s.status.state = .litchk) (hleft : s.inPos.toNat + s.dCount.toNat ≤ s.inLen.toNat)
    (hover : s.maxSize.toNat < s.outLen.toNat + s.dCount.toNat) : Turn s (raiseError .outputLimit s)
  | literalsFit (hst : s.status.state = .litchk) (hleft : s.inPos.toNat + s.dCount.toNat ≤ s.inLen.toNat)
    (hroom : s.outLen.toNat + s.dCount.toNat ≤ s.maxSize.toNat) :
    Turn s (s.enter (if s.dCount = 0 then .off0 else .lit))
  | literal (hst : s.status.state = .lit) (hin : s.inAddr < s.params.ibufSize) (hout : s.outAddr < s.params.obufSize) :
    Turn s (byteAppended (s.byteAt .ibuf s.inAddr) .off0 (advanceInput s))
  | offsetLow (hst : s.status.state = .off0) (hne : s.inPos ≠ s.inLen) (hin : s.inAddr < s.params.ibufSize) :
    Turn s (offsetLowTaken (s.byteAt .ibuf s.inAddr) s)
  | offsetHigh (hst : s.status.state = .off1) (hne : s.inPos ≠ s.inLen) (hin : s.inAddr < s.params.ibufSize) :
    Turn s (offsetHighTaken (s.byteAt .ibuf s.inAddr) s)
  | offsetZero (hst : s.status.state = .mchk) (hzero : s.dOffset = 0) :
    Turn s (raiseError .offsetZero (matchCompleted s))
  | offsetRange (hst : s.status.state = .mchk) (hnz : s.dOffset ≠ 0)
    (hfar : s.outLen.toNat + s.winEff.toNat < s.dOffset.toNat) : Turn s (raiseError .offsetRange (matchCompleted s))
  | matchLimit (hst : s.status.state = .mchk) (hnz : s.dOffset ≠ 0)
    (hreach : s.dOffset.toNat ≤ s.outLen.toNat + s.winEff.toNat)
    (hover : s.maxSize.toNat < s.outLen.toNat + (matchCompleted s).dCount.toNat) :
    Turn s (raiseError .outputLimit (matchCompleted s))
  | matchFits (hst : s.status.state = .mchk) (hnz : s.dOffset ≠ 0)
    (hreach : s.dOffset.toNat ≤ s.outLen.toNat + s.winEff.toNat)
    (hroom : s.outLen.toNat + (matchCompleted s).dCount.toNat ≤ s.maxSize.toNat) :
    Turn s ((matchCompleted s).enter .copy)
  | copy (hst : s.status.state = .copy) (hout : s.outAddr < s.params.obufSize) :
    Turn s (byteAppended (s.byteAt .obuf s.matchAddr) .token s)
  | rawLimit (hst : s.status.state = .raw) (hpos : s.inPos = 0) (hover : s.maxSize.toNat < s.inLen.toNat) :
    Turn s (raiseError .outputLimit s)
  | rawEnd (hst : s.status.state = .raw) (hfits : ¬(s.inPos = 0 ∧ s.maxSize.toNat < s.inLen.toNat))
    (hend : s.inPos = s.inLen) : Turn s (finish s)
  | rawByte (hst : s.status.state = .raw) (hfits : ¬(s.inPos = 0 ∧ s.maxSize.toNat < s.inLen.toNat))
    (hne : s.inPos ≠ s.inLen) (hin : s.inAddr < s.params.ibufSize) (hout : s.outAddr < s.params.obufSize) :
    Turn s (rawTaken (s.byteAt .ibuf s.inAddr) s)
  | habs (hst : s.status.state = .habs) (hin : s.hashAddr < s.spaceSize s.hashSpace) :
    Turn s (habsWith (s.byteAt s.hashSpace s.hashAddr) s)

/-! ### A turn is the engine step -/

/-- R105, R189: where a byte is appended the copy's source, before it, is in OBUF too. -/
theorem copyStep_next {s t : State} (h : copyStep s = .next t) :
    s.outAddr < s.params.obufSize ∧ t = byteAppended (s.byteAt .obuf s.matchAddr) .token s := by
  obtain ⟨-, happ⟩ := engineRead_next h
  obtain ⟨hlt, -⟩ := appendByte_next happ
  rw [appendByte_eq hlt] at happ
  cases happ
  exact ⟨hlt, rfl⟩

/-- The four ways MCHK ends, on the completed match length. -/
theorem mchkStep_next {s t : State} (h : mchkStep s = .next t) :
    (s.dOffset = 0 ∧ t = raiseError .offsetZero (matchCompleted s)) ∨
    (s.dOffset ≠ 0 ∧ s.outLen.toNat + s.winEff.toNat < s.dOffset.toNat ∧
      t = raiseError .offsetRange (matchCompleted s)) ∨
    (s.dOffset ≠ 0 ∧ s.dOffset.toNat ≤ s.outLen.toNat + s.winEff.toNat ∧
      s.maxSize.toNat < s.outLen.toNat + (matchCompleted s).dCount.toNat ∧
      t = raiseError .outputLimit (matchCompleted s)) ∨
    (s.dOffset ≠ 0 ∧ s.dOffset.toNat ≤ s.outLen.toNat + s.winEff.toNat ∧
      s.outLen.toNat + (matchCompleted s).dCount.toNat ≤ s.maxSize.toNat ∧ t = (matchCompleted s).enter .copy) :=
  matchChecks_next (s := matchCompleted s) h

theorem rawStep_next {s t : State} (h : rawStep s = .next t) :
    (s.inPos = 0 ∧ s.maxSize.toNat < s.inLen.toNat ∧ t = raiseError .outputLimit s) ∨
    (¬(s.inPos = 0 ∧ s.maxSize.toNat < s.inLen.toNat) ∧ s.inPos = s.inLen ∧ t = finish s) ∨
    (¬(s.inPos = 0 ∧ s.maxSize.toNat < s.inLen.toNat) ∧ s.inPos ≠ s.inLen ∧ s.inAddr < s.params.ibufSize ∧
      s.outAddr < s.params.obufSize ∧ t = rawTaken (s.byteAt .ibuf s.inAddr) s) := by
  unfold rawStep at h
  split at h
  · next hover => cases h; exact .inl ⟨hover.1, hover.2, rfl⟩
  · next hfits =>
    split at h
    · next hend => cases h; exact .inr (.inl ⟨hfits, hend, rfl⟩)
    · next hne =>
      obtain ⟨hin, hraw⟩ := engineRead_next h
      obtain ⟨hout, -⟩ := engineWrite_next hraw
      rw [rawWith_of_lt hout] at hraw
      cases hraw
      exact .inr (.inr ⟨hfits, hne, hin, hout, rfl⟩)

/-- What a busy engine does is one of the turns. -/
theorem turn_of_engineStep {s t : State} (hb : s.status.busy = true) (h : engineStep s = .next t) : Turn s t := by
  cases hst : s.status.state with
  | idle => rw [engineStep_busy hb, engineAction, hst] at h; cases h
  | token =>
    rw [engineStep_token hb hst] at h
    obtain ⟨hend, hat⟩ | ⟨hne, hin, hel⟩ := elementTurn_next h
    · cases hat; exact .truncated (by simp [hst]) hend
    · rw [execToken_of_ne hne] at hel; cases hel; exact .token hst hne hin
  | lext =>
    rw [engineStep_lext hb hst] at h
    obtain ⟨hend, hat⟩ | ⟨hne, hin, hel⟩ := elementTurn_next h
    · cases hat; exact .truncated (by simp [hst]) hend
    · rw [extensionStep_of_ne hne] at hel; cases hel; exact .extension _ (by simp [hst]) hne hin
  | litchk =>
    rw [engineStep_litchk hb hst] at h
    obtain ⟨hover, rfl⟩ | ⟨hleft, hover, rfl⟩ | ⟨hleft, hroom, rfl⟩ := litchkStep_next h
    · exact .literalsTruncated hst hover
    · exact .literalsLimit hst hleft hover
    · exact .literalsFit hst hleft hroom
  | lit =>
    rw [engineStep_lit hb hst] at h
    obtain ⟨hin, hel⟩ := engineRead_next h
    obtain ⟨hout, -⟩ := appendByte_next hel
    rw [execLiteral_eq (s := s) hout] at hel
    cases hel
    exact .literal hst hin hout
  | off0 =>
    rw [engineStep_off0 hb hst] at h
    obtain ⟨hend, hat⟩ | ⟨hne, hin, hel⟩ := elementTurn_next h
    · cases hat; exact .endOfBlock hst hend
    · rw [offsetLowStep_of_ne hne] at hel; cases hel; exact .offsetLow hst hne hin
  | off1 =>
    rw [engineStep_off1 hb hst] at h
    obtain ⟨hend, hat⟩ | ⟨hne, hin, hel⟩ := elementTurn_next h
    · cases hat; exact .truncated (by simp [hst]) hend
    · rw [offsetHighStep_of_ne hne] at hel; cases hel; exact .offsetHigh hst hne hin
  | mext =>
    rw [engineStep_mext hb hst] at h
    obtain ⟨hend, hat⟩ | ⟨hne, hin, hel⟩ := elementTurn_next h
    · cases hat; exact .truncated (by simp [hst]) hend
    · rw [extensionStep_of_ne hne] at hel; cases hel; exact .extension _ (by simp [hst]) hne hin
  | mchk =>
    rw [engineStep_mchk hb hst] at h
    obtain ⟨hzero, rfl⟩ | ⟨hnz, hfar, rfl⟩ | ⟨hnz, hreach, hover, rfl⟩ | ⟨hnz, hreach, hroom, rfl⟩ := mchkStep_next h
    · exact .offsetZero hst hzero
    · exact .offsetRange hst hnz hfar
    · exact .matchLimit hst hnz hreach hover
    · exact .matchFits hst hnz hreach hroom
  | copy =>
    rw [engineStep_copy hb hst] at h
    obtain ⟨hout, rfl⟩ := copyStep_next h
    exact .copy hst hout
  | raw =>
    rw [engineStep_raw hb hst] at h
    obtain ⟨hpos, hover, rfl⟩ | ⟨hfits, hend, rfl⟩ | ⟨hfits, hne, hin, hout, rfl⟩ := rawStep_next h
    · exact .rawLimit hst hpos hover
    · exact .rawEnd hst hfits hend
    · exact .rawByte hst hfits hne hin hout
  | habs =>
    rw [engineStep_habs hb hst] at h
    obtain ⟨hin, hel⟩ := engineRead_next h
    cases hel
    exact .habs hst hin

/-- Each turn is what a busy engine does. -/
theorem engineStep_of_turn {s t : State} (hb : s.status.busy = true) (h : Turn s t) : engineStep s = .next t := by
  cases h with
  | truncated hst hend =>
    simp only [List.mem_cons, List.not_mem_nil, or_false] at hst
    obtain hst | hst | hst | hst := hst
    · rw [engineStep_token hb hst, elementTurn_of_end hend, truncatedEnd]
    · rw [engineStep_lext hb hst, elementTurn_of_end hend, truncatedEnd]
    · rw [engineStep_off1 hb hst, elementTurn_of_end hend, truncatedEnd]
    · rw [engineStep_mext hb hst, elementTurn_of_end hend, truncatedEnd]
  | endOfBlock hst hend => rw [engineStep_off0 hb hst, elementTurn_of_end hend, finishEnd]
  | token hst hne hin => rw [engineStep_token hb hst, elementTurn_of_ne hne hin, execToken_of_ne hne]
  | extension last hst hne hin =>
    simp only [List.mem_cons, Prod.mk.injEq, List.not_mem_nil, or_false] at hst
    obtain ⟨hst, rfl⟩ | ⟨hst, rfl⟩ := hst
    · rw [engineStep_lext hb hst, elementTurn_of_ne hne hin, extensionStep_of_ne hne]
    · rw [engineStep_mext hb hst, elementTurn_of_ne hne hin, extensionStep_of_ne hne]
  | literalsTruncated hst hover => rw [engineStep_litchk hb hst, litchkStep_of_truncated hover]
  | literalsLimit hst hleft hover => rw [engineStep_litchk hb hst, litchkStep_of_outputLimit hleft hover]
  | literalsFit hst hleft hroom => rw [engineStep_litchk hb hst, litchkStep_of_fits hleft hroom]
  | literal hst hin hout =>
    rw [engineStep_lit hb hst, fetchInput, engineRead_of_lt (sp := .ibuf) hin, execLiteral_eq hout]
  | offsetLow hst hne hin => rw [engineStep_off0 hb hst, elementTurn_of_ne hne hin, offsetLowStep_of_ne hne]
  | offsetHigh hst hne hin => rw [engineStep_off1 hb hst, elementTurn_of_ne hne hin, offsetHighStep_of_ne hne]
  | offsetZero hst hzero => exact (engineStep_mchk hb hst).trans (matchChecks_of_offsetZero hzero)
  | offsetRange hst hnz hfar => exact (engineStep_mchk hb hst).trans (matchChecks_of_offsetRange hnz hfar)
  | matchLimit hst hnz hreach hover =>
    exact (engineStep_mchk hb hst).trans (matchChecks_of_outputLimit hnz hreach hover)
  | matchFits hst hnz hreach hroom => exact (engineStep_mchk hb hst).trans (matchChecks_of_fits hnz hreach hroom)
  | copy hst hout => rw [engineStep_copy hb hst, copyStep_of_lt hout, appendByte_eq hout]
  | rawLimit hst hpos hover => rw [engineStep_raw hb hst, rawStep_of_outputLimit hpos hover]
  | rawEnd hst hfits hend => exact (engineStep_raw hb hst).trans ((if_neg hfits).trans (if_pos hend))
  | rawByte hst hfits hne hin hout =>
    exact (engineStep_raw hb hst).trans <| (if_neg hfits).trans <| (if_neg hne).trans <|
      (engineRead_of_lt (sp := .ibuf) hin).trans (rawWith_of_lt hout)
  | habs hst hin => rw [engineStep_habs hb hst, habsStep_of_lt hin]

theorem Turn.frame {s t : State} (hb : s.status.busy = true) (h : Turn s t) : EngineFrame s t :=
  engineStep_frame (engineStep_of_turn hb h)

end Sys2Proof.Machine
end

section
/-!
The invariant of Safety (spec/10_state.md R36 to R42, spec/20_memory.md R105, spec/41_block_decode.md R196): power-on meets it, every turn of
the engine keeps it, and where it holds a busy engine always has a turn.
-/

open Sys2Proof.Claims

namespace Sys2Proof.Machine

/-! ### Parts of the invariant -/

theorem State.memoryOk.putByte {s : State} (hm : s.memoryOk) {sp : Space} {a : Nat} (ha : a < s.spaceSize sp) (v : Byte) :
    (s.putByte sp a v).memoryOk := by
  obtain ⟨hiw, how, hir, hor⟩ := hm
  cases sp with
  | ibuf => exact ⟨store_wf hiw a v, how, store_within hir ha v, hor⟩
  | obuf => exact ⟨hiw, store_wf how a v, hir, store_within hor ha v⟩

/-- R36: a running command has a state. -/
theorem Status.ok.enter {st : Status} (h : st.ok) (hb : st.busy = true) {next : EngState} (hn : next ≠ .idle) :
    Status.ok { st with state := next } := by
  obtain ⟨-, hde, hrun, hclear, herr, hcfg⟩ := h
  exact ⟨⟨fun _ => hn, fun _ => hb⟩, hde, hrun, hclear, herr, hcfg⟩

theorem Status.ok.state_ne_idle {st : Status} (h : st.ok) (hb : st.busy = true) : st.state ≠ .idle := h.1.mp hb

/-- R36: an idle engine is in IDLE. -/
theorem State.Inv.state_idle {s : State} (hi : s.Inv) (hb : s.status.busy = false) : s.status.state = .idle := by
  by_contra hne
  have hbusy := hi.status.1.mpr hne
  rw [hb] at hbusy
  cases hbusy

/-- Nothing is asked of the cursors of an idle engine. -/
theorem engineOk_of_idle {s : State} (h : s.status.state = .idle) : s.engineOk := by
  unfold State.engineOk
  simp [h]

theorem State.Inv.of_idle {t : State} (hp : t.params.valid) (hm : t.memoryOk) (hst : t.status.ok)
    (h : t.status.state = .idle) : t.Inv := ⟨hp, hm, hst, engineOk_of_idle h⟩

/-- The invariant without the form of the buffers: what the engine's way through its states rests on. -/
structure State.Sound (s : State) : Prop where
  params : s.params.valid
  status : s.status.ok
  engine : s.engineOk

theorem State.Inv.sound {s : State} (hi : s.Inv) : s.Sound := ⟨hi.params, hi.status, hi.engine⟩

theorem State.Sound.inv {s : State} (h : s.Sound) (hm : s.memoryOk) : s.Inv := ⟨h.params, hm, h.status, h.engine⟩

theorem memoryOk_nil {s : State} (hib : s.ibuf = []) (hob : s.obuf = []) : s.memoryOk := by
  unfold State.memoryOk
  rw [hib, hob]
  refine ⟨wf_nil, wf_nil, ?_, ?_⟩
  · intro c hc; cases hc
  · intro c hc; cases hc

/-- With nothing in its buffers a sound state meets the invariant, and has the same registers. -/
theorem State.Sound.emptied {s : State} (h : s.Sound) : State.Inv { s with ibuf := [], obuf := [] } :=
  ⟨h.params, memoryOk_nil rfl rfl, h.status, h.engine⟩

theorem State.Sound.outAddr_lt_of_copy {s : State} (h : s.Sound) (hst : s.status.state = .copy) :
    s.outAddr < s.params.obufSize := h.emptied.outAddr_lt_of_copy hst

theorem State.Sound.inPos_lt_of_raw {s : State} (h : s.Sound) (hst : s.status.state = .raw) (hne : s.inPos ≠ s.inLen) :
    s.inPos.toNat < s.inLen.toNat := h.emptied.inPos_lt_of_raw hst hne

theorem State.Sound.inAddr_lt_of_raw {s : State} (h : s.Sound) (hst : s.status.state = .raw) (hne : s.inPos ≠ s.inLen) :
    s.inAddr < s.params.ibufSize := h.emptied.inAddr_lt_of_raw hst hne

theorem State.Sound.outAddr_lt_of_raw {s : State} (h : s.Sound) (hst : s.status.state = .raw) (hne : s.inPos ≠ s.inLen)
    (hfits : s.inLen.toNat ≤ s.maxSize.toNat) : s.outAddr < s.params.obufSize := h.emptied.outAddr_lt_of_raw hst hne hfits

theorem State.Sound.hashAddr_lt {s : State} (h : s.Sound) (hst : s.status.state = .habs) :
    s.hashAddr < s.spaceSize s.hashSpace := h.emptied.hashAddr_lt hst

theorem State.Sound.of_idle {t : State} (hp : t.params.valid) (hst : t.status.ok) (h : t.status.state = .idle) : t.Sound :=
  ⟨hp, hst, engineOk_of_idle h⟩

/-- The invariant says nothing of the schedule. -/
theorem State.Inv.withSchedule {s : State} (hi : s.Inv) (es : List Event) : State.Inv { s with schedule := es } :=
  ⟨hi.params, hi.memory, hi.status, hi.engine⟩

/-- Settles O38. -/
theorem powerOnMeetsTheInvariant : Obligations.PowerOnMeetsTheInvariant := by
  intro p hp
  exact .of_idle hp (memoryOk_nil rfl rfl) (by decide : Status.reset.ok) rfl

/-! ### The end of a command -/

/-- R291: an error that a step raises ends the command in a consistent STATUS. -/
theorem Status.ok.error {s : State} (h : s.status.ok) (hb : s.status.busy = true) {code : ErrCode}
    (hcode : code ≠ .noError) (hcfg : code ≠ .config) : (errorStatus s code).ok := by
  obtain ⟨-, -, hrun, -⟩ := h
  obtain ⟨hdone, -⟩ := hrun hb
  refine ⟨?_, ?_, ?_, ?_, fun _ => hcode, fun h => absurd h hcfg⟩ <;> simp [errorStatus, hdone]

theorem Status.ok.done {s : State} (h : s.status.ok) (hb : s.status.busy = true) : (doneStatus s).ok := by
  obtain ⟨-, -, hrun, hclear, -, hcfg⟩ := h
  obtain ⟨-, herr⟩ := hrun hb
  refine ⟨?_, ?_, ?_, hclear, ?_, hcfg⟩ <;> simp [doneStatus, herr]

theorem State.Sound.after_raiseError {s : State} (hi : s.Sound) (hb : s.status.busy = true) {code : ErrCode}
    (hcode : code ≠ .noError) (hcfg : code ≠ .config) : (raiseError code s).Sound := by
  rw [raiseError_eq_errorStatus hcfg]
  exact .of_idle hi.params (hi.status.error hb hcode hcfg) rfl

theorem State.Sound.after_finish {s : State} (hi : s.Sound) (hb : s.status.busy = true) : (finish s).Sound :=
  .of_idle hi.params (hi.status.done hb) rfl

/-! ### The states of a decode -/

/-- The states a running DEC_START goes through. -/
def decodeStates : List EngState := [.token, .lext, .litchk, .lit, .off0, .off1, .mext, .mchk, .copy]

theorem State.Sound.decodeOk {s : State} (hi : s.Sound) (h : s.status.state ∈ decodeStates) : s.decodeOk :=
  (hi.engine.1 h).1

theorem State.Sound.literalOk {s : State} (hi : s.Sound) (h : s.status.state = .lit) : s.literalOk := hi.engine.2.1 h

theorem State.Sound.matchOk {s : State} (hi : s.Sound) (h : s.status.state = .copy) : s.matchOk := hi.engine.2.2.1 h

theorem State.Sound.rawOk {s : State} (hi : s.Sound) (h : s.status.state = .raw) : s.rawOk := (hi.engine.2.2.2.1 h).1

theorem State.Sound.hashOk {s : State} (hi : s.Sound) (h : s.status.state = .habs) : s.hashOk := (hi.engine.2.2.2.2 h).1

/-- R105: a decode that is not at the end of its input reads in IBUF. -/
theorem State.Sound.inPos_lt {s : State} (hi : s.Sound) (hst : s.status.state ∈ decodeStates) (hne : s.inPos ≠ s.inLen) :
    s.inPos.toNat < s.inLen.toNat := by
  obtain ⟨-, -, -, -, hpos, -⟩ := hi.decodeOk hst
  bv_omega

theorem State.Sound.inAddr_lt {s : State} (hi : s.Sound) (hst : s.status.state ∈ decodeStates) (hne : s.inPos ≠ s.inLen) :
    s.inAddr < s.params.ibufSize := by
  obtain ⟨hin, -⟩ := hi.decodeOk hst
  have := hi.inPos_lt hst hne
  unfold State.inAddr
  omega

/-- R105, R184: a literal that LITCHK has passed is there, and has room. -/
theorem State.Sound.inPos_ne_of_lit {s : State} (hi : s.Sound) (hst : s.status.state = .lit) : s.inPos ≠ s.inLen := by
  obtain ⟨hleft, hin, -⟩ := hi.literalOk hst
  intro h
  rw [h] at hin
  omega

theorem State.Sound.outAddr_lt_of_lit {s : State} (hi : s.Sound) (hst : s.status.state = .lit) :
    s.outAddr < s.params.obufSize := by
  obtain ⟨-, hout, -⟩ := hi.decodeOk (by simp [decodeStates, hst])
  obtain ⟨hleft, -, hroom⟩ := hi.literalOk hst
  unfold State.outAddr
  omega

/-- A decode goes on from one of its states to another: the configuration stays, the cursors stay within their bounds, and a
run that is entered has been checked. -/
theorem State.Sound.decodeNext {s t : State} (hi : s.Sound) (hb : s.status.busy = true)
    (hs : s.status.state ∈ decodeStates) (hf : EngineFrame s t) {next : EngState}
    (hst : t.status = { s.status with state := next }) (hn : next ∈ decodeStates)
    (hpos : t.inPos.toNat ≤ s.inLen.toNat) (hlen : t.outLen.toNat ≤ s.maxSize.toNat)
    (hlit : next = .lit → t.literalOk) (hcopy : next = .copy → t.matchOk) : t.Sound := by
  obtain ⟨⟨hin, hout, hwin, hmax, -, -⟩, hcmd⟩ := hi.engine.1 hs
  have hstate : t.status.state = next := by rw [hst]
  have hdec : t.decodeOk := by
    unfold State.decodeOk State.inputFits State.outputFits
    rw [hf.inBase, hf.inLen, hf.params, hf.outBase, hf.maxSize, hf.winEff]
    exact ⟨hin, hout, hwin, hmax, hpos, hlen⟩
  refine ⟨hf.params ▸ hi.params, hst ▸ hi.status.enter hb ?_, ?_⟩
  · rintro rfl; simp [decodeStates] at hn
  · refine ⟨fun _ => ⟨hdec, hf.lastCmd.trans hcmd⟩, hstate ▸ hlit, hstate ▸ hcopy, fun h => ?_, fun h => ?_⟩
    · rw [← hstate, h] at hn; simp [decodeStates] at hn
    · rw [← hstate, h] at hn; simp [decodeStates] at hn

theorem State.Sound.after_tokenTaken {s : State} (hi : s.Sound) (hb : s.status.busy = true) (hst : s.status.state = .token)
    (hne : s.inPos ≠ s.inLen) (b : Byte) : (tokenTaken b s).Sound := by
  have hs : s.status.state ∈ decodeStates := by simp [decodeStates, hst]
  have hlt := hi.inPos_lt hs hne
  obtain ⟨-, -, -, -, -, hlen⟩ := hi.decodeOk hs
  refine hi.decodeNext hb hs (execToken_frame (execToken_of_ne hne b)).toEngineFrame rfl ?_ ?_ hlen ?_ ?_
  · split <;> simp [decodeStates]
  · simp only [tokenTaken]; bv_omega
  · split <;> simp
  · split <;> simp

/-- The state an extension byte leads to: its own while the byte is 255, else the state after the run. -/
theorem extensionTaken_status (e : Byte) (last : EngState) (s : State) :
    (extensionTaken e last s).status =
      { s.status with state := if e = Config.extCont then s.status.state else last } := by
  unfold extensionTaken
  split <;> rfl

theorem State.Sound.after_extensionTaken {s : State} (hi : s.Sound) (hb : s.status.busy = true) {last : EngState}
    (hst : (s.status.state, last) ∈ [(EngState.lext, EngState.litchk), (.mext, .mchk)])
    (hne : s.inPos ≠ s.inLen) (e : Byte) : (extensionTaken e last s).Sound := by
  have hcases : (s.status.state = .lext ∧ last = .litchk) ∨ (s.status.state = .mext ∧ last = .mchk) := by simpa using hst
  have hs : s.status.state ∈ decodeStates := by
    obtain ⟨h, -⟩ | ⟨h, -⟩ := hcases <;> simp [decodeStates, h]
  have hlt := hi.inPos_lt hs hne
  obtain ⟨-, -, -, -, -, hlen⟩ := hi.decodeOk hs
  have hnext : (if e = Config.extCont then s.status.state else last) ∈ [EngState.lext, .litchk, .mext, .mchk] := by
    obtain ⟨h, rfl⟩ | ⟨h, rfl⟩ := hcases <;> rw [h] <;> split <;> simp
  refine hi.decodeNext hb hs (extensionStep_frame (extensionStep_of_ne hne e last)).toEngineFrame
    (extensionTaken_status e last s) ?_ ?_ hlen ?_ ?_
  · simp only [List.mem_cons, List.not_mem_nil, or_false] at hnext
    rcases hnext with h | h | h | h <;> simp [decodeStates, h]
  · simp only [extensionTaken]; bv_omega
  · intro h; rw [h] at hnext; simp at hnext
  · intro h; rw [h] at hnext; simp at hnext

theorem State.Sound.literalsFit {s : State} (hi : s.Sound) (hb : s.status.busy = true) (hst : s.status.state = .litchk)
    (hleft : s.inPos.toNat + s.dCount.toNat ≤ s.inLen.toNat) (hroom : s.outLen.toNat + s.dCount.toNat ≤ s.maxSize.toNat) :
    (s.enter (if s.dCount = 0 then .off0 else .lit)).Sound := by
  have hs : s.status.state ∈ decodeStates := by simp [decodeStates, hst]
  obtain ⟨-, -, -, -, hpos, hlen⟩ := hi.decodeOk hs
  refine hi.decodeNext hb hs (enter_frame s _).toEngineFrame rfl ?_ hpos hlen ?_ ?_
  · split <;> simp [decodeStates]
  · intro h
    have hnz : s.dCount ≠ 0 := by rintro h0; simp [h0] at h
    exact ⟨by simp only [enter_dCount]; bv_omega, hleft, hroom⟩
  · split <;> simp

theorem byteAppended_status (b : Byte) (last : EngState) (s : State) :
    (byteAppended b last s).status = { s.status with state := if s.dCount = 1 then last else s.status.state } := by
  unfold byteAppended
  split <;> rfl

theorem State.Sound.literal {s : State} (hi : s.Sound) (hb : s.status.busy = true) (hst : s.status.state = .lit) (b : Byte) :
    (byteAppended b .off0 (advanceInput s)).Sound := by
  have hs : s.status.state ∈ decodeStates := by simp [decodeStates, hst]
  have hout := hi.outAddr_lt_of_lit hst
  obtain ⟨hleft, hin, hroom⟩ := hi.literalOk hst
  refine hi.decodeNext hb hs (execLiteral_frame (execLiteral_eq hout b)).toEngineFrame
    (byteAppended_status b .off0 (advanceInput s)) ?_ ?_ ?_ ?_ ?_
  · simp only [advanceInput_status, hst]; split <;> simp [decodeStates]
  · simp only [byteAppended, putByte_inPos, advanceInput_inPos]; bv_omega
  · simp only [byteAppended, advanceInput_outLen]; bv_omega
  · intro h
    have hmore : s.dCount ≠ 1 := by rintro h1; simp [h1] at h
    simp only [State.literalOk, byteAppended, putByte_inPos, putByte_inLen, putByte_maxSize, advanceInput_inPos,
      advanceInput_dCount, advanceInput_outLen, advanceInput_inLen, advanceInput_maxSize]
    bv_omega
  · simp only [advanceInput_status, hst]; split <;> simp

theorem State.Sound.after_offsetLowTaken {s : State} (hi : s.Sound) (hb : s.status.busy = true) (hst : s.status.state = .off0)
    (hne : s.inPos ≠ s.inLen) (b : Byte) : (offsetLowTaken b s).Sound := by
  have hs : s.status.state ∈ decodeStates := by simp [decodeStates, hst]
  have hlt := hi.inPos_lt hs hne
  obtain ⟨-, -, -, -, -, hlen⟩ := hi.decodeOk hs
  refine hi.decodeNext hb hs (offsetLowStep_frame (offsetLowStep_of_ne hne b)).toEngineFrame rfl (by decide) ?_
    hlen nofun nofun
  simp only [offsetLowTaken]; bv_omega

theorem State.Sound.after_offsetHighTaken {s : State} (hi : s.Sound) (hb : s.status.busy = true) (hst : s.status.state = .off1)
    (hne : s.inPos ≠ s.inLen) (b : Byte) : (offsetHighTaken b s).Sound := by
  have hs : s.status.state ∈ decodeStates := by simp [decodeStates, hst]
  have hlt := hi.inPos_lt hs hne
  obtain ⟨-, -, -, -, -, hlen⟩ := hi.decodeOk hs
  refine hi.decodeNext hb hs (offsetHighStep_frame (offsetHighStep_of_ne hne b)).toEngineFrame rfl ?_ ?_
    hlen ?_ ?_
  · split <;> simp [decodeStates]
  · simp only [offsetHighTaken]; bv_omega
  · split <;> simp
  · split <;> simp

/-- The completed match length is at least 4: it saturates far above. -/
theorem matchCompleted_dCount (s : State) :
    (matchCompleted s).dCount.toNat = min (s.dCount.toNat + 4) (2 ^ 32 - 1) := toNat_sat32 _

theorem matchCompleted_dCount_ne_zero (s : State) : (matchCompleted s).dCount ≠ 0 := by
  have hcount := matchCompleted_dCount s
  bv_omega

theorem State.Sound.after_matchCompleted {s : State} (hi : s.Sound) (hst : s.status.state = .mchk) : (matchCompleted s).Sound := by
  have hs : s.status.state ∈ decodeStates := by simp [decodeStates, hst]
  have hne : ∀ st, s.status.state = st → st ≠ .mchk → False := fun st h hst' => hst' (h ▸ hst)
  exact ⟨hi.params, hi.status, hi.engine.1, fun h => (hne _ h nofun).elim, fun h => (hne _ h nofun).elim,
    fun h => (hne _ h nofun).elim, fun h => (hne _ h nofun).elim⟩

theorem State.Sound.matchFits {s : State} (hi : s.Sound) (hb : s.status.busy = true) (hst : s.status.state = .mchk)
    (hnz : s.dOffset ≠ 0) (hreach : s.dOffset.toNat ≤ s.outLen.toNat + s.winEff.toNat)
    (hroom : s.outLen.toNat + (matchCompleted s).dCount.toNat ≤ s.maxSize.toNat) :
    ((matchCompleted s).enter .copy).Sound := by
  have hs : s.status.state ∈ decodeStates := by simp [decodeStates, hst]
  obtain ⟨-, -, -, -, hpos, hlen⟩ := hi.decodeOk hs
  have hcount := matchCompleted_dCount s
  refine (hi.after_matchCompleted hst).decodeNext hb hs (enter_frame _ _).toEngineFrame rfl (by decide) hpos hlen
    nofun fun _ => ⟨?_, hroom, ?_, hreach⟩
  · simp only [enter_dCount]; omega
  · show 1 ≤ s.dOffset.toNat; bv_omega

theorem State.Sound.copy {s : State} (hi : s.Sound) (hb : s.status.busy = true) (hst : s.status.state = .copy) (b : Byte) :
    (byteAppended b .token s).Sound := by
  have hs : s.status.state ∈ decodeStates := by simp [decodeStates, hst]
  have hout := hi.outAddr_lt_of_copy hst
  obtain ⟨-, -, -, -, hpos, -⟩ := hi.decodeOk hs
  obtain ⟨hleft, hroom, hnz, hreach⟩ := hi.matchOk hst
  refine hi.decodeNext hb hs (appendByte_frame (appendByte_eq (s := s) hout b .token)).toEngineFrame
    (byteAppended_status b .token s) ?_ ?_ ?_ ?_ ?_
  · rw [hst]; split <;> simp [decodeStates]
  · simpa only [byteAppended, putByte_inPos] using hpos
  · simp only [byteAppended]; bv_omega
  · rw [hst]; split <;> simp
  · intro h
    have hmore : s.dCount ≠ 1 := by rintro h1; simp [h1] at h
    simp only [State.matchOk, byteAppended, putByte_maxSize, putByte_dOffset, putByte_winEff]
    bv_omega

/-! ### RAW and HABS -/

/-- R190: a raw copy that is past its first check has room for the whole payload. -/
theorem State.Sound.raw_fits {s : State} (hi : s.Sound) (hst : s.status.state = .raw)
    (hfits : ¬(s.inPos = 0 ∧ s.maxSize.toNat < s.inLen.toNat)) : s.inLen.toNat ≤ s.maxSize.toNat := by
  obtain ⟨-, -, -, hzero | ⟨-, hroom⟩⟩ := hi.rawOk hst
  · by_contra hover
    exact hfits ⟨hzero, by omega⟩
  · exact hroom

theorem State.Sound.after_rawTaken {s : State} (hi : s.Sound) (hb : s.status.busy = true) (hst : s.status.state = .raw)
    (hfits : ¬(s.inPos = 0 ∧ s.maxSize.toNat < s.inLen.toNat)) (hne : s.inPos ≠ s.inLen)
    (b : Byte) : (rawTaken b s).Sound := by
  obtain ⟨⟨hin, hob, hcursors, -⟩, hcmd⟩ := hi.engine.2.2.2.1 hst
  have hlt := hi.inPos_lt_of_raw hst hne
  have hpar : (rawTaken b s).params.valid := hi.params
  by_cases hlast : s.inPos + 1 = s.inLen
  · have hstat : (rawTaken b s).status = doneStatus s := if_pos hlast
    exact .of_idle hpar (hstat ▸ hi.status.done hb) (by rw [hstat]; rfl)
  · have hstat : (rawTaken b s).status = s.status := if_neg hlast
    have hroom := hi.raw_fits hst hfits
    have hraw : (rawTaken b s).rawOk := by
      refine ⟨hin, hob, ?_, .inr ⟨?_, hroom⟩⟩
      · simp [rawTaken, hcursors]
      · simp only [rawTaken, putByte_inLen]; bv_omega
    refine ⟨hpar, hstat ▸ hi.status, ?_⟩
    unfold State.engineOk
    rw [hstat, hst]
    exact ⟨nofun, nofun, nofun, fun _ => ⟨hraw, hcmd⟩, nofun⟩

/-- HABS touches the registers of one hash context and, at the last byte, STATUS. -/
theorem habsWith_status (b : Byte) (s : State) :
    (habsWith b s).status =
      if (s.hash s.activeCtx).pos + 1 = (s.hash s.activeCtx).len then doneStatus s else s.status := by
  rw [habsWith_eq]

theorem habsWith_hash (b : Byte) (s : State) :
    (habsWith b s).hash s.activeCtx =
      { (s.hash s.activeCtx).absorb b with pos := (s.hash s.activeCtx).pos + 1 } := by
  rw [habsWith_eq]
  exact setHash_hash_same _ _ _

theorem habsWith_memory (b : Byte) (s : State) : (habsWith b s).ibuf = s.ibuf ∧ (habsWith b s).obuf = s.obuf := by
  rw [habsWith_eq]
  simp

theorem habsWith_frame (b : Byte) (s : State) : EngineFrame s (habsWith b s) := by
  unfold habsWith
  dsimp only
  split
  · exact (setHash_frame _ _ _).trans (finish_frame _).toEngineFrame
  · exact setHash_frame _ _ _

theorem EngineFrame.activeCtx {s t : State} (h : EngineFrame s t) : t.activeCtx = s.activeCtx := by
  unfold State.activeCtx
  rw [h.ctrl]

theorem EngineFrame.hashSpace {s t : State} (h : EngineFrame s t) : t.hashSpace = s.hashSpace := by
  unfold State.hashSpace
  rw [h.ctrl]

theorem EngineFrame.spaceSize {s t : State} (h : EngineFrame s t) (sp : Space) : t.spaceSize sp = s.spaceSize sp := by
  cases sp <;> simp [State.spaceSize, h.params]

theorem State.Sound.after_habsWith {s : State} (hi : s.Sound) (hb : s.status.busy = true) (hst : s.status.state = .habs)
    (b : Byte) : (habsWith b s).Sound := by
  obtain ⟨⟨hcfg, hpos⟩, hcmd⟩ := hi.engine.2.2.2.2 hst
  have hf := habsWith_frame b s
  have hpar : (habsWith b s).params.valid := hf.params ▸ hi.params
  by_cases hlast : (s.hash s.activeCtx).pos + 1 = (s.hash s.activeCtx).len
  · have hstat : (habsWith b s).status = doneStatus s := (habsWith_status b s).trans (if_pos hlast)
    exact .of_idle hpar (hstat ▸ hi.status.done hb) (by rw [hstat]; rfl)
  · have hstat : (habsWith b s).status = s.status := (habsWith_status b s).trans (if_neg hlast)
    have hhash : (habsWith b s).hashOk := by
      unfold State.hashOk State.cfgHash
      rw [hf.activeCtx, hf.hashSpace, hf.spaceSize, habsWith_hash]
      simp only [absorb_addr, absorb_len]
      exact ⟨hcfg, by bv_omega⟩
    refine ⟨hpar, hstat ▸ hi.status, ?_⟩
    unfold State.engineOk
    rw [hstat, hst]
    exact ⟨nofun, nofun, nofun, nofun, fun _ => ⟨hhash, hcmd⟩⟩

/-! ### Every turn -/

/-- R105, R196: a turn of the engine keeps the invariant. -/
theorem State.Sound.turn {s t : State} (hi : s.Sound) (hb : s.status.busy = true) (h : Turn s t) : t.Sound := by
  cases h with
  | truncated hst hend => exact hi.after_raiseError hb nofun nofun
  | endOfBlock hst hend => exact hi.after_finish hb
  | token hst hne hin => exact hi.after_tokenTaken hb hst hne _
  | extension last hst hne hin => exact hi.after_extensionTaken hb hst hne _
  | literalsTruncated hst hover => exact hi.after_raiseError hb nofun nofun
  | literalsLimit hst hleft hover => exact hi.after_raiseError hb nofun nofun
  | literalsFit hst hleft hroom => exact hi.literalsFit hb hst hleft hroom
  | literal hst hin hout => exact hi.literal hb hst _
  | offsetLow hst hne hin => exact hi.after_offsetLowTaken hb hst hne _
  | offsetHigh hst hne hin => exact hi.after_offsetHighTaken hb hst hne _
  | offsetZero hst hzero => exact (hi.after_matchCompleted hst).after_raiseError hb nofun nofun
  | offsetRange hst hnz hfar => exact (hi.after_matchCompleted hst).after_raiseError hb nofun nofun
  | matchLimit hst hnz hreach hover => exact (hi.after_matchCompleted hst).after_raiseError hb nofun nofun
  | matchFits hst hnz hreach hroom => exact hi.matchFits hb hst hnz hreach hroom
  | copy hst hout => exact hi.copy hb hst _
  | rawLimit hst hpos hover => exact hi.after_raiseError hb nofun nofun
  | rawEnd hst hfits hend => exact hi.after_finish hb
  | rawByte hst hfits hne hin hout => exact hi.after_rawTaken hb hst hfits hne _
  | habs hst hin => exact hi.after_habsWith hb hst _

/-- R105, R180: a busy engine never waits. -/
theorem State.Sound.exists_turn {s : State} (hi : s.Sound) (hb : s.status.busy = true) : ∃ t, Turn s t := by
  have hne := hi.status.state_ne_idle hb
  cases hst : s.status.state with
  | idle => exact absurd hst hne
  | token =>
    by_cases hend : s.inPos = s.inLen
    · exact ⟨_, .truncated (by simp [hst]) hend⟩
    · exact ⟨_, .token hst hend (hi.inAddr_lt (by simp [decodeStates, hst]) hend)⟩
  | lext =>
    by_cases hend : s.inPos = s.inLen
    · exact ⟨_, .truncated (by simp [hst]) hend⟩
    · exact ⟨_, .extension .litchk (by simp [hst]) hend (hi.inAddr_lt (by simp [decodeStates, hst]) hend)⟩
  | litchk =>
    by_cases hleft : s.inPos.toNat + s.dCount.toNat ≤ s.inLen.toNat
    · by_cases hroom : s.outLen.toNat + s.dCount.toNat ≤ s.maxSize.toNat
      · exact ⟨_, .literalsFit hst hleft hroom⟩
      · exact ⟨_, .literalsLimit hst hleft (by omega)⟩
    · exact ⟨_, .literalsTruncated hst (by omega)⟩
  | lit =>
    have hin := hi.inAddr_lt (by simp [decodeStates, hst]) (hi.inPos_ne_of_lit hst)
    exact ⟨_, .literal hst hin (hi.outAddr_lt_of_lit hst)⟩
  | off0 =>
    by_cases hend : s.inPos = s.inLen
    · exact ⟨_, .endOfBlock hst hend⟩
    · exact ⟨_, .offsetLow hst hend (hi.inAddr_lt (by simp [decodeStates, hst]) hend)⟩
  | off1 =>
    by_cases hend : s.inPos = s.inLen
    · exact ⟨_, .truncated (by simp [hst]) hend⟩
    · exact ⟨_, .offsetHigh hst hend (hi.inAddr_lt (by simp [decodeStates, hst]) hend)⟩
  | mext =>
    by_cases hend : s.inPos = s.inLen
    · exact ⟨_, .truncated (by simp [hst]) hend⟩
    · exact ⟨_, .extension .mchk (by simp [hst]) hend (hi.inAddr_lt (by simp [decodeStates, hst]) hend)⟩
  | mchk =>
    by_cases hzero : s.dOffset = 0
    · exact ⟨_, .offsetZero hst hzero⟩
    · by_cases hreach : s.dOffset.toNat ≤ s.outLen.toNat + s.winEff.toNat
      · by_cases hroom : s.outLen.toNat + (matchCompleted s).dCount.toNat ≤ s.maxSize.toNat
        · exact ⟨_, .matchFits hst hzero hreach hroom⟩
        · exact ⟨_, .matchLimit hst hzero hreach (by omega)⟩
      · exact ⟨_, .offsetRange hst hzero (by omega)⟩
  | copy => exact ⟨_, .copy hst (hi.outAddr_lt_of_copy hst)⟩
  | raw =>
    by_cases hlimit : s.inPos = 0 ∧ s.maxSize.toNat < s.inLen.toNat
    · exact ⟨_, .rawLimit hst hlimit.1 hlimit.2⟩
    · by_cases hend : s.inPos = s.inLen
      · exact ⟨_, .rawEnd hst hlimit hend⟩
      · have hroom := hi.raw_fits hst hlimit
        exact ⟨_, .rawByte hst hlimit hend (hi.inAddr_lt_of_raw hst hend) (hi.outAddr_lt_of_raw hst hend hroom)⟩
  | habs => exact ⟨_, .habs hst (hi.hashAddr_lt hst)⟩

/-- A turn leaves the buffers in canonical form: the one byte it may store has an address in OBUF. -/
theorem Turn.memoryOk {s t : State} (h : Turn s t) (hm : s.memoryOk) : t.memoryOk := by
  cases h with
  | literal hst hin hout => exact State.memoryOk.putByte (s := advanceInput s) (sp := .obuf) hm hout _
  | copy hst hout => exact State.memoryOk.putByte (sp := .obuf) hm hout _
  | rawByte hst hfits hne hin hout => exact State.memoryOk.putByte (sp := .obuf) hm hout _
  | habs hst hin =>
    obtain ⟨hibuf, hobuf⟩ := habsWith_memory (s.byteAt s.hashSpace s.hashAddr) s
    unfold State.memoryOk
    rw [hibuf, hobuf, (habsWith_frame _ s).params]
    exact hm
  | _ => exact hm

theorem State.Inv.turn {s t : State} (hi : s.Inv) (hb : s.status.busy = true) (h : Turn s t) : t.Inv :=
  (hi.sound.turn hb h).inv (h.memoryOk hi.memory)

theorem State.Inv.after_engineStep {s : State} (hi : s.Inv) : ∃ t, engineStep s = .next t ∧ t.Inv := by
  cases hb : s.status.busy with
  | true =>
    obtain ⟨t, ht⟩ := hi.sound.exists_turn hb
    exact ⟨t, engineStep_of_turn hb ht, hi.turn hb ht⟩
  | false => exact ⟨s, engineStep_idle hb, hi⟩

end Sys2Proof.Machine
end

section
/-!
Runs of the engine: turns one after another, and the bytes of an element on the wire in IBUF.
-/

open Sys2Proof.Claims

namespace Sys2Proof.Machine

/-! ### Turns one after another -/

/-- A busy engine goes from one state to the next in a turn. -/
def Goes (s t : State) : Prop := s.status.busy = true ∧ Turn s t

/-- The engine goes from one state to another in some number of turns. -/
abbrev Reaches : State → State → Prop := Relation.ReflTransGen Goes

theorem Goes.frame {s t : State} (h : Goes s t) : EngineFrame s t := h.2.frame h.1

theorem Reaches.frame {s t : State} (h : Reaches s t) : EngineFrame s t := by
  induction h with
  | refl => exact .refl s
  | tail _ hgo ih => exact ih.trans hgo.frame

theorem State.Inv.reaches {s t : State} (hi : s.Inv) (h : Reaches s t) : t.Inv := by
  induction h with
  | refl => exact hi
  | tail _ hgo ih => exact ih.turn hgo.1 hgo.2

theorem State.Sound.reaches {s t : State} (hi : s.Sound) (h : Reaches s t) : t.Sound := by
  induction h with
  | refl => exact hi
  | tail _ hgo ih => exact ih.turn hgo.1 hgo.2

theorem step_of_empty {s : State} (h : s.schedule = []) : step s = engineStep s := by
  unfold step
  rw [h]

theorem runSteps_succ {s t : State} (h : step s = .next t) (n : Nat) : runSteps (n + 1) s = runSteps n t := by
  have hcore : Host.Core.step Sys2Proof.core s = .next t := h
  simp only [runSteps, Host.Core.run, hcore]
  rfl

theorem Goes.step {s t : State} (h : Goes s t) (hs : s.schedule = []) : step s = .next t :=
  (step_of_empty hs).trans (engineStep_of_turn h.1 h.2)

/-- Turns of the engine are steps of a machine whose host is quiet. -/
theorem runSteps_of_goes {s t : State} (h : Goes s t) (hs : s.schedule = []) (n : Nat) :
    runSteps (n + 1) s = runSteps n t := runSteps_succ (h.step hs) n

theorem Reaches.exists_runSteps {s t : State} (h : Reaches s t) (hs : s.schedule = []) :
    ∃ n, runSteps n s = .next t := by
  induction h using Relation.ReflTransGen.head_induction_on with
  | refl => exact ⟨0, rfl⟩
  | head hgo _ ih =>
    obtain ⟨n, hn⟩ := ih (hgo.frame.schedule.trans hs)
    exact ⟨n + 1, (runSteps_of_goes hgo hs n).trans hn⟩

/-! ### Bytes on the wire -/

/-- The bytes at an address of IBUF are the given ones, all of them in the buffer. -/
def FeedAt (s : State) (a : Nat) (bytes : List Byte) : Prop :=
  a + bytes.length ≤ s.params.ibufSize ∧ s.bytesAt .ibuf a bytes.length = bytes

theorem byteAt_ibuf_congr {s t : State} (h : t.ibuf = s.ibuf) (a : Nat) : t.byteAt .ibuf a = s.byteAt .ibuf a := by
  simp [State.byteAt, State.memOf, h]

theorem byteAt_obuf_congr {s t : State} (h : t.obuf = s.obuf) (a : Nat) : t.byteAt .obuf a = s.byteAt .obuf a := by
  simp [State.byteAt, State.memOf, h]

theorem bytesAt_ibuf_congr {s t : State} (h : t.ibuf = s.ibuf) (a n : Nat) : t.bytesAt .ibuf a n = s.bytesAt .ibuf a n := by
  simp [State.bytesAt, byteAt_ibuf_congr h]

theorem bytesAt_add (s : State) (sp : Space) (a m n : Nat) :
    s.bytesAt sp a (m + n) = s.bytesAt sp a m ++ s.bytesAt sp (a + m) n := by
  simp [State.bytesAt, List.range_add, Nat.add_assoc]

theorem FeedAt.frame {s t : State} {a : Nat} {bytes : List Byte} (h : FeedAt s a bytes) (hf : EngineFrame s t) :
    FeedAt t a bytes := by
  unfold FeedAt
  rw [hf.params, bytesAt_ibuf_congr hf.ibuf]
  exact h

theorem FeedAt.append {s : State} {a : Nat} {xs ys : List Byte} (h : FeedAt s a (xs ++ ys)) :
    FeedAt s a xs ∧ FeedAt s (a + xs.length) ys := by
  obtain ⟨hin, hbytes⟩ := h
  rw [List.length_append] at hin hbytes
  rw [bytesAt_add] at hbytes
  obtain ⟨hxs, hys⟩ := List.append_inj hbytes (length_bytesAt ..)
  exact ⟨⟨by omega, hxs⟩, ⟨by omega, hys⟩⟩

theorem FeedAt.cons {s : State} {a : Nat} {b : Byte} {rest : List Byte} (h : FeedAt s a (b :: rest)) :
    a < s.params.ibufSize ∧ s.byteAt .ibuf a = b ∧ FeedAt s (a + 1) rest := by
  obtain ⟨hin, hbytes⟩ := h
  rw [List.length_cons] at hin hbytes
  rw [bytesAt_succ] at hbytes
  obtain ⟨hb, hrest⟩ := List.cons.inj hbytes
  exact ⟨by omega, hb, by omega, hrest⟩

/-- The address of the next input byte after some bytes have been consumed. -/
theorem inAddr_of_inPos {s t : State} (hbase : t.inBase = s.inBase) {k : Nat}
    (hpos : t.inPos = s.inPos + BitVec.ofNat 32 k) (hk : s.inPos.toNat + k < 2 ^ 32) : t.inAddr = s.inAddr + k := by
  unfold State.inAddr
  rw [hbase, hpos]
  bv_omega

theorem toNat_add_ofNat {x : Word} {k : Nat} (h : x.toNat + k < 2 ^ 32) : (x + BitVec.ofNat 32 k).toNat = x.toNat + k := by
  bv_omega

end Sys2Proof.Machine
end

section
/-!
The elements of a whole sequence, one after another (spec/30_encoding.md R120, R136; spec/41_block_decode.md R181 to R189): what each run of
elements does, and that the engine does it by itself when the bytes are in IBUF.
-/

open Sys2Proof.Claims

namespace Sys2Proof.Machine

theorem andThenEach_idle {s : State} (hb : s.status.busy = false) (f : Byte → State → Result) (bytes : List Byte) :
    andThenEach f bytes (.next s) = .next s := by
  induction bytes with
  | nil => rfl
  | cons b rest ih => rw [andThenEach, andThen_idle hb, ih]

theorem andThenEach_busy {s : State} (hb : s.status.busy = true) (f : Byte → State → Result) (b : Byte) (rest : List Byte) :
    andThenEach f (b :: rest) (.next s) = andThenEach f rest (f b s) := by
  rw [andThenEach, andThen_busy hb]

/-! ### Lengths (R123, R127, R182, R187) -/

/-- The states of a length's extension run with the state after it (R182, R187). -/
abbrev extensionStates : List (EngState × EngState) := [(.lext, .litchk), (.mext, .mchk)]

/-- The state after `k` input bytes that complete a count. -/
def countRead (k count : Nat) (last : EngState) (s : State) : State :=
  { s with inPos := s.inPos + BitVec.ofNat 32 k, dCount := sat32 count, status := { s.status with state := last } }

theorem sat32_sat32_add (x y : Nat) : sat32 ((sat32 x).toNat + y) = sat32 (x + y) := by
  refine BitVec.eq_of_toNat_eq ?_
  simp only [toNat_sat32]
  omega

theorem sat32_toNat (x : Word) : sat32 x.toNat = x := by
  refine BitVec.eq_of_toNat_eq ?_
  have := x.isLt
  rw [toNat_sat32]
  omega

/-- R182, R187: an extension run, some bytes of 255 and one other. -/
theorem extensionRun {last : EngState} (k : Nat) {e : Byte} (he : e ≠ Config.extCont) {u : State}
    (hb : u.status.busy = true) (hfit : u.inPos.toNat + (k + 1) ≤ u.inLen.toNat) :
    andThenEach (extensionStep · last) (List.replicate k Config.extCont ++ [e]) (.next u) =
      .next (countRead (k + 1) (u.dCount.toNat + 255 * k + e.toNat) last u) ∧
    ((u.status.state, last) ∈ extensionStates →
      FeedAt u u.inAddr (List.replicate k Config.extCont ++ [e]) →
      Reaches u (countRead (k + 1) (u.dCount.toNat + 255 * k + e.toNat) last u)) := by
  induction k generalizing u with
  | zero =>
    have hne : u.inPos ≠ u.inLen := by rintro h; rw [h] at hfit; omega
    have htaken : extensionTaken e last u = countRead 1 (u.dCount.toNat + 255 * 0 + e.toNat) last u := by
      simp [extensionTaken, countRead, he]
    refine ⟨?_, fun hst hfeed => ?_⟩
    · rw [List.replicate_zero, List.nil_append, andThenEach_busy hb, extensionStep_of_ne hne, htaken]; rfl
    · obtain ⟨hin, hbyte, -⟩ := hfeed.cons
      rw [← htaken, ← hbyte]
      exact .single ⟨hb, .extension last hst hne hin⟩
  | succ k ih =>
    have hlt := u.inLen.isLt
    have hne : u.inPos ≠ u.inLen := by rintro h; rw [h] at hfit; omega
    have hpos : (u.inPos + 1).toNat = u.inPos.toNat + 1 := by bv_omega
    obtain ⟨v, hv⟩ : ∃ v, v = extensionTaken Config.extCont last u := ⟨_, rfl⟩
    have hvstatus : v.status = u.status := by rw [hv, extensionTaken_status, if_pos rfl]
    have hvpos : v.inPos = u.inPos + 1 := by rw [hv]; rfl
    have hvlen : v.inLen = u.inLen := by rw [hv]; rfl
    have hvcount : v.dCount = sat32 (u.dCount.toNat + 255) := by rw [hv, extensionTaken, toNat_extCont]
    have hvf : EngineFrame u v := hv ▸ (extensionStep_frame (extensionStep_of_ne hne _ last)).toEngineFrame
    obtain ⟨hrun, hreach⟩ := @ih v (hvstatus ▸ hb) (by rw [hvpos, hvlen]; omega)
    have hread : countRead (k + 1) (v.dCount.toNat + 255 * k + e.toNat) last v =
        countRead (k + 1 + 1) (u.dCount.toNat + 255 * (k + 1) + e.toNat) last u := by
      have hcount : sat32 (v.dCount.toNat + 255 * k + e.toNat) = sat32 (u.dCount.toNat + 255 * (k + 1) + e.toNat) := by
        rw [hvcount, Nat.add_assoc, sat32_sat32_add]
        exact congrArg sat32 (by omega)
      have hinPos : v.inPos + BitVec.ofNat 32 (k + 1) = u.inPos + BitVec.ofNat 32 (k + 1 + 1) := by
        rw [hvpos]
        bv_omega
      unfold countRead
      rw [hcount, hinPos, hvstatus, hv]
      rfl
    rw [hread] at hrun hreach
    rw [List.replicate_succ, List.cons_append]
    refine ⟨?_, fun hst hfeed => ?_⟩
    · rw [andThenEach_busy hb, extensionStep_of_ne hne, ← hv]
      exact hrun
    · obtain ⟨hin, hbyte, hrest⟩ := hfeed.cons
      have haddr : v.inAddr = u.inAddr + 1 := inAddr_of_inPos hvf.inBase (k := 1) hvpos (by omega)
      refine .head ⟨hb, .extension last hst hne hin⟩ ?_
      rw [hbyte, ← hv]
      exact hreach (hvstatus ▸ hst) (haddr ▸ hrest.frame hvf)

/-- R123, R127, R136: a length's extension bytes, when its nibble has been taken as the count. -/
theorem lengthRun (n : Nat) {st last : EngState} (hstates : (st, last) ∈ extensionStates) {u : State}
    (hb : u.status.busy = true) (hcount : u.dCount = (Encode.nibble n).zeroExtend 32)
    (hst : u.status.state = if Encode.nibble n = 15 then st else last)
    (hfit : u.inPos.toNat + (Encode.extension n).length ≤ u.inLen.toNat) :
    andThenEach (extensionStep · last) (Encode.extension n) (.next u) =
      .next (countRead (Encode.extension n).length n last u) ∧
    (FeedAt u u.inAddr (Encode.extension n) → Reaches u (countRead (Encode.extension n).length n last u)) := by
  have hnib := toNat_nibble n
  have hdCount : u.dCount.toNat = min n 15 := by rw [hcount, ← hnib]; bv_omega
  by_cases hlt : n < 15
  · have hext : Encode.extension n = [] := encode_extension_of_lt hlt
    have hnot : Encode.nibble n ≠ 15 := by rintro h; rw [h] at hnib; simp at hnib; omega
    have hsame : countRead 0 n last u = u := by
      have hsat : sat32 n = u.dCount := by rw [← sat32_toNat u.dCount, hdCount, Nat.min_eq_left hlt.le]
      rw [if_neg hnot] at hst
      unfold countRead
      rw [hsat, ← hst]
      simp
    rw [hext]
    exact ⟨congrArg Host.Outcome.next hsame.symm, fun _ => hsame.symm ▸ .refl⟩
  · have hext := encode_extension_of_le (Nat.le_of_not_lt hlt)
    have hesc : Encode.nibble n = 15 := BitVec.eq_of_toNat_eq (by rw [hnib]; simp; omega)
    have hlen : (Encode.extension n).length = (n - 15) / 255 + 1 := by rw [hext]; simp
    have hsum : u.dCount.toNat + 255 * ((n - 15) / 255) + (BitVec.ofNat 8 ((n - 15) % 255)).toNat = n := by
      rw [hdCount, BitVec.toNat_ofNat]
      omega
    rw [if_pos hesc] at hst
    obtain ⟨hrun, hreach⟩ := extensionRun (last := last) ((n - 15) / 255) (extension_lastByte_ne (n - 15)) hb
      (by omega)
    rw [hsum] at hrun hreach
    rw [hlen]
    rw [hext]
    exact ⟨hrun, hreach (hst ▸ hstates)⟩

/-! ### TOKEN and its literal length (R121, R123, R181) -/

/-- The state after a token and the extension bytes of its literal length. -/
def literalLengthRead (t : Byte) (n : Nat) (s : State) : State :=
  countRead (Encode.extension n).length n .litchk (tokenTaken t s)

theorem literalLengthRun {t : Byte} {n : Nat} (hnib : Decode.literalNibble t = Encode.nibble n) {s : State}
    (hb : s.status.busy = true) (hfit : s.inPos.toNat + ((Encode.extension n).length + 1) ≤ s.inLen.toNat) :
    andThenEach execLext (Encode.extension n) (execToken t s) = .next (literalLengthRead t n s) ∧
    (s.status.state = .token → FeedAt s s.inAddr (t :: Encode.extension n) →
      Relation.TransGen Goes s (literalLengthRead t n s)) := by
  have hlt := s.inLen.isLt
  have hne : s.inPos ≠ s.inLen := by rintro h; rw [h] at hfit; omega
  have hpos : (tokenTaken t s).inPos.toNat = s.inPos.toNat + 1 := by show (s.inPos + 1).toNat = _; bv_omega
  obtain ⟨hrun, hreach⟩ := lengthRun n (st := .lext) (last := .litchk) (by simp) (u := tokenTaken t s) hb
    (by simp [tokenTaken, hnib]) (by simp [tokenTaken, hnib])
    (by show (tokenTaken t s).inPos.toNat + _ ≤ s.inLen.toNat; omega)
  refine ⟨?_, fun hst hfeed => ?_⟩
  · rw [execToken_of_ne hne]
    exact hrun
  · obtain ⟨hin, hbyte, hrest⟩ := hfeed.cons
    have haddr : (tokenTaken t s).inAddr = s.inAddr + 1 := inAddr_of_inPos (s := s) (t := tokenTaken t s) (k := 1) rfl rfl (by omega)
    have hf := (execToken_frame (execToken_of_ne hne t)).toEngineFrame
    have hgo : Goes s (tokenTaken t s) := ⟨hb, hbyte ▸ Turn.token hst hne hin⟩
    exact .head' hgo (hreach (haddr ▸ hrest.frame hf))

end Sys2Proof.Machine
end

section
/-!
The literals, the offset and the match of a sequence (spec/41_block_decode.md R184 to R189).
-/

open Sys2Proof.Claims

namespace Sys2Proof.Machine

/-! ### Literals (R184) -/

/-- A run of bytes appended to the output: `bytes` stand at `a`, and no other byte of OBUF has changed. -/
def Appended (s t : State) (a : Nat) (bytes : List Byte) : Prop :=
  (∀ k (h : k < bytes.length), t.byteAt .obuf (a + k) = bytes[k]) ∧
  (∀ x, x < a ∨ a + bytes.length ≤ x → t.byteAt .obuf x = s.byteAt .obuf x)

theorem Appended.nil (s : State) (a : Nat) : Appended s s a [] := ⟨fun k h => absurd h (by simp), fun _ _ => rfl⟩

theorem byteAt_byteAppended_same (b : Byte) (last : EngState) (s : State) :
    (byteAppended b last s).byteAt .obuf s.outAddr = b := byteAt_putByte_same s .obuf s.outAddr b

theorem byteAt_byteAppended_other (b : Byte) (last : EngState) (s : State) {a : Nat} (h : a ≠ s.outAddr) :
    (byteAppended b last s).byteAt .obuf a = s.byteAt .obuf a := byteAt_putByte_otherAddr s .obuf s.outAddr a b h

/-- One byte before a run of bytes. -/
theorem Appended.cons {s v t : State} {a : Nat} {b : Byte} {rest : List Byte} (hsame : v.byteAt .obuf a = b)
    (hother : ∀ x, x ≠ a → v.byteAt .obuf x = s.byteAt .obuf x) (h : Appended v t (a + 1) rest) :
    Appended s t a (b :: rest) := by
  obtain ⟨hin, hout⟩ := h
  refine ⟨fun k hk => ?_, fun x hx => ?_⟩
  · cases k with
    | zero => exact (hout a (.inl (Nat.lt_succ_self a))).trans hsame
    | succ k =>
      rw [show a + (k + 1) = a + 1 + k by omega]
      exact hin k (Nat.lt_of_succ_lt_succ hk)
  · rw [List.length_cons] at hx
    exact (hout x (by omega)).trans (hother x (by omega))

theorem add_one_add_ofNat (x : Word) (k : Nat) : x + 1 + BitVec.ofNat 32 k = x + BitVec.ofNat 32 (k + 1) := by bv_omega

/-- R184: a literal run that LITCHK has passed is copied to its last byte. -/
theorem literalsRun (lits : List Byte) {u : State} (hb : u.status.busy = true)
    (hst : u.status.state = if u.dCount = 0 then .off0 else .lit) (hcount : u.dCount.toNat = lits.length)
    (hfit : u.inPos.toNat + lits.length ≤ u.inLen.toNat) (hout : u.outputFits)
    (hroom : u.outLen.toNat + lits.length ≤ u.maxSize.toNat) :
    ∃ t, andThenEach execLiteral lits (.next u) = .next t ∧ (FeedAt u u.inAddr lits → Reaches u t) ∧
      Appended u t u.outAddr lits ∧
      t = { u with obuf := t.obuf, inPos := u.inPos + BitVec.ofNat 32 lits.length,
                   outLen := u.outLen + BitVec.ofNat 32 lits.length, dCount := 0,
                   status := { u.status with state := .off0 } } := by
  induction lits generalizing u with
  | nil =>
    have hzero : u.dCount = 0 := BitVec.eq_of_toNat_eq hcount
    rw [if_pos hzero] at hst
    refine ⟨u, rfl, fun _ => .refl, .nil u _, ?_⟩
    rw [← hzero, ← hst]
    simp
  | cons b rest ih =>
    rw [List.length_cons] at hcount hfit hroom
    have hlt := u.inLen.isLt
    have hlt' := u.maxSize.isLt
    have hnz : u.dCount ≠ 0 := by rintro h; rw [h] at hcount; simp at hcount
    rw [if_neg hnz] at hst
    have hin : u.outAddr < u.params.obufSize := by unfold State.outAddr; omega
    obtain ⟨v, hv⟩ : ∃ v, v = byteAppended b .off0 (advanceInput u) := ⟨_, rfl⟩
    have hvstatus : v.status = { u.status with state := if u.dCount = 1 then .off0 else u.status.state } :=
      hv ▸ byteAppended_status b .off0 (advanceInput u)
    have hvf : EngineFrame u v := hv ▸ (execLiteral_frame (execLiteral_eq hin b)).toEngineFrame
    have hvpos : v.inPos = u.inPos + 1 := by rw [hv]; rfl
    have hvout : v.outLen = u.outLen + 1 := by rw [hv]; rfl
    have hvcount : v.dCount = u.dCount - 1 := by rw [hv]; rfl
    have haddr : v.outAddr = u.outAddr + 1 := by
      unfold State.outAddr
      rw [hvf.outBase, hvout]
      bv_omega
    obtain ⟨t, hrun, hreach, happ, ht⟩ := @ih v (by rw [hvstatus]; exact hb)
      (by rw [hvstatus, hvcount, hst]; simp only [sub_eq_zero]) (by rw [hvcount]; bv_omega)
      (by rw [hvpos, hvf.inLen]; bv_omega) (by unfold State.outputFits; rw [hvf.outBase, hvf.maxSize, hvf.params]; exact hout)
      (by rw [hvout, hvf.maxSize]; bv_omega)
    refine ⟨t, ?_, fun hfeed => ?_, ?_, ?_⟩
    · rw [andThenEach_busy hb, execLiteral_eq hin, ← hv, hrun]
    · obtain ⟨hbuf, hbyte, hrest⟩ := hfeed.cons
      have hinAddr : v.inAddr = u.inAddr + 1 := inAddr_of_inPos hvf.inBase (k := 1) hvpos (by omega)
      refine .head ⟨hb, ?_⟩ (hreach (hinAddr ▸ hrest.frame hvf))
      rw [hv, ← hbyte]
      exact .literal hst hbuf hin
    · refine Appended.cons ?_ (fun x hx => ?_) (haddr ▸ happ)
      · rw [hv]; exact byteAt_byteAppended_same b .off0 (advanceInput u)
      · rw [hv]; exact byteAt_byteAppended_other b .off0 (advanceInput u) hx
    · refine ht.trans ?_
      rw [hvstatus, hvpos, hvout, add_one_add_ofNat, add_one_add_ofNat, hv]
      rfl

/-- The state after the literals of a sequence, with what OBUF then holds. -/
def literalsCopied (t : Byte) (lits : List Byte) (m : Memory) (s : State) : State :=
  { s with obuf := m, inPos := s.inPos + BitVec.ofNat 32 (1 + (Encode.extension lits.length).length + lits.length),
           outLen := s.outLen + BitVec.ofNat 32 lits.length, dToken := t, dCount := 0,
           status := { s.status with state := .off0 } }

/-- TOKEN, LEXT, LITCHK and the literals of a sequence that fits its bounds. -/
theorem sequenceHead_run {t : Byte} {lits : List Byte} (hnib : Decode.literalNibble t = Encode.nibble lits.length)
    {s : State} (hb : s.status.busy = true)
    (hfit : s.inPos.toNat + (1 + (Encode.extension lits.length).length + lits.length) ≤ s.inLen.toNat)
    (hout : s.outputFits) (hroom : s.outLen.toNat + lits.length ≤ s.maxSize.toNat) :
    ∃ u, sequenceHead t lits s = .next u ∧
      (s.status.state = .token → FeedAt s s.inAddr (t :: (Encode.extension lits.length ++ lits)) →
        Relation.TransGen Goes s u) ∧
      Appended s u s.outAddr lits ∧
      u = literalsCopied t lits u.obuf s := by
  have hlt := s.inLen.isLt
  have hlt' := s.maxSize.isLt
  generalize hk : (Encode.extension lits.length).length = k at hfit
  obtain ⟨hhead, hreach⟩ := literalLengthRun hnib hb (by omega)
  obtain ⟨v, hv⟩ : ∃ v, v = literalLengthRead t lits.length s := ⟨_, rfl⟩
  rw [← hv] at hhead hreach
  have hvpos : v.inPos = s.inPos + BitVec.ofNat 32 (1 + k) := by
    rw [hv, ← hk]
    show s.inPos + 1 + _ = _
    bv_omega
  have hvcount : v.dCount.toNat = lits.length := by
    rw [hv]
    show (sat32 lits.length).toNat = _
    rw [toNat_sat32]
    omega
  have hvb : v.status.busy = true := by rw [hv]; exact hb
  have hvst : v.status.state = .litchk := by rw [hv]; rfl
  have hvleft : v.inPos.toNat + v.dCount.toNat ≤ v.inLen.toNat := by
    rw [hvpos, hvcount, show v.inLen = s.inLen by rw [hv]; rfl]
    bv_omega
  have hvroom : v.outLen.toNat + v.dCount.toNat ≤ v.maxSize.toNat := by
    rw [hvcount, show v.outLen = s.outLen by rw [hv]; rfl, show v.maxSize = s.maxSize by rw [hv]; rfl]
    exact hroom
  have hvf : EngineFrame s v := by rw [hv]; constructor <;> rfl
  obtain ⟨u, hrun, hreach', happ, hu⟩ := literalsRun lits (u := v.enter (if v.dCount = 0 then .off0 else .lit)) hvb rfl
    hvcount (hvcount ▸ hvleft) (by rw [hv]; exact hout) (hvcount ▸ hvroom)
  refine ⟨u, ?_, fun hst hfeed => ?_, ?_, ?_⟩
  · rw [sequenceHead, hhead, andThen_busy hvb, litchkStep_of_fits hvleft hvroom, hrun]
  · rw [← List.cons_append] at hfeed
    obtain ⟨hfeed, hrest⟩ := hfeed.append
    have haddr : v.inAddr = s.inAddr + (t :: Encode.extension lits.length).length :=
      inAddr_of_inPos hvf.inBase (by rw [hvpos, ← hk, List.length_cons, Nat.add_comm]) (by
        rw [List.length_cons]; omega)
    have hgo : Goes v (v.enter (if v.dCount = 0 then .off0 else .lit)) := ⟨hvb, .literalsFit hvst hvleft hvroom⟩
    exact ((hreach hst hfeed).tail hgo).trans_left (hreach' (by
      rw [enter_inAddr, haddr]
      exact (hrest.frame hvf).frame hgo.frame))
  · have hmem : ∀ a, (v.enter (if v.dCount = 0 then .off0 else .lit)).byteAt .obuf a = s.byteAt .obuf a :=
      fun a => by rw [hv]; rfl
    refine ⟨?_, fun x hx => (happ.2 x ?_).trans (hmem x)⟩
    · rw [hv] at happ; exact happ.1
    · rw [hv]; exact hx
  · refine hu.trans ?_
    have hsum : v.inPos + BitVec.ofNat 32 lits.length = s.inPos + BitVec.ofNat 32 (1 + k + lits.length) := by
      rw [hvpos]; bv_omega
    rw [enter_inPos, hsum, ← hk, hv]
    rfl

/-! ### The offset (R125, R185, R186) -/

/-- The state after both bytes of an offset. -/
def offsetRead (off : BitVec 16) (s : State) : State :=
  { s with inPos := s.inPos + 2, dOffset := off, dCount := (Decode.matchNibble s.dToken).zeroExtend 32,
           status := { s.status with state := if Decode.matchNibble s.dToken = 15 then .mext else .mchk } }

/-- R125: the low byte below, the high byte above. -/
theorem offset_bytes_or (off : BitVec 16) :
    (Decode.offsetLow off).zeroExtend 16 ||| (Decode.offsetHigh off).zeroExtend 16 <<< 8 = off := by
  refine BitVec.eq_of_getLsbD_eq fun i hi => ?_
  simp only [Decode.offsetLow, Decode.offsetHigh, BitVec.getLsbD_or, BitVec.getLsbD_shiftLeft, BitVec.getLsbD_setWidth,
    BitVec.getLsbD_extractLsb']
  grind

theorem offsetHighTaken_offsetLowTaken (off : BitVec 16) (s : State) :
    offsetHighTaken (Decode.offsetHigh off) (offsetLowTaken (Decode.offsetLow off) s) = offsetRead off s := by
  have hpos : s.inPos + 1 + 1 = s.inPos + 2 := by bv_omega
  simp only [offsetHighTaken, offsetLowTaken, offsetRead, offset_bytes_or, hpos]
  rfl

theorem offsetRun (off : BitVec 16) {s : State} (hb : s.status.busy = true)
    (hfit : s.inPos.toNat + 2 ≤ s.inLen.toNat) :
    execOffset off s = .next (offsetRead off s) ∧
    (s.status.state = .off0 → FeedAt s s.inAddr [Decode.offsetLow off, Decode.offsetHigh off] →
      Reaches s (offsetRead off s)) := by
  have hlt := s.inLen.isLt
  have hne : s.inPos ≠ s.inLen := by rintro h; rw [h] at hfit; omega
  have hne' : (offsetLowTaken (Decode.offsetLow off) s).inPos ≠ s.inLen := by
    show s.inPos + 1 ≠ s.inLen
    bv_omega
  refine ⟨?_, fun hst hfeed => ?_⟩
  · rw [execOffset, offsetLowStep_of_ne hne, andThen_busy (s := offsetLowTaken _ s) hb, offsetHighStep_of_ne hne',
      offsetHighTaken_offsetLowTaken]
  · obtain ⟨hin, hlow, hrest⟩ := hfeed.cons
    obtain ⟨hin', hhigh, -⟩ := hrest.cons
    have haddr : (offsetLowTaken (Decode.offsetLow off) s).inAddr = s.inAddr + 1 :=
      inAddr_of_inPos (s := s) (t := offsetLowTaken _ s) (k := 1) rfl rfl (by omega)
    have hgo : Goes s (offsetLowTaken (Decode.offsetLow off) s) := ⟨hb, hlow ▸ Turn.offsetLow hst hne hin⟩
    have hgo' : Goes (offsetLowTaken (Decode.offsetLow off) s) (offsetRead off s) := by
      refine ⟨hb, ?_⟩
      have hbyte : (offsetLowTaken (Decode.offsetLow off) s).byteAt .ibuf
          (offsetLowTaken (Decode.offsetLow off) s).inAddr = Decode.offsetHigh off := haddr ▸ hhigh
      rw [← offsetHighTaken_offsetLowTaken]
      exact hbyte ▸ Turn.offsetHigh rfl hne' (haddr ▸ hin')
    exact .tail (.single hgo) hgo'

/-! ### The match length (R126, R127, R187) -/

/-- The state after an offset and the extension bytes of its match length. -/
def matchLengthRead (off : BitVec 16) (mraw : Nat) (s : State) : State :=
  countRead (Encode.extension mraw).length mraw .mchk (offsetRead off s)

theorem matchLengthRun (off : BitVec 16) {mraw : Nat} {s : State} (hb : s.status.busy = true)
    (hnib : Decode.matchNibble s.dToken = Encode.nibble mraw)
    (hfit : s.inPos.toNat + (2 + (Encode.extension mraw).length) ≤ s.inLen.toNat) :
    andThenEach execMext (Encode.extension mraw) (andThen (.next s) (execOffset off)) =
      .next (matchLengthRead off mraw s) ∧
    (s.status.state = .off0 →
      FeedAt s s.inAddr ([Decode.offsetLow off, Decode.offsetHigh off] ++ Encode.extension mraw) →
      Reaches s (matchLengthRead off mraw s)) := by
  have hlt := s.inLen.isLt
  obtain ⟨hoff, hreach⟩ := offsetRun off hb (by omega)
  have hpos : (offsetRead off s).inPos.toNat = s.inPos.toNat + 2 := by show (s.inPos + 2).toNat = _; bv_omega
  obtain ⟨hrun, hreach'⟩ := lengthRun mraw (st := .mext) (last := .mchk) (by simp) (u := offsetRead off s) hb
    (by simp [offsetRead, hnib]) (by simp [offsetRead, hnib])
    (by show (offsetRead off s).inPos.toNat + _ ≤ s.inLen.toNat; omega)
  refine ⟨?_, fun hst hfeed => ?_⟩
  · rw [andThen_busy hb, hoff]
    exact hrun
  · obtain ⟨hbytes, hext⟩ := hfeed.append
    have haddr : (offsetRead off s).inAddr = s.inAddr + 2 :=
      inAddr_of_inPos (s := s) (t := offsetRead off s) (k := 2) rfl rfl (by omega)
    have hoffset := hreach hst hbytes
    exact hoffset.trans (hreach' (haddr ▸ hext.frame hoffset.frame))

/-! ### The match (R189) -/

/-- A match of `n` bytes copied forward to `a`: each of them is the byte `off` before it in the output as it then is, and no other
byte of OBUF has changed. -/
def Copied (s t : State) (a n off : Nat) : Prop :=
  (∀ k, k < n → t.byteAt .obuf (a + k) = t.byteAt .obuf (a + k - off)) ∧
  (∀ x, x < a ∨ a + n ≤ x → t.byteAt .obuf x = s.byteAt .obuf x)

theorem copiesRun (n : Nat) {u : State} (hb : u.status.busy = true)
    (hst : u.status.state = if u.dCount = 0 then .token else .copy) (hcount : u.dCount.toNat = n)
    (hout : u.outputFits) (hroom : u.outLen.toNat + n ≤ u.maxSize.toNat) (hwin : u.winEff.toNat ≤ u.outBase.toNat)
    (hnz : 1 ≤ u.dOffset.toNat) (hback : u.dOffset.toNat ≤ u.outLen.toNat + u.winEff.toNat) :
    ∃ t, andThenTimes copyStep n (.next u) = .next t ∧ Reaches u t ∧ Copied u t u.outAddr n u.dOffset.toNat ∧
      t = { u with obuf := t.obuf, outLen := u.outLen + BitVec.ofNat 32 n, dCount := 0,
                   status := { u.status with state := .token } } := by
  induction n generalizing u with
  | zero =>
    have hzero : u.dCount = 0 := BitVec.eq_of_toNat_eq hcount
    rw [if_pos hzero] at hst
    refine ⟨u, rfl, .refl, ⟨fun k h => absurd h (Nat.not_lt_zero k), fun _ _ => rfl⟩, ?_⟩
    rw [← hzero, ← hst]
    simp
  | succ n ih =>
    have hlt := u.maxSize.isLt
    have hmore : u.dCount ≠ 0 := by rintro h; rw [h] at hcount; simp at hcount
    rw [if_neg hmore] at hst
    have hin : u.outAddr < u.params.obufSize := by unfold State.outAddr; omega
    obtain ⟨v, hv⟩ : ∃ v, v = byteAppended (u.byteAt .obuf u.matchAddr) .token u := ⟨_, rfl⟩
    have hvstatus : v.status = { u.status with state := if u.dCount = 1 then .token else u.status.state } :=
      hv ▸ byteAppended_status _ .token u
    have hvf : EngineFrame u v := hv ▸ (appendByte_frame (appendByte_eq hin _ .token)).toEngineFrame
    have hvout : v.outLen = u.outLen + 1 := by rw [hv]; rfl
    have hvcount : v.dCount = u.dCount - 1 := by rw [hv]; rfl
    have hvoff : v.dOffset = u.dOffset := by rw [hv]; rfl
    have hvsame : v.byteAt .obuf u.outAddr = u.byteAt .obuf u.matchAddr := hv ▸ byteAt_byteAppended_same _ .token u
    have hvother : ∀ x, x ≠ u.outAddr → v.byteAt .obuf x = u.byteAt .obuf x :=
      fun x hx => hv ▸ byteAt_byteAppended_other _ .token u hx
    have haddr : v.outAddr = u.outAddr + 1 := by
      unfold State.outAddr
      rw [hvf.outBase, hvout]
      bv_omega
    obtain ⟨t, hrun, hreach, ⟨hcopied, hrest⟩, ht⟩ := @ih v (by rw [hvstatus]; exact hb)
      (by rw [hvstatus, hvcount, hst]; simp only [sub_eq_zero]) (by rw [hvcount]; bv_omega)
      (by unfold State.outputFits; rw [hvf.outBase, hvf.maxSize, hvf.params]; exact hout)
      (by rw [hvout, hvf.maxSize]; bv_omega) (by rw [hvf.winEff, hvf.outBase]; exact hwin) (hvoff ▸ hnz)
      (by rw [hvoff, hvout, hvf.winEff]; bv_omega)
    rw [haddr, hvoff] at hcopied
    rw [haddr] at hrest
    have hback' : u.dOffset.toNat ≤ u.outAddr := by unfold State.outAddr; omega
    refine ⟨t, ?_, .head ⟨hb, hv ▸ .copy hst hin⟩ hreach, ⟨fun k hk => ?_, fun x hx => ?_⟩, ?_⟩
    · rw [andThenTimes, andThen_busy hb, copyStep_of_lt hin, appendByte_eq hin, ← hv, hrun]
    · cases k with
      | zero =>
        rw [Nat.add_zero, hrest _ (.inl (Nat.lt_succ_self _)), hvsame, hrest _ (.inl (by omega)), hvother _ (by omega)]
        rfl
      | succ k =>
        rw [show u.outAddr + (k + 1) = u.outAddr + 1 + k by omega]
        exact hcopied k (by omega)
    · exact (hrest x (by omega)).trans (hvother x (by omega))
    · refine ht.trans ?_
      rw [hvstatus, hvout, add_one_add_ofNat, hv]
      rfl

end Sys2Proof.Machine
end

section
/-!
The whole sequences SEQ and LAST (spec/30_encoding.md R120, R129; spec/41_block_decode.md R181 to R189), and the fused turn, which takes one of
them where the engine would take its elements one by one (R330).
-/

open Sys2Proof.Claims

namespace Sys2Proof.Machine

/-! ### Sizes and tokens -/

theorem length_encode_seq (lits : List Byte) (off : BitVec 16) (mraw : Nat) :
    (encode (.seq lits off mraw)).length =
      1 + (Encode.extension lits.length).length + lits.length + (2 + (Encode.extension mraw).length) := by
  simp only [encode_seq, List.length_cons, List.length_append]
  omega

theorem length_encode_last (lits : List Byte) (ml : BitVec 4) :
    (encode (.last lits ml)).length = 1 + (Encode.extension lits.length).length + lits.length := by
  simp only [encode_last, List.length_cons, List.length_append]
  omega

theorem toNat_append_add {m n : Nat} (x : BitVec m) (y : BitVec n) :
    (x ++ y).toNat = x.toNat * 2 ^ n + y.toNat := by
  rw [BitVec.toNat_append, ← Nat.shiftLeft_add_eq_or_of_lt y.isLt, Nat.shiftLeft_eq]

/-- R121: the value of a token from its nibbles. -/
theorem token_eq_ofNat (ll ml : BitVec 4) : Encode.token ll ml = BitVec.ofNat 8 (ll.toNat * 16 + ml.toNat) := by
  refine BitVec.eq_of_toNat_eq ?_
  have hll := ll.isLt
  have hml := ml.isLt
  rw [Encode.token, toNat_append_add, BitVec.toNat_ofNat]
  omega

/-! ### A whole sequence by its parts -/

/-- What follows the literals of SEQ. -/
def sequenceTail (off : BitVec 16) (mraw : Nat) (r : Result) : Result :=
  andThen (andThen (andThenEach execMext (Encode.extension mraw) (andThen r (execOffset off))) mchkStep) copyRun

theorem execSeq_eq (lits : List Byte) (off : BitVec 16) (mraw : Nat) (s : State) :
    exec (.seq lits off mraw) s = sequenceTail off mraw
      (sequenceHead (Encode.token (Encode.nibble lits.length) (Encode.nibble mraw)) lits s) := rfl

theorem execLast_eq (lits : List Byte) (ml : BitVec 4) (s : State) :
    exec (.last lits ml) s =
      andThen (sequenceHead (Encode.token (Encode.nibble lits.length) ml) lits s) endOfBlock := rfl

/-- A sequence whose command has ended does nothing more. -/
theorem sequenceTail_idle {u : State} (hb : u.status.busy = false) (off : BitVec 16) (mraw : Nat) :
    sequenceTail off mraw (.next u) = .next u := by
  rw [sequenceTail, andThen_idle hb, andThenEach_idle hb, andThen_idle hb, andThen_idle hb]

theorem sequenceTail_busy {u w : State} {off : BitVec 16} {mraw : Nat} (hw : w.status.busy = true)
    (h : andThenEach execMext (Encode.extension mraw) (andThen (.next u) (execOffset off)) = .next w) :
    sequenceTail off mraw (.next u) = andThen (mchkStep w) copyRun := by
  rw [sequenceTail, h, andThen_busy hw]

/-! ### SEQ within its bounds -/

/-- R188, R189: a match within its bounds is copied whole. -/
theorem matchRun_fits {w : State} (hb : w.status.busy = true) (hout : w.outputFits)
    (hwin : w.winEff.toNat ≤ w.outBase.toNat) {n : Nat} (hcount : w.dCount.toNat + 4 = n)
    (hroom : w.outLen.toNat + n ≤ w.maxSize.toNat) (hnz : 1 ≤ w.dOffset.toNat)
    (hback : w.dOffset.toNat ≤ w.outLen.toNat + w.winEff.toNat) :
    ∃ t, andThen (mchkStep w) copyRun = .next t ∧ Copied w t w.outAddr n w.dOffset.toNat ∧
      t = { w with obuf := t.obuf, outLen := w.outLen + BitVec.ofNat 32 n, dCount := 0,
                   status := { w.status with state := .token } } := by
  have hlt := w.maxSize.isLt
  have hdone : (matchCompleted w).dCount.toNat = n := by rw [matchCompleted_dCount]; omega
  have hne := matchCompleted_dCount_ne_zero w
  have hoff : (matchCompleted w).dOffset ≠ 0 := by show w.dOffset ≠ 0; bv_omega
  obtain ⟨t, hrun, -, hcopied, ht⟩ := copiesRun n (u := (matchCompleted w).enter .copy) hb (if_neg hne).symm hdone hout
    hroom hwin hnz hback
  refine ⟨t, ?_, hcopied, ht⟩
  have hchecks : mchkStep w = .next ((matchCompleted w).enter .copy) :=
    matchChecks_of_fits hoff hback (hdone ▸ hroom)
  rw [hchecks, andThen_busy (s := (matchCompleted w).enter .copy) hb, copyRun, enter_dCount, hdone, hrun]

/-- Settles O25: the head copies the literals, the tail reads the offset and the match length and copies the match. -/
theorem seqCopiesLiteralsThenMatch : Obligations.SeqCopiesLiteralsThenMatch := by
  intro s lits off mraw size start hi hb hst hfit hroom hnz hback
  have hs : s.status.state ∈ decodeStates := by simp [decodeStates, hst]
  obtain ⟨-, hout, hwin, -⟩ := hi.sound.decodeOk hs
  have hlt := s.inLen.isLt
  have hlt' := s.maxSize.isLt
  have hsize : size = _ := length_encode_seq lits off mraw
  obtain ⟨u, hhead, -, ⟨hlits, hkeep⟩, hu⟩ := sequenceHead_run
    (t := Encode.token (Encode.nibble lits.length) (Encode.nibble mraw)) (literalNibble_token _ _) hb (by omega) hout
    (by omega)
  have hub : u.status.busy = true := by rw [hu]; exact hb
  have hupos : u.inPos.toNat = s.inPos.toNat + (1 + (Encode.extension lits.length).length + lits.length) := by
    rw [hu]; exact toNat_add_ofNat (by omega)
  have hulen : u.outLen.toNat = s.outLen.toNat + lits.length := by
    rw [hu]; exact toNat_add_ofNat (by omega)
  have huin : u.inLen = s.inLen := by rw [hu]; rfl
  have hubase : u.outBase = s.outBase := by rw [hu]; rfl
  obtain ⟨hmext, -⟩ := matchLengthRun off (s := u) (mraw := mraw) hub
    (by rw [hu]; exact matchNibble_token _ _) (by rw [hupos, huin]; omega)
  obtain ⟨w, hw⟩ : ∃ w, w = matchLengthRead off mraw u := ⟨_, rfl⟩
  have hwcount : w.dCount.toNat = mraw := by
    rw [hw]
    show (sat32 mraw).toNat = mraw
    rw [toNat_sat32]
    omega
  have hwlen : w.outLen = u.outLen := by rw [hw]; rfl
  have hwaddr : w.outAddr = start + lits.length := by
    unfold State.outAddr
    rw [hwlen, hulen, hw]
    show u.outBase.toNat + _ = _
    rw [hubase, Nat.add_assoc]
  have hwoff : w.dOffset = off := by rw [hw]; rfl
  rw [← hw] at hmext
  obtain ⟨t, hmatch, ⟨hcopied, hother⟩, ht⟩ := matchRun_fits (w := w) (n := mraw + 4) (by rw [hw]; exact hub)
    (by rw [hw, hu]; exact hout) (by rw [hw, hu]; exact hwin) (by rw [hwcount])
    (by rw [hwlen, hulen, show w.maxSize = s.maxSize by rw [hw, hu]; rfl]; omega) (by rw [hwoff]; exact hnz)
    (by rw [hwoff, hwlen, hulen, show w.winEff = s.winEff by rw [hw, hu]; rfl]; exact hback)
  rw [hwaddr, hwoff] at hcopied
  rw [hwaddr] at hother
  have hwmem : ∀ a, w.byteAt .obuf a = u.byteAt .obuf a := fun a => by rw [hw]; rfl
  refine ⟨t, ?_, fun k hk => ?_, hcopied, fun a ha => ?_, ?_⟩
  · rw [execSeq_eq, hhead, sequenceTail_busy (by rw [hw]; exact hub) hmext, hmatch]
  · rw [hother _ (.inl (by omega)), hwmem]
    exact hlits k hk
  · rw [hother a (by omega), hwmem]
    exact hkeep a (by show a < start ∨ start + lits.length ≤ a; omega)
  · refine ht.trans ?_
    have hpos : w.inPos = BitVec.ofNat 32 (s.inPos.toNat + size) := by
      rw [hw]
      show u.inPos + 2 + BitVec.ofNat 32 (Encode.extension mraw).length = _
      refine BitVec.eq_of_toNat_eq ?_
      bv_omega
    have hlen : w.outLen + BitVec.ofNat 32 (mraw + 4) =
        BitVec.ofNat 32 (s.outLen.toNat + lits.length + (mraw + 4)) := by
      rw [hwlen]
      refine BitVec.eq_of_toNat_eq ?_
      bv_omega
    have htok : Encode.token (Encode.nibble lits.length) (Encode.nibble mraw) =
        BitVec.ofNat 8 (min lits.length 15 * 16 + min mraw 15) := by
      rw [token_eq_ofNat, toNat_nibble, toNat_nibble]
    rw [hlen, hpos, hw, hu, ← htok, ← hst]
    rfl

/-! ### LAST -/

theorem endOfBlock_of_end {s : State} (h : s.inPos = s.inLen) : endOfBlock s = .next (finish s) := if_pos h

/-- Settles O26: the head copies the literals up to the end of the input, where the block ends. -/
theorem lastCopiesLiteralsAndEndsTheBlock : Obligations.LastCopiesLiteralsAndEndsTheBlock := by
  intro s lits ml size start hi hb hst hfit hroom
  have hs : s.status.state ∈ decodeStates := by simp [decodeStates, hst]
  obtain ⟨-, hout, -⟩ := hi.sound.decodeOk hs
  have hlt := s.inLen.isLt
  have hlt' := s.maxSize.isLt
  have hsize : size = _ := length_encode_last lits ml
  obtain ⟨u, hhead, -, ⟨hlits, hkeep⟩, hu⟩ := sequenceHead_run
    (t := Encode.token (Encode.nibble lits.length) ml) (literalNibble_token _ _) hb (by omega) hout hroom
  have hpos : s.inPos + BitVec.ofNat 32 (1 + (Encode.extension lits.length).length + lits.length) = s.inLen := by
    refine BitVec.eq_of_toNat_eq ?_
    rw [toNat_add_ofNat (by omega)]
    omega
  have hlen : s.outLen + BitVec.ofNat 32 lits.length = BitVec.ofNat 32 (s.outLen.toNat + lits.length) := by
    refine BitVec.eq_of_toNat_eq ?_
    bv_omega
  have htok : Encode.token (Encode.nibble lits.length) ml = BitVec.ofNat 8 (min lits.length 15 * 16 + ml.toNat) := by
    rw [token_eq_ofNat, toNat_nibble]
  have hub : u.status.busy = true := by rw [hu]; exact hb
  have hend : u.inPos = u.inLen := by rw [hu]; exact hpos
  refine ⟨finish u, ?_, hlits, hkeep, ?_⟩
  · rw [execLast_eq, hhead, andThen_busy hub, endOfBlock_of_end hend]
  · refine (congrArg finish hu).trans ?_
    rw [literalsCopied, hpos, hlen, htok]
    rfl

/-! ### The fused turn is the engine's own turns (R330) -/

/-- R183: after a literal length a sequence goes on when LITCHK passes, and else has ended. -/
theorem State.Sound.literalCheck {v : State} (hi : v.Sound) (hb : v.status.busy = true) (hst : v.status.state = .litchk) :
    (∃ t, litchkStep v = .next t ∧ t.status.busy = false ∧ Goes v t) ∨
    v.outLen.toNat + v.dCount.toNat ≤ v.maxSize.toNat := by
  obtain ⟨t, ht⟩ := hi.exists_turn hb
  have hstep := (engineStep_litchk hb hst).symm.trans (engineStep_of_turn hb ht)
  obtain ⟨-, rfl⟩ | ⟨-, -, rfl⟩ | ⟨-, hroom, -⟩ := litchkStep_next hstep
  · exact .inl ⟨_, hstep, rfl, hb, ht⟩
  · exact .inl ⟨_, hstep, rfl, hb, ht⟩
  · exact .inr hroom

/-- The head of a sequence that is on the wire: the engine takes the same way through it by itself. -/
theorem State.Sound.after_sequenceHead {s : State} (hi : s.Sound) (hb : s.status.busy = true) (hst : s.status.state = .token)
    {t : Byte} {lits : List Byte} (hnib : Decode.literalNibble t = Encode.nibble lits.length)
    (hfit : s.inPos.toNat + (1 + (Encode.extension lits.length).length + lits.length) ≤ s.inLen.toNat)
    (hfeed : FeedAt s s.inAddr (t :: (Encode.extension lits.length ++ lits))) :
    ∃ u, sequenceHead t lits s = .next u ∧ Relation.TransGen Goes s u ∧
      (u.status.busy = false ∨ u = literalsCopied t lits u.obuf s) := by
  have hlt := s.inLen.isLt
  obtain ⟨-, hout, -⟩ := hi.decodeOk (by simp [decodeStates, hst])
  obtain ⟨hhead, hreach⟩ := literalLengthRun hnib hb (by omega)
  have hreach := hreach hst (hfeed.append (xs := t :: Encode.extension lits.length)).1
  obtain ⟨v, hv⟩ : ∃ v, v = literalLengthRead t lits.length s := ⟨_, rfl⟩
  rw [← hv] at hhead hreach
  have hvb : v.status.busy = true := by rw [hv]; exact hb
  obtain ⟨w, hstep, hidle, hgo⟩ | hroom :=
    (hi.reaches hreach.to_reflTransGen).literalCheck hvb (by rw [hv]; rfl)
  · refine ⟨w, ?_, hreach.tail hgo, .inl hidle⟩
    rw [sequenceHead, hhead, andThen_busy hvb, hstep, andThenEach_idle hidle]
  · have hroom' : s.outLen.toNat + lits.length ≤ s.maxSize.toNat := by
      have hcount : v.dCount.toNat = lits.length := by
        rw [hv]
        show (sat32 lits.length).toNat = _
        rw [toNat_sat32]
        omega
      rw [hcount, hv] at hroom
      exact hroom
    obtain ⟨u, hrun, hgo, -, hu⟩ := sequenceHead_run hnib hb hfit hout hroom'
    exact ⟨u, hrun, hgo hst hfeed, .inr hu⟩

/-- R188, R189: from MCHK, the check and the copies of the match are the engine's own turns. -/
theorem State.Sound.matchRun {w : State} (hi : w.Sound) (hb : w.status.busy = true) (hst : w.status.state = .mchk) :
    ∃ t, andThen (mchkStep w) copyRun = .next t ∧ Reaches w t := by
  obtain ⟨-, hout, hwin, -⟩ := hi.decodeOk (by simp [decodeStates, hst])
  obtain ⟨t, ht⟩ := hi.exists_turn hb
  have hstep : mchkStep w = .next t := (engineStep_mchk hb hst).symm.trans (engineStep_of_turn hb ht)
  have hstop : t.status.busy = false → ∃ t, andThen (mchkStep w) copyRun = .next t ∧ Reaches w t :=
    fun hidle => ⟨t, by rw [hstep, andThen_idle hidle], .single ⟨hb, ht⟩⟩
  obtain ⟨-, rfl⟩ | ⟨-, -, rfl⟩ | ⟨-, -, -, rfl⟩ | ⟨hnz, hback, hroom, rfl⟩ := mchkStep_next hstep
  · exact hstop rfl
  · exact hstop rfl
  · exact hstop rfl
  · have hne := matchCompleted_dCount_ne_zero w
    obtain ⟨u, hrun, hreach, -⟩ := copiesRun _ (u := (matchCompleted w).enter .copy) hb (if_neg hne).symm rfl hout hroom
      hwin (by show 1 ≤ w.dOffset.toNat; bv_omega) hback
    refine ⟨u, ?_, .head ⟨hb, ht⟩ hreach⟩
    rw [hstep, andThen_busy (s := (matchCompleted w).enter .copy) hb]
    exact hrun

/-- R330: a sequence that is on the wire runs as the engine's own turns. -/
theorem State.Sound.exec_seq {s : State} (hi : s.Sound) (hb : s.status.busy = true) (hst : s.status.state = .token)
    {lits : List Byte} {off : BitVec 16} {mraw : Nat}
    (hfit : s.inPos.toNat + (encode (.seq lits off mraw)).length ≤ s.inLen.toNat)
    (hfeed : FeedAt s s.inAddr (encode (.seq lits off mraw))) :
    ∃ t, exec (.seq lits off mraw) s = .next t ∧ Relation.TransGen Goes s t := by
  have hlt := s.inLen.isLt
  rw [length_encode_seq] at hfit
  rw [encode_seq, ← List.append_assoc, ← List.cons_append] at hfeed
  obtain ⟨hhead, htail⟩ := hfeed.append
  obtain ⟨u, hrun, hgo, hidle | hu⟩ := hi.after_sequenceHead hb hst (literalNibble_token _ _) (by omega) hhead
  · exact ⟨u, by rw [execSeq_eq, hrun, sequenceTail_idle hidle], hgo⟩
  · have hub : u.status.busy = true := by rw [hu]; exact hb
    have hust : u.status.state = .off0 := by rw [hu]; rfl
    have huf := Reaches.frame hgo.to_reflTransGen
    have hupos : u.inPos.toNat = s.inPos.toNat + (1 + (Encode.extension lits.length).length + lits.length) := by
      rw [hu]; exact toNat_add_ofNat (by omega)
    have huaddr : u.inAddr = s.inAddr + (Encode.token (Encode.nibble lits.length) (Encode.nibble mraw) ::
        (Encode.extension lits.length ++ lits)).length := by
      unfold State.inAddr
      rw [huf.inBase, hupos, List.length_cons, List.length_append]
      omega
    obtain ⟨hmext, hreach⟩ := matchLengthRun off (s := u) (mraw := mraw) hub
      (by rw [hu]; exact matchNibble_token _ _) (by rw [hupos, huf.inLen]; omega)
    have hreach := hgo.trans_left (hreach hust (huaddr ▸ htail.frame huf))
    obtain ⟨t, hmatch, hlast⟩ := (hi.reaches hreach.to_reflTransGen).matchRun (w := matchLengthRead off mraw u) hub rfl
    refine ⟨t, ?_, hreach.trans_left hlast⟩
    rw [execSeq_eq, hrun, sequenceTail_busy (w := matchLengthRead off mraw u) hub hmext, hmatch]

/-- R129, R330: a last sequence that is on the wire up to the end of the input runs as the engine's own turns. -/
theorem State.Sound.exec_last {s : State} (hi : s.Sound) (hb : s.status.busy = true) (hst : s.status.state = .token)
    {lits : List Byte} {ml : BitVec 4} (hfit : s.inPos.toNat + (encode (.last lits ml)).length = s.inLen.toNat)
    (hfeed : FeedAt s s.inAddr (encode (.last lits ml))) :
    ∃ t, exec (.last lits ml) s = .next t ∧ Relation.TransGen Goes s t := by
  have hlt := s.inLen.isLt
  rw [length_encode_last] at hfit
  rw [encode_last] at hfeed
  obtain ⟨u, hrun, hgo, hidle | hu⟩ := hi.after_sequenceHead hb hst (literalNibble_token _ _) (by omega) hfeed
  · exact ⟨u, by rw [execLast_eq, hrun, andThen_idle hidle], hgo⟩
  · have hub : u.status.busy = true := by rw [hu]; exact hb
    have hend : u.inPos = u.inLen := by
      rw [hu]
      refine BitVec.eq_of_toNat_eq ?_
      show (s.inPos + _).toNat = s.inLen.toNat
      rw [toNat_add_ofNat (by omega)]
      omega
    refine ⟨finish u, ?_, hgo.tail ⟨hub, .endOfBlock (by rw [hu]; rfl) hend⟩⟩
    rw [execLast_eq, hrun, andThen_busy hub, endOfBlock_of_end hend]

/-- R185, R186, R330: an offset that is on the wire runs as the engine's own turns. -/
theorem exec_offset_goes {s : State} (hb : s.status.busy = true) (hst : s.status.state = .off0) {off : BitVec 16}
    (hfit : s.inPos.toNat + 2 ≤ s.inLen.toNat) (hfeed : FeedAt s s.inAddr (encode (.offset off))) :
    ∃ t, exec (.offset off) s = .next t ∧ Reaches s t ∧ t.status.state ≠ .off0 := by
  obtain ⟨hrun, hreach⟩ := offsetRun off hb hfit
  refine ⟨_, hrun, hreach hst hfeed, ?_⟩
  unfold offsetRead
  dsimp only
  split <;> simp

/-- The bytes a fused turn decodes lie at IN_POS, and are the encoding of what it takes. -/
theorem State.Sound.feed_of_decode {s : State} (hi : s.Sound) (hs : s.status.state ∈ decodeStates) {slot : Slot}
    (hslot : slot ≠ .command) {i : Instr} {rest : List Byte} (h : decode slot s.inputLeft = .ok (i, rest)) :
    s.inPos.toNat + (encode i).length + rest.length = s.inLen.toNat ∧ FeedAt s s.inAddr (encode i) := by
  obtain ⟨hin, -, -, -, hpos, -⟩ := hi.decodeOk hs
  obtain ⟨hbytes, -⟩ := encodeInvertsDecodeInABlock slot _ rest i hslot h
  have hlen := congrArg List.length hbytes
  rw [List.length_append, State.inputLeft, length_bytesAt] at hlen
  refine ⟨by omega, ?_⟩
  have hfeed : FeedAt s s.inAddr s.inputLeft := by
    refine ⟨?_, ?_⟩
    · rw [State.inputLeft, length_bytesAt]
      unfold State.inAddr
      omega
    · rw [State.inputLeft, length_bytesAt]
  rw [← hbytes] at hfeed
  exact hfeed.append.1

/-- R129: nothing follows a LAST in its block. -/
theorem sequence_last_rest {bytes rest : List Byte} {lits : List Byte} {ml : BitVec 4}
    (h : Decode.sequence bytes = .ok (.last lits ml, rest)) : rest = [] := by
  unfold Decode.sequence at h
  split at h
  · cases h
  · split at h
    · cases h
    · split at h
      · cases h
      · obtain ⟨-, -, hrest⟩ | ⟨_, _, heq, -⟩ := afterLiterals_ok h
        · exact hrest
        · cases heq

theorem sequence_instr {bytes rest : List Byte} {i : Instr} (h : Decode.sequence bytes = .ok (i, rest)) :
    (∃ lits off mraw, i = .seq lits off mraw) ∨ ∃ lits ml, i = .last lits ml := by
  have hslot := (encode_of_sequence h).2
  cases i with
  | seq lits off mraw => exact .inl ⟨lits, off, mraw, rfl⟩
  | last lits ml => exact .inr ⟨lits, ml, rfl⟩
  | _ => cases hslot

/-- R330: a fused turn of a busy engine is some of its own turns, at least one. -/
theorem State.Sound.after_fusedStep {s : State} (hi : s.Sound) (hb : s.status.busy = true) :
    ∃ t, fusedStep s = .next t ∧ Relation.TransGen Goes s t := by
  unfold fusedStep
  rw [if_pos hb]
  cases hf : fusedInstr s with
  | none =>
    obtain ⟨t, ht⟩ := hi.exists_turn hb
    exact ⟨t, (engineStep_busy hb).symm.trans (engineStep_of_turn hb ht), .single ⟨hb, ht⟩⟩
  | some i =>
    obtain ⟨-, ⟨hst, rest, hdec⟩ | ⟨hst, rest, hdec⟩⟩ := fusedInstr_some hf
    · have hs : s.status.state ∈ decodeStates := by simp [decodeStates, hst]
      obtain ⟨hfit, hfeed⟩ := hi.feed_of_decode hs (slot := .sequence) nofun hdec
      obtain ⟨lits, off, mraw, rfl⟩ | ⟨lits, ml, rfl⟩ := sequence_instr hdec
      · exact hi.exec_seq hb hst (by omega) hfeed
      · rw [sequence_last_rest hdec] at hfit
        exact hi.exec_last hb hst hfit hfeed
    · have hs : s.status.state ∈ decodeStates := by simp [decodeStates, hst]
      obtain ⟨hfit, hfeed⟩ := hi.feed_of_decode hs (slot := .offset) nofun hdec
      have hslot := (encodeInvertsDecodeInABlock .offset _ rest i nofun hdec).2
      cases i with
      | offset off =>
        obtain ⟨t, hrun, hreach, hne⟩ := exec_offset_goes hb hst (by simp [encode] at hfit; omega) hfeed
        obtain rfl | hgo := Relation.reflTransGen_iff_eq_or_transGen.mp hreach
        · exact absurd hst hne
        · exact ⟨t, hrun, hgo⟩
      | _ => cases hslot

/-- At least one turn of the engine is at least one step of a machine whose host is quiet. -/
theorem exists_runSteps_of_transGen {s t : State} (h : Relation.TransGen Goes s t) (hs : s.schedule = []) :
    ∃ n, 1 ≤ n ∧ runSteps n s = .next t := by
  obtain ⟨u, hgo, hreach⟩ := Relation.TransGen.head'_iff.mp h
  obtain ⟨n, hn⟩ := Reaches.exists_runSteps hreach (hgo.frame.schedule.trans hs)
  exact ⟨n + 1, Nat.le_add_left 1 n, (runSteps_of_goes hgo hs n).trans hn⟩

/-- Settles O50: a fused turn is some of the engine's own turns, and each of those is a plain step. -/
theorem fusedTurnIsSomePlainSteps : Obligations.FusedTurnIsSomePlainSteps := by
  intro s t hi hb hs h
  obtain ⟨u, hu, hgo⟩ := hi.sound.after_fusedStep hb
  rw [h] at hu
  cases hu
  exact exists_runSteps_of_transGen hgo hs

end Sys2Proof.Machine
end

section
/-!
What the host reads and writes (spec/10_state.md R30 to R67, spec/20_memory.md R94, R95, R106): the register map, the fields of the words it
reads, and accesses to the window and the buffers.
-/

open Sys2Proof.Claims

namespace Sys2Proof.Machine

/-! ### The register map (R30, R55, R65) -/

/-- R65: no register lies at 0xC0 or above. -/
theorem ofOffset_of_le {off : Nat} (h : 0xC0 ≤ off) : Reg.ofOffset off = none := by
  unfold Reg.ofOffset
  iterate 17 rw [if_neg (by omega)]

/-- The offsets below 0xC0, in three blocks of 64: the configuration and progress registers, and the two contexts. -/
theorem offset_of_ofOffset_block (block : Fin 3) (k : Fin 64) :
    ∀ r ∈ Reg.ofOffset (64 * block + k), r.offset = 64 * block + k := by
  match block with
  | 0 => revert k; decide
  | 1 => revert k; decide
  | 2 => revert k; decide

/-- R30: a lookup gives only the register of its offset. -/
theorem offset_of_ofOffset {off : Nat} {r : Reg} (h : Reg.ofOffset off = some r) : r.offset = off := by
  by_cases hlt : off < 0xC0
  · have hsplit : off = 64 * (off / 64) + off % 64 := (Nat.div_add_mod off 64).symm
    rw [hsplit] at h ⊢
    exact offset_of_ofOffset_block ⟨off / 64, by omega⟩ ⟨off % 64, by omega⟩ r h
  · rw [ofOffset_of_le (Nat.le_of_not_lt hlt)] at h
    cases h

/-- R30, R55: the offset column. -/
theorem offset_eq_offsetColumn (r : Reg) : r.offset = offsetColumn r := by
  cases r with
  | hSeed c | hAddr c | hLen c | hPos c | hTotal c | hDigest c | hHdrchk c | hBufcnt c | hV1 c | hV2 c | hV3 c | hV4 c =>
    cases c <;> rfl
  | _ => rfl

/-- The 64 words of the window: a register, or a reserved offset (R65). -/
theorem ofOffset_none_word (k : Fin 64) : Reg.ofOffset (4 * k) = none ↔ reservedOffset (4 * k) := by
  revert k
  decide

theorem ofOffset_eq_none_iff {off : Nat} (halign : off % 4 = 0) (hlt : off < 256) :
    Reg.ofOffset off = none ↔ reservedOffset off := by
  obtain ⟨k, rfl⟩ : 4 ∣ off := Nat.dvd_of_mod_eq_zero halign
  exact ofOffset_none_word ⟨k, by omega⟩

/-- Settles O2: both directions of the lookup, and the 64 words. -/
theorem registerMapIsOneToOne : Obligations.RegisterMapIsOneToOne :=
  ⟨offset_eq_offsetColumn, ofOffset_offset, fun _ _ => offset_of_ofOffset, fun _ => ofOffset_eq_none_iff⟩

/-! ### STATUS (R35, R40, R41, R290) -/

theorem errCode_toNat (c : ErrCode) : c.code.toNat = errorNumber c := by cases c <;> rfl

theorem engState_toNat (st : EngState) : st.code.toNat = stateNumber st := by cases st <;> rfl

theorem errorNumber_le (c : ErrCode) : errorNumber c ≤ 5 := by cases c <;> decide

theorem stateNumber_le (st : EngState) : stateNumber st ≤ 11 := by cases st <;> decide

theorem statusWord_errCode (st : Status) : st.word.extractLsb' 4 4 = st.errCode.code := by
  refine (BitVec.extractLsb'_append_eq_of_le (by decide)).trans ?_
  iterate 3 rw [BitVec.extractLsb'_append_eq_of_le (by decide)]
  exact BitVec.extractLsb'_append_eq_right


theorem statusWord_errState (st : Status) : st.word.extractLsb' 12 4 = st.errState.code := by
  refine (BitVec.extractLsb'_append_eq_of_le (by decide)).trans ?_
  iterate 5 rw [BitVec.extractLsb'_append_eq_of_le (by decide)]
  exact BitVec.extractLsb'_append_eq_right

theorem statusWord_lastCmd (st : Status) : st.word.extractLsb' 16 8 = st.lastCmd := by
  refine (BitVec.extractLsb'_append_eq_of_le (by decide)).trans ?_
  iterate 6 rw [BitVec.extractLsb'_append_eq_of_le (by decide)]
  exact BitVec.extractLsb'_append_eq_right

theorem statusWord_reserved (st : Status) : st.word.extractLsb' 24 8 = 0#8 := by
  refine (BitVec.extractLsb'_append_eq_of_le (by decide)).trans ?_
  iterate 7 rw [BitVec.extractLsb'_append_eq_of_le (by decide)]
  exact BitVec.extractLsb'_eq_self

/-- Settles O3: each field is cut out of the concatenation, and the codes are the numbers of their rules. -/
theorem statusWordHoldsItsFields : Obligations.StatusWordHoldsItsFields := by
  intro st
  have herr : (st.word.extractLsb' 4 4).toNat = errorNumber st.errCode := by rw [statusWord_errCode, errCode_toNat]
  have hstate : (st.word.extractLsb' 8 4).toNat = stateNumber st.state := by rw [statusWord_state, engState_toNat]
  have herrState : (st.word.extractLsb' 12 4).toNat = stateNumber st.errState := by
    rw [statusWord_errState, engState_toNat]
  refine ⟨statusWord_busy st, ?_, ?_, ?_, herr, hstate, herrState, statusWord_lastCmd st, statusWord_reserved st, ?_, ?_, ?_⟩
  · simp only [Status.word, BitVec.getLsbD_append]; simp
  · simp only [Status.word, BitVec.getLsbD_append]; simp
  · simp only [Status.word, BitVec.getLsbD_append]; simp
  · exact herr ▸ errorNumber_le _
  · exact hstate ▸ stateNumber_le _
  · exact herrState ▸ stateNumber_le _

/-! ### What a register reads (R31 to R63) -/

theorem ctrlWord_eq (c : Ctrl) :
    c.word = BitVec.ofNat 32 (c.linked.toNat + 2 * c.hsrc.toNat + 4 * c.irqEn.toNat + 8 * c.hctx.toNat) := by
  obtain ⟨linked, hsrc, irqEn, hctx⟩ := c
  cases linked <;> cases hsrc <;> cases irqEn <;> cases hctx <;> rfl

theorem statusWord_eq (st : Status) :
    st.word = BitVec.ofNat 32 (st.busy.toNat + 2 * st.done.toNat + 4 * st.err.toNat + 8 * st.rej.toNat
      + 2 ^ 4 * errorNumber st.errCode + 2 ^ 8 * stateNumber st.state + 2 ^ 12 * stateNumber st.errState
      + 2 ^ 16 * st.lastCmd.toNat) := by
  have hbusy := st.busy.toNat_le
  have hdone := st.done.toNat_le
  have herr := st.err.toNat_le
  have hrej := st.rej.toNat_le
  have hcode := errorNumber_le st.errCode
  have hstate := stateNumber_le st.state
  have herrState := stateNumber_le st.errState
  have hcmd := st.lastCmd.isLt
  refine BitVec.eq_of_toNat_eq ?_
  simp only [Status.word, toNat_append_add, BitVec.toNat_ofBool, errCode_toNat, engState_toNat, BitVec.toNat_ofNat]
  omega

/-- R61: bits 15:8 of the digest. -/
theorem hdrchk_eq (h : HashCtx) : h.hdrchk = BitVec.ofNat 32 (h.digest.toNat / 256 % 256) := by
  refine BitVec.eq_of_toNat_eq ?_
  rw [HashCtx.hdrchk, BitVec.toNat_and, BitVec.toNat_ushiftRight, Nat.shiftRight_eq_div_pow, BitVec.toNat_ofNat,
    BitVec.toNat_ofNat]
  exact (Nat.and_two_pow_sub_one_eq_mod _ 8).trans (by omega)

theorem bufcnt_eq (h : HashCtx) : h.bufcnt = BitVec.ofNat 32 (h.count.val + 256 * h.large.toNat) := by
  have hlarge := h.large.toNat_le
  refine BitVec.eq_of_toNat_eq ?_
  simp only [HashCtx.bufcnt, toNat_append_add, BitVec.toNat_ofBool, BitVec.toNat_ofNat]
  omega

theorem readReg_eq_registerValue (s : State) (r : Reg) : s.readReg r = registerValue s r := by
  cases r with
  | ctrl => exact ctrlWord_eq s.ctrl
  | status => exact statusWord_eq s.status
  | dToken => exact (BitVec.ofNat_toNat 32 s.dToken).symm
  | dOffset => exact (BitVec.ofNat_toNat 32 s.dOffset).symm
  | hHdrchk c => exact hdrchk_eq (s.hash c)
  | hBufcnt c => exact bufcnt_eq (s.hash c)
  | _ => rfl

/-! ### Accesses to the window (R65, R94) -/

theorem readWindow_offset (s : State) (r : Reg) : s.readWindow r.offset = s.readReg r := by
  rw [State.readWindow, ofOffset_offset]

theorem readWindow_of_none {off : Nat} (h : Reg.ofOffset off = none) (s : State) : s.readWindow off = 0 := by
  rw [State.readWindow, h]

theorem hostAct_regRead_good {off width : Nat} (h : goodAccess off width) (s : State) :
    hostAct (.regRead off width) s = .next { s with reads := s.readWindow off :: s.reads } := if_pos h

theorem hostAct_regRead_bad {off width : Nat} (h : ¬goodAccess off width) (s : State) :
    hostAct (.regRead off width) s =
      .next { s with reads := 0 :: s.reads, hostFault := { s.hostFault with badAccess := true } } := if_neg h

theorem hostAct_regWrite_bad {off width : Nat} (h : ¬goodAccess off width) (v : Word) (s : State) :
    hostAct (.regWrite off width v) s = .next { s with hostFault := { s.hostFault with badAccess := true } } := if_neg h

theorem hostAct_regWrite_none {off : Nat} (h : Reg.ofOffset off = none) (hgood : goodAccess off 4) (v : Word)
    (s : State) : hostAct (.regWrite off 4 v) s = .next s := by
  rw [hostAct, hostRegWrite, if_pos hgood, h]

/-- Settles O8: a reserved offset is a good access that holds no register. -/
theorem reservedOffsetsReadZeroAndIgnoreWrites : Obligations.ReservedOffsetsReadZeroAndIgnoreWrites := by
  intro s off v h
  obtain ⟨halign, hrange⟩ := id h
  have hgood : goodAccess off 4 := ⟨rfl, halign, by omega⟩
  have hnone := (ofOffset_eq_none_iff halign hgood.2.2).mpr h
  exact ⟨by rw [hostAct_regRead_good hgood, readWindow_of_none hnone], hostAct_regWrite_none hnone hgood v s⟩

/-- Settles O9: the register's value field by field, and the good and the bad accesses. -/
theorem registerAccessIsAlignedWordsOnly : Obligations.RegisterAccessIsAlignedWordsOnly := by
  refine ⟨fun s r => ?_, fun s off width v =>
    ⟨fun h => hostAct_regRead_good h s, fun h => ⟨hostAct_regRead_bad h s, hostAct_regWrite_bad h v s⟩⟩⟩
  rw [hostAct_regRead_good (goodAccess_offset r), readWindow_offset, readReg_eq_registerValue]

/-! ### CTRL (R32) -/

theorem ctrlWord_ofWord (v : Word) : (Ctrl.ofWord v).word = v &&& 0xF#32 := by
  refine BitVec.eq_of_getLsbD_eq fun i hi => ?_
  simp only [Ctrl.word, Ctrl.ofWord, BitVec.getLsbD_append, BitVec.getLsbD_and]
  interval_cases i <;> simp

theorem writeCtrl_idle {s : State} (h : s.status.busy = false) (v : Word) :
    writeCtrl v s = { s with ctrl := Ctrl.ofWord v } := if_neg (by simp [h])

/-- Settles O5: the idle branch of `writeCtrl`. -/
theorem idleCtrlWriteStoresTheModeBits : Obligations.IdleCtrlWriteStoresTheModeBits := by
  intro s v hb
  refine ⟨_, hostAct_regWrite (r := .ctrl) (by decide) v s, ?_, ?_⟩
  · show (writeReg .ctrl v s).ctrl.word = _
    rw [writeReg, writeCtrl_idle hb, ctrlWord_ofWord]
  · rw [writeReg, writeCtrl_idle hb]

/-! ### Accesses to the buffers (R95, R106) -/

theorem hostAct_bufRead_of_lt {sp : Space} {a : Nat} {s : State} (h : a < s.spaceSize sp) :
    hostAct (.bufRead sp a) s = .next { s with reads := (s.byteAt sp a).zeroExtend 32 :: s.reads } := if_pos h

theorem hostAct_bufRead_of_le {sp : Space} {a : Nat} {s : State} (h : s.spaceSize sp ≤ a) :
    hostAct (.bufRead sp a) s =
      .next { s with reads := 0 :: s.reads, hostFault := { s.hostFault with badAddr := true } } := if_neg h.not_gt

theorem hostAct_bufWrite_of_lt {sp : Space} {a : Nat} {s : State} (h : a < s.spaceSize sp) (v : Byte) :
    hostAct (.bufWrite sp a v) s =
      .next (if s.status.busy then markHazard (s.putByte sp a v) else s.putByte sp a v) := if_pos h

theorem hostAct_bufWrite_of_le {sp : Space} {a : Nat} {s : State} (h : s.spaceSize sp ≤ a) (v : Byte) :
    hostAct (.bufWrite sp a v) s = .next { s with hostFault := { s.hostFault with badAddr := true } } := if_neg h.not_gt

/-- Beside the buffers a byte written leaves everything. -/
theorem putByte_withHostFault_frame (s : State) (sp : Space) (a : Nat) (v : Byte) (f : HostFault) :
    { s.putByte sp a v with hostFault := f } =
      { s with ibuf := (s.putByte sp a v).ibuf, obuf := (s.putByte sp a v).obuf, hostFault := f } := by cases sp <;> rfl

theorem byteAt_putByte_of_ne (s : State) {sp sp' : Space} {a a' : Nat} (v : Byte) (h : ¬(sp' = sp ∧ a' = a)) :
    (s.putByte sp a v).byteAt sp' a' = s.byteAt sp' a' := by
  by_cases hsp : sp' = sp
  · subst hsp
    exact byteAt_putByte_otherAddr s sp' a a' v fun ha => h ⟨rfl, ha⟩
  · exact byteAt_putByte_otherSpace s sp sp' a a' v hsp

/-- Settles O10: inside the buffer by the laws of `putByte`, outside by the two marks. -/
theorem bufferAccessFollowsTheHostContract : Obligations.BufferAccessFollowsTheHostContract := by
  intro s sp a v
  refine ⟨fun hlt => ⟨hostAct_bufRead_of_lt hlt, _, hostAct_bufWrite_of_lt hlt v, ?_⟩,
    fun hle => ⟨hostAct_bufRead_of_le hle, hostAct_bufWrite_of_le hle v⟩⟩
  have hsame := byteAt_putByte_same s sp a v
  have hother : ∀ sp' a', ¬(sp' = sp ∧ a' = a) → (s.putByte sp a v).byteAt sp' a' = s.byteAt sp' a' :=
    fun sp' a' h => byteAt_putByte_of_ne s v h
  cases hb : s.status.busy with
  | true =>
    refine ⟨hsame, hother, ?_⟩
    have hframe := putByte_withHostFault_frame s sp a v { s.hostFault with hazard := true }
    cases sp <;> exact hframe
  | false =>
    refine ⟨hsame, hother, ?_⟩
    have hframe := putByte_withHostFault_frame s sp a v s.hostFault
    cases sp <;> exact hframe

end Sys2Proof.Machine
end

section
/-!
The elements of a block as instructions (spec/41_block_decode.md R181 to R187), and which instruction a step runs (spec/20_memory.md R100,
R104; R180, R330).
-/

open Sys2Proof.Claims

namespace Sys2Proof.Machine

/-! ### Nibbles and offsets as numbers (R121, R125) -/

theorem toNat_literalNibble (t : Byte) : (Decode.literalNibble t).toNat = t.toNat / 16 := by
  have ht := t.isLt
  rw [Decode.literalNibble, BitVec.extractLsb'_toNat, Nat.shiftRight_eq_div_pow]
  omega

theorem toNat_matchNibble (t : Byte) : (Decode.matchNibble t).toNat = t.toNat % 16 := by
  rw [Decode.matchNibble, BitVec.extractLsb'_toNat, Nat.shiftRight_zero]

theorem nibble_eq_esc_iff (x : BitVec 4) : x = 15 ↔ x.toNat = 15 := BitVec.toNat_inj (y := 15#4) |>.symm

theorem zeroExtend_literalNibble (t : Byte) :
    (Decode.literalNibble t).zeroExtend 32 = BitVec.ofNat 32 (t.toNat / 16) := by
  rw [← toNat_literalNibble]
  exact (BitVec.ofNat_toNat 32 _).symm

theorem zeroExtend_matchNibble (t : Byte) :
    (Decode.matchNibble t).zeroExtend 32 = BitVec.ofNat 32 (t.toNat % 16) := by
  rw [← toNat_matchNibble]
  exact (BitVec.ofNat_toNat 32 _).symm

theorem zeroExtend_offsetLow (o : BitVec 16) :
    (Decode.offsetLow o).zeroExtend 16 = BitVec.ofNat 16 (o.toNat % 256) := by
  refine BitVec.eq_of_toNat_eq ?_
  rw [BitVec.toNat_setWidth, Decode.offsetLow, BitVec.extractLsb'_toNat, Nat.shiftRight_zero, BitVec.toNat_ofNat]

/-! ### TOKEN, LEXT and MEXT (R181, R182, R187) -/

theorem tokenTaken_eq (t : Byte) (s : State) :
    tokenTaken t s = { s with
      inPos := s.inPos + 1, dToken := t, dCount := BitVec.ofNat 32 (t.toNat / 16),
      status := { s.status with state := if t.toNat / 16 = 15 then .lext else .litchk } } := by
  simp only [tokenTaken, zeroExtend_literalNibble, nibble_eq_esc_iff, toNat_literalNibble]

theorem raiseError_truncated (s : State) : raiseError .truncated s = { s with status := errorStatus s .truncated } :=
  raiseError_eq_errorStatus (by decide) s

/-- Settles O21. -/
theorem tokenTakesTheLiteralNibble : Obligations.TokenTakesTheLiteralNibble := by
  refine fun s t => ⟨fun hend => ?_, fun hne => ?_⟩
  · exact (execToken_of_end hend t).trans (congrArg _ (raiseError_truncated s))
  · exact (execToken_of_ne hne t).trans (congrArg _ (tokenTaken_eq t s))

/-- Settles O22: both elements are the one extension step, with the state after their run. -/
theorem extensionByteAddsAndContinues : Obligations.ExtensionByteAddsAndContinues := by
  refine fun s e => ⟨fun hend => ⟨?_, ?_⟩, fun hne => ⟨?_, ?_⟩⟩
  · exact (extensionStep_of_end hend e .litchk).trans (congrArg _ (raiseError_truncated s))
  · exact (extensionStep_of_end hend e .mchk).trans (congrArg _ (raiseError_truncated s))
  · exact extensionStep_of_ne hne e .litchk
  · exact extensionStep_of_ne hne e .mchk

/-! ### LITERAL (R184) -/

theorem execLiteral_of_le {s : State} (h : s.params.obufSize ≤ s.outAddr) (b : Byte) :
    execLiteral b s = .fault (.engineAddress .obuf s.outAddr) := if_neg (Nat.not_lt.mpr h)

/-- Settles O23: a byte appended, or an address that OBUF does not have. -/
theorem literalStoresOneByte : Obligations.LiteralStoresOneByte := by
  refine fun s b => ⟨fun hlt => ⟨_, execLiteral_eq hlt b, ?_, fun a ha => ?_, rfl⟩, fun hle => execLiteral_of_le hle b⟩
  · exact byteAt_byteAppended_same b .off0 (advanceInput s)
  · exact byteAt_byteAppended_other b .off0 (advanceInput s) ha

/-! ### OFFSET (R125, R185, R186) -/

theorem offsetRead_eq (o : BitVec 16) (s : State) :
    offsetRead o s = { s with
      inPos := s.inPos + 2, dOffset := o, dCount := BitVec.ofNat 32 (s.dToken.toNat % 16),
      status := { s.status with state := if s.dToken.toNat % 16 = 15 then .mext else .mchk } } := by
  simp only [offsetRead, zeroExtend_matchNibble, nibble_eq_esc_iff, toNat_matchNibble]

/-- Settles O24: the end of the block, an input that ends inside the offset, and both its bytes. -/
theorem offsetIsReadLittleEndian : Obligations.OffsetIsReadLittleEndian := by
  intro s o hb
  have hsecond : s.inPos ≠ s.inLen → exec (.offset o) s =
      offsetHighStep (Decode.offsetHigh o) (offsetLowTaken (Decode.offsetLow o) s) := fun hne => by
    rw [exec, execOffset, offsetLowStep_of_ne hne, andThen_busy (s := offsetLowTaken _ s) hb]
  refine ⟨fun hend => ?_, fun hne hlast => ?_, fun hne hmore => ?_⟩
  · rw [exec, execOffset, offsetLowStep_of_end hend, andThen_idle (s := finish s) rfl, finish_eq_doneStatus]
  · rw [hsecond hne, offsetHighStep_of_end (s := offsetLowTaken _ s) hlast, raiseError_truncated, offsetLowTaken,
      zeroExtend_offsetLow]
    rfl
  · rw [hsecond hne, offsetHighStep_of_ne (s := offsetLowTaken _ s) hmore, offsetHighTaken_offsetLowTaken, offsetRead_eq]

/-! ### Engine turns at the end of the input, and at an address that IBUF does not have -/

theorem elementTurn_of_le {atEnd : State → Result} {element : Byte → State → Result} {s : State}
    (h : s.inPos ≠ s.inLen) (hin : s.params.ibufSize ≤ s.inAddr) :
    elementTurn atEnd element s = .fault (.engineAddress .ibuf s.inAddr) :=
  (if_neg h).trans (if_neg (Nat.not_lt.mpr hin))

/-- Settles O59: the turns of `Turn` at OFF0 and OFF1 and at the end of the input, and the fault of an element turn. -/
theorem offsetStepsAndInputEndOfTheEngine : Obligations.OffsetStepsAndInputEndOfTheEngine := by
  intro s hb addr b
  refine ⟨fun hst hne hin => ?_, fun hst hne hin => ?_, fun hst hend => ?_, fun hst hend => ?_, fun hst hne hin => ?_⟩
  · have hlow : b.zeroExtend 16 = BitVec.ofNat 16 b.toNat := (BitVec.ofNat_toNat 16 b).symm
    rw [engineStep_of_turn hb (.offsetLow hst hne hin), offsetLowTaken, ← hlow]
    rfl
  · rw [engineStep_of_turn hb (.offsetHigh hst hne hin)]
    simp only [offsetHighTaken, zeroExtend_matchNibble, nibble_eq_esc_iff, toNat_matchNibble]
    rfl
  · rw [engineStep_of_turn hb (.truncated hst hend), raiseError_truncated]
  · rw [engineStep_of_turn hb (.endOfBlock hst hend), finish_eq_doneStatus]
  · simp only [List.mem_cons, List.not_mem_nil, or_false] at hst
    obtain hst | hst | hst | hst | hst := hst
    · rw [engineStep_token hb hst]; exact elementTurn_of_le hne hin
    · rw [engineStep_lext hb hst]; exact elementTurn_of_le hne hin
    · rw [engineStep_off0 hb hst]; exact elementTurn_of_le hne hin
    · rw [engineStep_off1 hb hst]; exact elementTurn_of_le hne hin
    · rw [engineStep_mext hb hst]; exact elementTurn_of_le hne hin

/-! ### The event a step takes (R100) -/

theorem step_cons {s : State} {e : Event} {rest : List Event} (h : s.schedule = e :: rest) :
    step s = runEvent e rest s := by
  unfold step
  rw [h]

theorem step_host {s : State} {a : HostAction} {rest : List Event} (ha : a ≠ .wait) (h : s.schedule = .host a :: rest) :
    step s = hostAct a { s with schedule := rest } := by
  rw [step_cons h]
  cases a with
  | wait => exact absurd rfl ha
  | _ => rfl

theorem step_wait_busy {s : State} {rest : List Event} (hb : s.status.busy = true) (h : s.schedule = .host .wait :: rest) :
    step s = engineStep s := (step_cons h).trans (if_pos hb)

theorem step_wait_idle {s : State} {rest : List Event} (hb : s.status.busy = false) (h : s.schedule = .host .wait :: rest) :
    step s = .next { s with schedule := rest } := (step_cons h).trans (if_neg (by simp [hb]))

theorem step_engine {s : State} {rest : List Event} (h : s.schedule = .engine :: rest) :
    step s = engineStep { s with schedule := rest } := step_cons h

theorem step_fused {s : State} {rest : List Event} (h : s.schedule = .fused :: rest) :
    step s = fusedStep { s with schedule := rest } := step_cons h

theorem fusedStep_idle {s : State} (hb : s.status.busy = false) : fusedStep s = .next s := if_neg (by simp [hb])

/-- Settles O33: an idle engine's turn, fused turn and WAIT pass. -/
theorem idleMachineWaits : Obligations.IdleMachineWaits := by
  refine fun s rest => ⟨fun hb hs => ?_, fun hb e he hs => ?_, fun hb hs => step_wait_busy hb hs⟩
  · rw [step_of_empty hs, engineStep_idle hb]
  · simp only [List.mem_cons, List.not_mem_nil, or_false] at he
    obtain rfl | rfl | rfl := he
    · rw [step_engine hs, engineStep_idle (s := { s with schedule := rest }) hb]
    · rw [step_fused hs, fusedStep_idle (s := { s with schedule := rest }) hb]
    · exact step_wait_idle hb hs

/-! ### The instruction a step runs (R104, R180, R330) -/

/-- The one-byte elements, by the engine state that reads them. -/
abbrev elementSlots : List (EngState × Slot) := [(.token, .token), (.lext, .lext), (.lit, .literal), (.mext, .mext)]

/-- R104: an engine turn at a one-byte element runs the element its byte decodes to. -/
theorem engineStep_element {s : State} {slot : Slot} {i : Instr} {left : List Byte}
    (hslot : (s.status.state, slot) ∈ elementSlots) (hb : s.status.busy = true)
    (hne : s.inPos ≠ s.inLen ∨ s.status.state = .lit) (hin : s.inAddr < s.params.ibufSize)
    (hdec : decode slot [s.byteAt .ibuf s.inAddr] = .ok (i, left)) : engineStep s = exec i s := by
  simp only [List.mem_cons, Prod.mk.injEq, List.not_mem_nil, or_false] at hslot
  obtain ⟨hst, rfl⟩ | ⟨hst, rfl⟩ | ⟨hst, rfl⟩ | ⟨hst, rfl⟩ := hslot <;> cases hdec
  · have hne := hne.resolve_right (by simp [hst])
    rw [engineStep_token hb hst, elementTurn_of_ne hne hin]; rfl
  · have hne := hne.resolve_right (by simp [hst])
    rw [engineStep_lext hb hst, elementTurn_of_ne hne hin]; rfl
  · rw [engineStep_lit hb hst, fetchInput, engineRead_of_lt (sp := .ibuf) hin]; rfl
  · have hne := hne.resolve_right (by simp [hst])
    rw [engineStep_mext hb hst, elementTurn_of_ne hne hin]; rfl

/-- The places of a whole element, by the engine state that a fused turn takes one in. -/
abbrev wholeSlots : List (EngState × Slot) := [(.token, .sequence), (.off0, .offset)]

theorem fusedSlot_of_mem {st : EngState} {slot : Slot} (h : (st, slot) ∈ wholeSlots) : fusedSlot st = some slot := by
  simp only [List.mem_cons, Prod.mk.injEq, List.not_mem_nil, or_false] at h
  obtain ⟨rfl, rfl⟩ | ⟨rfl, rfl⟩ := h <;> rfl

theorem fusedInstr_of_slot {s : State} {slot : Slot} (h : fusedSlot s.status.state = some slot) :
    fusedInstr s = if s.inputFits then decodedInstr (decode slot s.inputLeft) else none := by
  rw [fusedInstr, h]

/-- R330: a fused turn runs the whole element it decodes. -/
theorem fusedStep_of_decode {s : State} {slot : Slot} {i : Instr} {left : List Byte}
    (hslot : (s.status.state, slot) ∈ wholeSlots) (hb : s.status.busy = true) (hin : s.inputFits)
    (hdec : decode slot s.inputLeft = .ok (i, left)) : fusedStep s = exec i s := by
  have hf : fusedInstr s = some i := by rw [fusedInstr_of_slot (fusedSlot_of_mem hslot), if_pos hin, hdec]; rfl
  simp only [fusedStep, hb, hf, if_true]

theorem fusedStep_of_none {s : State} (h : fusedInstr s = none) : fusedStep s = engineStep s := by
  simp only [fusedStep, engineStep, h]

theorem fusedSlot_eq_none {st : EngState} (ht : st ≠ .token) (ho : st ≠ .off0) : fusedSlot st = none := by
  cases st with
  | token => exact absurd rfl ht
  | off0 => exact absurd rfl ho
  | _ => rfl

/-- Settles O32: the element of an engine turn, the whole element of a fused turn, the command of a write to CMD, and the events
by themselves. -/
theorem stepRunsTheDecodedInstruction : Obligations.StepRunsTheDecodedInstruction := by
  refine ⟨?_, ?_, ?_, fun s a rest => step_host, fun s rest => step_engine, fun s => step_of_empty, ?_, ?_⟩
  · intro s st slot i left hslot hb hst hne hin hdec
    subst hst
    refine ⟨fun hs => ?_, fun rest hs => ?_⟩
    · rw [step_of_empty hs]
      exact engineStep_element hslot hb hne hin hdec
    · rw [step_engine hs]
      exact engineStep_element (s := { s with schedule := rest }) hslot hb hne hin hdec
  · intro s st slot i left rest hslot hb hst hin hs hdec
    subst hst
    rw [step_fused hs]
    exact fusedStep_of_decode (s := { s with schedule := rest }) hslot hb hin hdec
  · intro s v i rest hs hdec
    rw [step_host (a := .regWrite 0x08 4 v) nofun hs]
    exact (hostAct_cmdWrite v _).trans (commandWrite_of_ok hdec _)
  · intro s rest ht ho hs
    rw [step_fused hs]
    refine fusedStep_of_none ?_
    rw [fusedInstr]
    rw [show fusedSlot ({ s with schedule := rest } : State).status.state = none from fusedSlot_eq_none ht ho]
  · intro s st slot e rest hslot hst hs hnone
    subst hst
    rw [step_fused hs]
    refine fusedStep_of_none ?_
    rw [fusedInstr_of_slot (s := { s with schedule := rest }) (fusedSlot_of_mem hslot)]
    obtain hout | hdec := hnone
    · exact if_neg (Nat.not_le.mpr hout)
    · have hdec' : decode slot ({ s with schedule := rest } : State).inputLeft = .error e := hdec
      rw [hdec']
      split <;> rfl

end Sys2Proof.Machine
end

section
/-!
The commands that start the engine (spec/40_commands.md R153 to R158, R161), and everything a host action can do (R94, R95, R106, R150).
-/

open Sys2Proof.Claims

namespace Sys2Proof.Machine

/-! ### DEC_START, RAW_COPY and HASH_UPDATE -/

/-- The machine once a decode or a raw copy has been accepted. -/
def engineStarted (op : BitVec 8) (st : EngState) (win : Word) (s : State) : State :=
  { s with inPos := 0, outLen := 0, dToken := 0, dCount := 0, dOffset := 0, winEff := win, status := runningStatus s op st }

theorem exec_decStart_of_cfg {s : State} (hb : s.status.busy = false) (hcfg : s.cfgDec) :
    exec .decStart s = .next (engineStarted 0x01 .token (if s.ctrl.linked then s.winLen else 0) s) :=
  (acceptCommand_idle hb).trans (congrArg _ (if_pos (c := (prologue 0x01 s).cfgDec) hcfg))

theorem exec_decStart_of_not_cfg {s : State} (hb : s.status.busy = false) (hcfg : ¬s.cfgDec) :
    exec .decStart s = .next { s with status := configErrorStatus s 0x01 } :=
  (acceptCommand_idle hb).trans (congrArg _ (if_neg (c := (prologue 0x01 s).cfgDec) hcfg))

theorem exec_rawCopy_of_cfg {s : State} (hb : s.status.busy = false) (hcfg : s.cfgRaw) :
    exec .rawCopy s = .next (engineStarted 0x02 .raw 0 s) :=
  (acceptCommand_idle hb).trans (congrArg _ (if_pos (c := (prologue 0x02 s).cfgRaw) hcfg))

theorem exec_rawCopy_of_not_cfg {s : State} (hb : s.status.busy = false) (hcfg : ¬s.cfgRaw) :
    exec .rawCopy s = .next { s with status := configErrorStatus s 0x02 } :=
  (acceptCommand_idle hb).trans (congrArg _ (if_neg (c := (prologue 0x02 s).cfgRaw) hcfg))

/-- The machine once HASH_UPDATE has been accepted, with the STATUS it then has. -/
def hashStarted (st : Status) (s : State) : State :=
  { s.setHash s.activeCtx { s.hash s.activeCtx with pos := 0 } with status := st }

theorem exec_hashUpdate_of_cfg {s : State} (hb : s.status.busy = false) (hcfg : s.cfgHash) :
    exec .hashUpdate s = .next (hashStarted
      (if (s.hash s.activeCtx).len = 0 then endedStatus s 0x11 else runningStatus s 0x11 .habs) s) := by
  refine (acceptCommand_idle hb).trans (congrArg _ ((if_pos (c := (prologue 0x11 s).cfgHash) hcfg).trans ?_))
  rw [prologue_hash, prologue_activeCtx]
  unfold hashStarted
  by_cases hlen : (s.hash s.activeCtx).len = 0
  · simp only [if_pos hlen]
    cases s.activeCtx <;> rfl
  · simp only [if_neg hlen]
    cases s.activeCtx <;> rfl

theorem exec_hashUpdate_of_not_cfg {s : State} (hb : s.status.busy = false) (hcfg : ¬s.cfgHash) :
    exec .hashUpdate s = .next { s with status := configErrorStatus s 0x11 } :=
  (acceptCommand_idle hb).trans (congrArg _ (if_neg (c := (prologue 0x11 s).cfgHash) hcfg))

/-- Settles O13. -/
theorem decStartStartsTheDecoderOrFailsConfig : Obligations.DecStartStartsTheDecoderOrFailsConfig :=
  fun _ hb => ⟨exec_decStart_of_cfg hb, exec_decStart_of_not_cfg hb⟩

/-- Settles O14. -/
theorem rawCopyStartsTheCopyOrFailsConfig : Obligations.RawCopyStartsTheCopyOrFailsConfig :=
  fun _ hb => ⟨exec_rawCopy_of_cfg hb, exec_rawCopy_of_not_cfg hb⟩

theorem spaceSize_hashSpace (s : State) :
    s.spaceSize s.hashSpace = if s.ctrl.hsrc then s.params.obufSize else s.params.ibufSize := by
  unfold State.hashSpace
  split <;> rfl

theorem cfgHash_iff (s : State) :
    s.cfgHash ↔ (s.hash (ctxOf s)).addr.toNat + (s.hash (ctxOf s)).len.toNat ≤
      if s.ctrl.hsrc then s.params.obufSize else s.params.ibufSize := by
  rw [ctxOf_eq_activeCtx, ← spaceSize_hashSpace]

/-- Settles O16: the active context's H_POS is set, and the rest is the frame of `setHash`. -/
theorem hashUpdateStartsEndsAtOnceOrFailsConfig : Obligations.HashUpdateStartsEndsAtOnceOrFailsConfig := by
  intro s hb h cfg
  refine ⟨fun hcfg => ?_, fun hcfg => exec_hashUpdate_of_not_cfg hb fun hc => hcfg ((cfgHash_iff s).mp hc)⟩
  refine ⟨_, exec_hashUpdate_of_cfg hb ((cfgHash_iff s).mpr hcfg), setHash_hash_same s _ _,
    fun c hc => setHash_hash_other s _ c _ hc, setHash_withStatus_frame s _ _ _⟩

/-! ### A command that is accepted -/

/-- The action of each command but SOFT_RESET, after its prologue (R153). -/
def commandAction : Instr → State → State
  | .ack => clearReject
  | .decStart => decStartAction
  | .rawCopy => rawCopyAction
  | .hashInit => hashInitAction
  | .hashUpdate => hashUpdateAction
  | .hashDigest => hashDigestAction
  | _ => id

theorem exec_command {i : Instr} {op : Byte} (hi : i.opcode = some op) (hne : i ≠ .softReset) (s : State) :
    exec i s = acceptCommand op (commandAction i) s := by
  cases i with
  | ack | decStart | rawCopy | hashInit | hashUpdate | hashDigest => cases hi; rfl
  | softReset => exact absurd rfl hne
  | _ => nomatch hi

/-! ### Everything a host action can do -/

/-- What a host action other than WAIT can do to the machine: one constructor for each of its outcomes. -/
inductive HostTurn (a : HostAction) (s : State) : State → Prop
  | ignored : HostTurn a s s
  | read (v : Word) : HostTurn a s (recordRead v s)
  | badRegRead : HostTurn a s (recordRead 0 (markBadAccess s))
  | badRegWrite : HostTurn a s (markBadAccess s)
  | badBufRead : HostTurn a s (recordRead 0 (markBadAddr s))
  | badBufWrite : HostTurn a s (markBadAddr s)
  | bufWrite (sp : Space) (x : Nat) (v : Byte) (hx : x < s.spaceSize sp) (hb : s.status.busy = false) :
    HostTurn a s (s.putByte sp x v)
  | hazard (sp : Space) (x : Nat) (v : Byte) (hx : x < s.spaceSize sp) (hb : s.status.busy = true) :
    HostTurn a s (markHazard (s.putByte sp x v))
  | ctrl (v : Word) : HostTurn a s (writeCtrl v s)
  | store (r : Reg) (v : Word) (hr : r ∈ configRegs) (hb : s.status.busy = false) : HostTurn a s (storeConfig r v s)
  | rejected : HostTurn a s (reject s)
  | command (i : Instr) (v : Word) (ha : a = .regWrite 0x08 4 v) (hi : i.opcode = some (v.extractLsb' 0 8))
    (hne : i ≠ .softReset) (hb : s.status.busy = false) : HostTurn a s (commandAction i (prologue (v.extractLsb' 0 8) s))
  | reset (v : Word) (ha : a = .regWrite 0x08 4 v) (hv : v.extractLsb' 0 8 = 0xFF#8) : HostTurn a s (softReset s)

/-- Every register is CTRL, CMD, a configuration register or read-only. -/
theorem reg_cases (r : Reg) : r = .ctrl ∨ r = .cmd ∨ r ∈ configRegs ∨ r ∈ readOnlyRegs := by
  cases r with
  | hSeed c | hAddr c | hLen c | hPos c | hTotal c | hDigest c | hHdrchk c | hBufcnt c | hV1 c | hV2 c | hV3 c | hV4 c =>
    cases c <;> decide
  | _ => decide

theorem hostTurn_regWrite {r : Reg} {v : Word} {s t : State}
    (h : hostAct (.regWrite r.offset 4 v) s = .next t) : HostTurn (.regWrite r.offset 4 v) s t := by
  by_cases hcmd : r = .cmd
  · subst hcmd
    rw [hostAct_cmdWrite] at h
    cases hdec : Decode.command v with
    | error e =>
      rw [commandWrite_of_error hdec] at h
      cases h
      exact .rejected
    | ok i =>
      rw [commandWrite_of_ok hdec] at h
      have hi : i.opcode = some (v.extractLsb' 0 8) := opcode_of_command hdec
      by_cases hsoft : i = .softReset
      · subst hsoft
        cases h
        exact .reset v rfl (Option.some.inj hi).symm
      · rw [exec_command hi hsoft] at h
        obtain ⟨-, rfl⟩ | ⟨hb, rfl⟩ := acceptCommand_next h
        · exact .rejected
        · exact .command i v rfl hi hsoft hb
  · rw [hostAct_regWrite hcmd] at h
    cases h
    obtain rfl | rfl | hr | hr := reg_cases r
    · exact .ctrl v
    · exact absurd rfl hcmd
    · cases hb : s.status.busy with
      | true => rw [writeReg_config_busy hr hb]; exact .rejected
      | false => rw [writeReg_config_idle hr hb]; exact .store r v hr hb
    · rw [writeReg_readOnly hr]; exact .ignored

/-- What a host action does is one of its outcomes. -/
theorem hostTurn_of_hostAct {a : HostAction} {s t : State} (h : hostAct a s = .next t) : HostTurn a s t := by
  cases a with
  | regRead off width =>
    by_cases hgood : goodAccess off width
    · rw [hostAct_regRead_good hgood] at h; cases h; exact .read _
    · rw [hostAct_regRead_bad hgood] at h; cases h; exact .badRegRead
  | regWrite off width v =>
    by_cases hgood : goodAccess off width
    · obtain ⟨rfl, -⟩ := id hgood
      cases hr : Reg.ofOffset off with
      | none => rw [hostAct_regWrite_none hr hgood] at h; cases h; exact .ignored
      | some r =>
        obtain rfl := offset_of_ofOffset hr
        exact hostTurn_regWrite h
    · rw [hostAct_regWrite_bad hgood] at h; cases h; exact .badRegWrite
  | bufRead sp x =>
    by_cases hx : x < s.spaceSize sp
    · rw [hostAct_bufRead_of_lt hx] at h; cases h; exact .read _
    · rw [hostAct_bufRead_of_le (Nat.le_of_not_lt hx)] at h; cases h; exact .badBufRead
  | bufWrite sp x v =>
    by_cases hx : x < s.spaceSize sp
    · rw [hostAct_bufWrite_of_lt hx] at h
      cases hb : s.status.busy with
      | true => rw [hb] at h; cases h; exact .hazard sp x v hx hb
      | false => rw [hb] at h; cases h; exact .bufWrite sp x v hx hb
    · rw [hostAct_bufWrite_of_le (Nat.le_of_not_lt hx)] at h; cases h; exact .badBufWrite
  | wait => cases h; exact .ignored

/-- A command never faults. -/
theorem exec_command_total {i : Instr} {op : Byte} (hi : i.opcode = some op) (s : State) : ∃ t, exec i s = .next t := by
  by_cases hsoft : i = .softReset
  · subst hsoft; exact ⟨_, rfl⟩
  · rw [exec_command hi hsoft]
    cases hb : s.status.busy with
    | true => exact ⟨_, acceptCommand_busy hb⟩
    | false => exact ⟨_, acceptCommand_idle hb⟩

/-- A host action never faults. -/
theorem hostAct_total (a : HostAction) (s : State) : ∃ t, hostAct a s = .next t := by
  cases a with
  | regRead off width =>
    by_cases hgood : goodAccess off width
    · exact ⟨_, hostAct_regRead_good hgood s⟩
    · exact ⟨_, hostAct_regRead_bad hgood s⟩
  | regWrite off width v =>
    by_cases hgood : goodAccess off width
    · obtain ⟨rfl, -⟩ := id hgood
      cases hr : Reg.ofOffset off with
      | none => exact ⟨_, hostAct_regWrite_none hr hgood v s⟩
      | some r =>
        obtain rfl := offset_of_ofOffset hr
        by_cases hcmd : r = .cmd
        · subst hcmd
          rw [hostAct_cmdWrite]
          cases hdec : Decode.command v with
          | error e => exact ⟨_, commandWrite_of_error hdec s⟩
          | ok i =>
            obtain ⟨t, ht⟩ := exec_command_total (opcode_of_command hdec) s
            exact ⟨t, (commandWrite_of_ok hdec s).trans ht⟩
        · exact ⟨_, hostAct_regWrite hcmd v s⟩
    · exact ⟨_, hostAct_regWrite_bad hgood v s⟩
  | bufRead sp x =>
    by_cases hx : x < s.spaceSize sp
    · exact ⟨_, hostAct_bufRead_of_lt hx⟩
    · exact ⟨_, hostAct_bufRead_of_le (Nat.le_of_not_lt hx)⟩
  | bufWrite sp x v =>
    by_cases hx : x < s.spaceSize sp
    · exact ⟨_, hostAct_bufWrite_of_lt hx v⟩
    · exact ⟨_, hostAct_bufWrite_of_le (Nat.le_of_not_lt hx) v⟩
  | wait => exact ⟨s, rfl⟩

/-! ### Everything a step can do -/

/-- A step is a turn of the engine, a fused turn, a host action, or an idle WAIT that passes; beside that it only takes the event off
the schedule. -/
inductive StepTurn (s t : State) : Prop
  | engine (es : List Event) (h : engineStep { s with schedule := es } = .next t)
  | fused (es : List Event) (h : fusedStep { s with schedule := es } = .next t)
  | host (a : HostAction) (rest : List Event) (hs : s.schedule = .host a :: rest)
    (h : HostTurn a { s with schedule := rest } t)

theorem stepTurn_of_step {s t : State} (h : step s = .next t) : StepTurn s t := by
  cases hs : s.schedule with
  | nil =>
    rw [step_of_empty hs] at h
    exact .engine s.schedule h
  | cons e rest =>
    match e with
    | .engine => exact .engine rest ((step_engine hs).symm.trans h)
    | .fused => exact .fused rest ((step_fused hs).symm.trans h)
    | .host a =>
      by_cases ha : a = .wait
      · subst ha
        cases hb : s.status.busy with
        | true =>
          rw [step_wait_busy hb hs] at h
          exact .engine s.schedule h
        | false =>
          rw [step_wait_idle hb hs] at h
          cases h
          exact .host .wait rest hs .ignored
      · rw [step_host ha hs] at h
        exact .host a rest hs (hostTurn_of_hostAct h)

/-- R90: an engine turn of the schedule, or of an empty one, is a turn of the engine, plain or fused. -/
theorem engineTurn_of_step {s t : State} (hnext : engineTurnNext s) (h : step s = .next t) :
    ∃ es, engineStep { s with schedule := es } = .next t ∨ fusedStep { s with schedule := es } = .next t := by
  obtain hs | ⟨e, he, rest, hs⟩ := hnext
  · rw [step_of_empty hs] at h
    exact ⟨s.schedule, .inl h⟩
  · simp only [engineEvents, List.mem_cons, List.not_mem_nil, or_false] at he
    obtain rfl | rfl := he
    · exact ⟨rest, .inl ((step_engine hs).symm.trans h)⟩
    · exact ⟨rest, .inr ((step_fused hs).symm.trans h)⟩

/-! ### The invariant and the host (R36 to R42, R105) -/

theorem Status.ok_configError (s : State) (op : BitVec 8) : (configErrorStatus s op).ok := by
  unfold Status.ok configErrorStatus
  simp

theorem Status.ok_running (s : State) (op : BitVec 8) {st : EngState} (h : st ≠ .idle) : (runningStatus s op st).ok := by
  unfold Status.ok runningStatus
  simp [h]

theorem Status.ok_ended (s : State) (op : BitVec 8) : (endedStatus s op).ok := by
  unfold Status.ok endedStatus
  simp

/-- Nothing but STATUS and the registers of the hash contexts has changed, and the engine is idle. -/
theorem State.Inv.of_ended {s t : State} (hi : s.Inv) (hp : t.params = s.params) (hib : t.ibuf = s.ibuf)
    (hob : t.obuf = s.obuf) (hst : t.status.ok) (hidle : t.status.state = .idle) : t.Inv := by
  refine .of_idle (hp ▸ hi.params) ?_ hst hidle
  unfold State.memoryOk
  rw [hp, hib, hob]
  exact hi.memory

/-- R155: CFG_DEC is what a decode rests on. -/
theorem decStarted_sound {s : State} (hp : s.params.valid) (hcfg : s.cfgDec) :
    (engineStarted 0x01 .token (if s.ctrl.linked then s.winLen else 0) s).Sound := by
  obtain ⟨hin, hout, hwin⟩ := hcfg
  have hwinEff : (if s.ctrl.linked then s.winLen else 0).toNat ≤ s.outBase.toNat ∧
      (if s.ctrl.linked then s.winLen else 0).toNat ≤ Config.windowMax := by
    obtain hlinked | ⟨hmax, hbase⟩ := hwin
    · simp [hlinked]
    · split
      · exact ⟨hbase, hmax⟩
      · simp
  exact ⟨hp, Status.ok_running s _ nofun,
    fun _ => ⟨⟨hin, hout, hwinEff.1, hwinEff.2, Nat.zero_le _, Nat.zero_le _⟩, rfl⟩, nofun, nofun, nofun, nofun⟩

/-- R156: CFG_RAW is what a raw copy rests on. -/
theorem rawStarted_sound {s : State} (hp : s.params.valid) (hcfg : s.cfgRaw) : (engineStarted 0x02 .raw 0 s).Sound :=
  ⟨hp, Status.ok_running s _ nofun, by unfold engineStarted runningStatus; simp, nofun, nofun,
    fun _ => ⟨⟨hcfg.1, hcfg.2, rfl, .inl rfl⟩, rfl⟩, nofun⟩

theorem hashStarted_frame (st : Status) (s : State) :
    hashStarted st s = { s with h0 := (hashStarted st s).h0, h1 := (hashStarted st s).h1, status := st } :=
  setHash_withStatus_frame s _ _ _

theorem hashStarted_hash (st : Status) (s : State) :
    (hashStarted st s).hash s.activeCtx = { s.hash s.activeCtx with pos := 0 } := setHash_hash_same s _ _

/-- R158: CFG_HASH is what a running HASH_UPDATE rests on. -/
theorem hashStarted_sound {s : State} (hp : s.params.valid) (hcfg : s.cfgHash) (hlen : (s.hash s.activeCtx).len ≠ 0) :
    (hashStarted (runningStatus s 0x11 .habs) s).Sound := by
  obtain ⟨t, ht⟩ : ∃ t, t = hashStarted (runningStatus s 0x11 .habs) s := ⟨_, rfl⟩
  have hframe : t = { s with h0 := t.h0, h1 := t.h1, status := runningStatus s 0x11 .habs } := ht ▸ hashStarted_frame _ s
  have hstatus : t.status = runningStatus s 0x11 .habs := by rw [hframe]
  have hhash : t.hash s.activeCtx = { s.hash s.activeCtx with pos := 0 } := ht ▸ hashStarted_hash _ s
  have hctx : t.activeCtx = s.activeCtx := by rw [hframe]; rfl
  have hspace : t.spaceSize t.hashSpace = s.spaceSize s.hashSpace := by rw [hframe]; rfl
  rw [← ht]
  refine ⟨by rw [hframe]; exact hp, hstatus ▸ Status.ok_running s _ nofun, ?_⟩
  unfold State.engineOk State.hashOk State.cfgHash
  rw [hstatus, hctx, hhash, hspace]
  refine ⟨nofun, nofun, nofun, nofun, fun _ => ⟨⟨hcfg, ?_⟩, rfl⟩⟩
  show 0 < (s.hash s.activeCtx).len.toNat
  bv_omega

/-- R150: a command keeps the invariant, accepted or refused. -/
theorem State.Inv.command {s t : State} (hi : s.Inv) (hb : s.status.busy = false) {i : Instr} {op : Byte}
    (hop : i.opcode = some op) (h : exec i s = .next t) : t.Inv := by
  have hidle := hi.state_idle hb
  have hrefused : ∀ op, ({ s with status := configErrorStatus s op } : State).Inv := fun op =>
    hi.of_ended rfl rfl rfl (Status.ok_configError s op) rfl
  cases i with
  | ack =>
    rw [exec_ack_idle hb] at h
    cases h
    refine hi.of_ended rfl rfl rfl ?_ hidle
    simp only [hidle]
    exact (by decide : Status.reset.ok)
  | decStart =>
    by_cases hcfg : s.cfgDec
    · rw [exec_decStart_of_cfg hb hcfg] at h; cases h; exact (decStarted_sound hi.params hcfg).inv hi.memory
    · rw [exec_decStart_of_not_cfg hb hcfg] at h; cases h; exact hrefused _
  | rawCopy =>
    by_cases hcfg : s.cfgRaw
    · rw [exec_rawCopy_of_cfg hb hcfg] at h; cases h; exact (rawStarted_sound hi.params hcfg).inv hi.memory
    · rw [exec_rawCopy_of_not_cfg hb hcfg] at h; cases h; exact hrefused _
  | hashInit =>
    rw [exec_hashInit_idle hb, finish_setHash_prologue] at h
    cases h
    exact hi.of_ended rfl rfl rfl (Status.ok_ended s _) rfl
  | hashUpdate =>
    by_cases hcfg : s.cfgHash
    · rw [exec_hashUpdate_of_cfg hb hcfg] at h
      cases h
      split
      · rw [hashStarted_frame]
        exact hi.of_ended rfl rfl rfl (Status.ok_ended s _) rfl
      · exact (hashStarted_sound hi.params hcfg ‹_›).inv (by rw [hashStarted_frame]; exact hi.memory)
    · rw [exec_hashUpdate_of_not_cfg hb hcfg] at h; cases h; exact hrefused _
  | hashDigest =>
    rw [exec_hashDigest_idle hb, finish_setHash_prologue] at h
    cases h
    exact hi.of_ended rfl rfl rfl (Status.ok_ended s _) rfl
  | softReset =>
    cases h
    exact hi.of_ended rfl rfl rfl (by decide : Status.reset.ok) rfl
  | _ => nomatch hop

/-- A register stored while idle keeps the invariant, whatever its value. -/
theorem State.Inv.after_storeConfig {s : State} (hi : s.Inv) (hb : s.status.busy = false) (r : Reg) (v : Word) :
    (storeConfig r v s).Inv := by
  obtain ⟨-, hib, hob, -, hp, -, -⟩ := storeConfig_frame r v s
  have hst : (storeConfig r v s).status = s.status := by
    cases r with
    | hSeed c | hAddr c | hLen c => exact setHash_status s _ _
    | _ => rfl
  exact hi.of_ended hp hib hob (hst ▸ hi.status) (hst ▸ hi.state_idle hb)

/-- R33: IRQ_EN, the one field of CTRL a busy write changes, is none the engine works by. -/
theorem State.Inv.after_writeCtrl {s : State} (hi : s.Inv) (v : Word) : (writeCtrl v s).Inv := by
  cases hb : s.status.busy with
  | true => rw [writeCtrl_busy hb]; exact ⟨hi.params, hi.memory, hi.status, hi.engine⟩
  | false =>
    rw [writeCtrl_idle hb]
    exact hi.of_ended rfl rfl rfl hi.status (hi.state_idle hb)

theorem State.Inv.putByte {s : State} (hi : s.Inv) {sp : Space} {x : Nat} (hx : x < s.spaceSize sp) (v : Byte) :
    (s.putByte sp x v).Inv := by
  have hm := State.memoryOk.putByte hi.memory hx v
  cases sp with
  | ibuf => exact ⟨hi.params, hm, hi.status, hi.engine⟩
  | obuf => exact ⟨hi.params, hm, hi.status, hi.engine⟩

/-- The host keeps the invariant, whatever it does. -/
theorem State.Inv.hostTurn {s t : State} {a : HostAction} (hi : s.Inv) (h : HostTurn a s t) : t.Inv := by
  cases h with
  | ignored => exact hi
  | read v => exact ⟨hi.params, hi.memory, hi.status, hi.engine⟩
  | badRegRead => exact ⟨hi.params, hi.memory, hi.status, hi.engine⟩
  | badRegWrite => exact ⟨hi.params, hi.memory, hi.status, hi.engine⟩
  | badBufRead => exact ⟨hi.params, hi.memory, hi.status, hi.engine⟩
  | badBufWrite => exact ⟨hi.params, hi.memory, hi.status, hi.engine⟩
  | bufWrite sp x v hx hb => exact hi.putByte hx v
  | hazard sp x v hx hb =>
    obtain ⟨hp, hm, hst, he⟩ := hi.putByte hx v
    exact ⟨hp, hm, hst, he⟩
  | ctrl v => exact hi.after_writeCtrl v
  | store r v hr hb => exact hi.after_storeConfig hb r v
  | rejected => exact ⟨hi.params, hi.memory, hi.status, hi.engine⟩
  | command i v ha hop hne hb => exact hi.command hb hop ((exec_command hop hne s).trans (acceptCommand_idle hb))
  | reset v ha hv => exact hi.of_ended rfl rfl rfl (by decide : Status.reset.ok) rfl

theorem State.Inv.of_engineStep {s t : State} (hi : s.Inv) (h : engineStep s = .next t) : t.Inv := by
  obtain ⟨u, hu, hinv⟩ := hi.after_engineStep
  rw [h] at hu
  cases hu
  exact hinv

theorem State.Inv.of_fusedStep {s t : State} (hi : s.Inv) (h : fusedStep s = .next t) : t.Inv := by
  cases hb : s.status.busy with
  | true =>
    obtain ⟨u, hu, hgo⟩ := hi.sound.after_fusedStep hb
    rw [h] at hu
    cases hu
    exact hi.reaches hgo.to_reflTransGen
  | false => rw [fusedStep_idle hb] at h; cases h; exact hi

/-- Settles O39: each of the three kinds of step keeps the invariant, which says nothing of the schedule. -/
theorem stepKeepsTheInvariant : Obligations.StepKeepsTheInvariant := by
  intro s t hi h
  cases stepTurn_of_step h with
  | engine es h => exact (hi.withSchedule es).of_engineStep h
  | fused es h => exact (hi.withSchedule es).of_fusedStep h
  | host a rest hs h => exact (hi.withSchedule rest).hostTurn h

/-- Settles O40: the engine has a turn, a fused turn is some of its turns, and a host action never faults. -/
theorem stepNeverFaultsUnderTheInvariant : Obligations.StepNeverFaultsUnderTheInvariant := by
  intro s hi
  have hengine : ∀ es, ∃ t, engineStep { s with schedule := es } = .next t := fun es =>
    (hi.withSchedule es).after_engineStep.imp fun _ h => h.1
  cases hs : s.schedule with
  | nil => rw [step_of_empty hs]; exact hengine s.schedule
  | cons e rest =>
    match e with
    | .engine => rw [step_engine hs]; exact hengine rest
    | .fused =>
      rw [step_fused hs]
      cases hb : s.status.busy with
      | true => exact ((hi.withSchedule rest).sound.after_fusedStep hb).imp fun _ h => h.1
      | false => exact ⟨_, fusedStep_idle hb⟩
    | .host a =>
      by_cases ha : a = .wait
      · subst ha
        cases hb : s.status.busy with
        | true => rw [step_wait_busy hb hs]; exact hengine s.schedule
        | false => exact ⟨_, step_wait_idle hb hs⟩
      · rw [step_host ha hs]; exact hostAct_total a _

end Sys2Proof.Machine
end

section
/-!
What a step leaves unchanged and what it can end or clear (spec/10_state.md R33, R39, R49, R66, R69; spec/20_memory.md R105;
spec/40_commands.md R151, R154, R160; spec/60_exceptions.md R291, R294).
-/

open Sys2Proof.Claims

namespace Sys2Proof.Machine

/-! ### HOSTFAULT and the sizes (R5, R69) -/

/-- No mark of HOSTFAULT is taken away, and the sizes stay. -/
structure MarksKept (s t : State) : Prop where
  hazard : s.hostFault.hazard = true → t.hostFault.hazard = true
  badAccess : s.hostFault.badAccess = true → t.hostFault.badAccess = true
  badAddr : s.hostFault.badAddr = true → t.hostFault.badAddr = true
  params : t.params = s.params

theorem MarksKept.of_eq {s t : State} (hf : t.hostFault = s.hostFault) (hp : t.params = s.params) : MarksKept s t := by
  constructor <;> simp [hf, hp]

theorem commandAction_hostFault (i : Instr) (s : State) :
    (commandAction i s).hostFault = s.hostFault ∧ (commandAction i s).params = s.params := by
  cases i with
  | decStart => simp only [commandAction, decStartAction]; split <;> exact ⟨rfl, rfl⟩
  | rawCopy => simp only [commandAction, rawCopyAction]; split <;> exact ⟨rfl, rfl⟩
  | hashInit => simp [commandAction, hashInitAction]
  | hashUpdate =>
    simp only [commandAction, hashUpdateAction]
    split
    · split <;> simp
    · exact ⟨rfl, rfl⟩
  | hashDigest => simp [commandAction, hashDigestAction]
  | _ => exact ⟨rfl, rfl⟩

theorem HostTurn.marksKept {a : HostAction} {s t : State} (h : HostTurn a s t) : MarksKept s t := by
  cases h with
  | badRegRead => exact ⟨id, fun _ => rfl, id, rfl⟩
  | badRegWrite => exact ⟨id, fun _ => rfl, id, rfl⟩
  | badBufRead => exact ⟨id, id, fun _ => rfl, rfl⟩
  | badBufWrite => exact ⟨id, id, fun _ => rfl, rfl⟩
  | hazard sp x v hx hb => cases sp <;> exact ⟨fun _ => rfl, id, id, rfl⟩
  | bufWrite sp x v hx hb => cases sp <;> exact .of_eq rfl rfl
  | ctrl v => unfold writeCtrl; split <;> exact .of_eq rfl rfl
  | store r v hr hb =>
    obtain ⟨-, -, -, hf, hp, -, -⟩ := storeConfig_frame r v s
    exact .of_eq hf hp
  | command i v ha hop hne hb =>
    obtain ⟨hf, hp⟩ := commandAction_hostFault i (prologue (v.extractLsb' 0 8) s)
    exact .of_eq hf hp
  | _ => exact .of_eq rfl rfl

/-- Settles O41: the engine leaves the marks and the sizes, and the host adds marks only. -/
theorem hostFaultOnlyGrows : Obligations.HostFaultOnlyGrows := by
  intro s t h
  suffices hk : ∃ es, MarksKept { s with schedule := es } t by
    obtain ⟨_, hhaz, hacc, haddr, hp⟩ := hk
    exact ⟨hhaz, hacc, haddr, hp⟩
  cases stepTurn_of_step h with
  | engine es h => exact ⟨es, .of_eq (engineStep_frame h).hostFault (engineStep_frame h).params⟩
  | fused es h => exact ⟨es, .of_eq (fusedStep_frame h).hostFault (fusedStep_frame h).params⟩
  | host a rest hs h => exact ⟨rest, h.marksKept⟩

/-! ### The configuration (R33, R66) -/

/-- Every configuration register has kept its value. -/
abbrev ConfigKept (s t : State) : Prop := ∀ r ∈ configRegs, t.readReg r = s.readReg r

/-- What a hash context is configured with. -/
def HashCtx.config (h : HashCtx) : Word × Word × Word := (h.seed, h.addr, h.len)

theorem ConfigKept.of_fields {s t : State} (hib : t.inBase = s.inBase) (hil : t.inLen = s.inLen)
    (hob : t.outBase = s.outBase) (hms : t.maxSize = s.maxSize) (hwl : t.winLen = s.winLen)
    (hh : ∀ c, (t.hash c).config = (s.hash c).config) : ConfigKept s t := by
  intro r hr
  have hseed : ∀ c, (t.hash c).seed = (s.hash c).seed := fun c => congrArg (·.1) (hh c)
  have haddr : ∀ c, (t.hash c).addr = (s.hash c).addr := fun c => congrArg (·.2.1) (hh c)
  have hlen : ∀ c, (t.hash c).len = (s.hash c).len := fun c => congrArg (·.2.2) (hh c)
  revert r
  simp [configRegs, State.readReg, hib, hil, hob, hms, hwl, hseed, haddr, hlen]

theorem ConfigKept.of_frame {s t : State} (hf : EngineFrame s t) (hh : ∀ c, (t.hash c).config = (s.hash c).config) :
    ConfigKept s t := .of_fields hf.inBase hf.inLen hf.outBase hf.maxSize hf.winLen hh

theorem BlockFrame.hash {s t : State} (h : BlockFrame s t) (c : Ctx) : t.hash c = s.hash c := by
  cases c
  · exact h.h0
  · exact h.h1

theorem BlockFrame.configKept {s t : State} (h : BlockFrame s t) : ConfigKept s t :=
  .of_frame h.toEngineFrame fun c => congrArg HashCtx.config (h.hash c)

/-- A context set to one with the same configuration leaves both configurations. -/
theorem setHash_hash_config {s : State} {c : Ctx} {h : HashCtx} (hc : h.config = (s.hash c).config) (c' : Ctx) :
    ((s.setHash c h).hash c').config = (s.hash c').config := by
  by_cases heq : c' = c
  · rw [heq, setHash_hash_same, hc]
  · rw [setHash_hash_other _ _ _ _ heq]

theorem absorb_config (h : HashCtx) (b : Byte) (pos : Word) :
    HashCtx.config { h.absorb b with pos := pos } = h.config := by simp [HashCtx.config]

theorem habsWith_config (b : Byte) (s : State) (c : Ctx) : ((habsWith b s).hash c).config = (s.hash c).config := by
  rw [habsWith_eq]
  exact setHash_hash_config (absorb_config _ _ _) c

/-- R223: no turn but HABS touches a hash context. -/
theorem Turn.hash_or_habs {s t : State} (h : Turn s t) :
    (t.h0 = s.h0 ∧ t.h1 = s.h1) ∨ ∃ b, t = habsWith b s := by
  cases h with
  | habs hst hin => exact .inr ⟨_, rfl⟩
  | _ => exact .inl ⟨rfl, rfl⟩

theorem Turn.configKept {s t : State} (hb : s.status.busy = true) (h : Turn s t) : ConfigKept s t := by
  obtain ⟨h0, h1⟩ | ⟨b, rfl⟩ := h.hash_or_habs
  · exact BlockFrame.configKept ⟨h.frame hb, h0, h1⟩
  · exact .of_frame (h.frame hb) (habsWith_config b s)

theorem engineStep_configKept {s t : State} (h : engineStep s = .next t) : ConfigKept s t := by
  cases hb : s.status.busy with
  | true => exact (turn_of_engineStep hb h).configKept hb
  | false => rw [engineStep_idle hb] at h; cases h; exact fun _ _ => rfl

theorem fusedStep_configKept {s t : State} (h : fusedStep s = .next t) : ConfigKept s t := by
  cases hf : fusedInstr s with
  | none => exact engineStep_configKept ((fusedStep_of_none hf).symm.trans h)
  | some i =>
    cases hb : s.status.busy with
    | true =>
      simp only [fusedStep, hb, hf, if_true] at h
      exact (exec_frame (fusedInstr_opcode hf) h).configKept
    | false => rw [fusedStep_idle hb] at h; cases h; exact fun _ _ => rfl

/-- Settles O42: the frame of an engine turn, plain or fused. -/
theorem engineTurnLeavesConfigurationAndInput : Obligations.EngineTurnLeavesConfigurationAndInput := by
  intro s t hnext h
  suffices hk : ∃ es, EngineFrame { s with schedule := es } t ∧ ConfigKept { s with schedule := es } t by
    obtain ⟨_, hf, hc⟩ := hk
    exact ⟨hf.ibuf, hf.ctrl, hf.hostFault, hf.reads, hf.params, hc, hf.winEff, hf.rej, hf.lastCmd⟩
  obtain ⟨es, h | h⟩ := engineTurn_of_step hnext h
  · exact ⟨es, engineStep_frame h, engineStep_configKept h⟩
  · exact ⟨es, fusedStep_frame h, fusedStep_configKept h⟩

/-! ### A running command and the host (R33, R66, R151, R160) -/

/-- What the host leaves of a running command. -/
structure RunningKept (s t : State) : Prop where
  busy : t.status.busy = true
  linked : t.ctrl.linked = s.ctrl.linked
  hsrc : t.ctrl.hsrc = s.ctrl.hsrc
  hctx : t.ctrl.hctx = s.ctrl.hctx
  config : ConfigKept s t
  winEff : t.winEff = s.winEff
  lastCmd : t.status.lastCmd = s.status.lastCmd

/-- R151: while a command runs a host action leaves it and its configuration, or is a SOFT_RESET. -/
theorem HostTurn.runningKept {a : HostAction} {s t : State} (hb : s.status.busy = true) (h : HostTurn a s t) :
    RunningKept s t ∨ ∃ v, a = .regWrite 0x08 4 v ∧ v.extractLsb' 0 8 = 0xFF#8 ∧ t = softReset s := by
  have hidle : s.status.busy = false → False := fun h => by rw [hb] at h; cases h
  cases h with
  | bufWrite sp x v hx hb' => exact (hidle hb').elim
  | store r v hr hb' => exact (hidle hb').elim
  | command i v ha hop hne hb' => exact (hidle hb').elim
  | reset v ha hv => exact .inr ⟨v, ha, hv, rfl⟩
  | hazard sp x v hx hb' => cases sp <;> exact .inl ⟨hb, rfl, rfl, rfl, fun _ _ => rfl, rfl, rfl⟩
  | ctrl v =>
    rw [writeCtrl_busy hb]
    exact .inl ⟨hb, rfl, rfl, rfl, .of_fields rfl rfl rfl rfl rfl fun c => by cases c <;> rfl, rfl, rfl⟩
  | _ => exact .inl ⟨hb, rfl, rfl, rfl, .of_fields rfl rfl rfl rfl rfl fun c => by cases c <;> rfl, rfl, rfl⟩

/-- Settles O44: the engine never writes the configuration, and the host's writes to it are rejected while busy. -/
theorem runningCommandKeepsItsConfiguration : Obligations.RunningCommandKeepsItsConfiguration := by
  intro s t hb h hbt
  suffices hk : ∃ es, RunningKept { s with schedule := es } t by
    obtain ⟨_, -, hlinked, hsrc, hctx, hconfig, hwin, hcmd⟩ := hk
    exact ⟨hlinked, hsrc, hctx, hconfig, hwin, hcmd⟩
  have hframe : ∀ es, EngineFrame { s with schedule := es } t → ConfigKept { s with schedule := es } t →
      RunningKept { s with schedule := es } t := fun es hf hc =>
    ⟨hbt, congrArg Ctrl.linked hf.ctrl, congrArg Ctrl.hsrc hf.ctrl, congrArg Ctrl.hctx hf.ctrl, hc, hf.winEff,
      hf.lastCmd⟩
  cases stepTurn_of_step h with
  | engine es h => exact ⟨es, hframe es (engineStep_frame h) (engineStep_configKept h)⟩
  | fused es h => exact ⟨es, hframe es (fusedStep_frame h) (fusedStep_configKept h)⟩
  | host a rest hs h =>
    obtain hk | ⟨v, -, -, rfl⟩ := HostTurn.runningKept (s := { s with schedule := rest }) hb h
    · exact ⟨rest, hk⟩
    · cases hbt

/-- Settles O45: every other host action leaves a running command. -/
theorem onlySoftResetEndsARunningCommand : Obligations.OnlySoftResetEndsARunningCommand := by
  intro s t a rest hb ha hs h hbt
  rw [step_host ha hs] at h
  obtain hk | ⟨v, hv, hop, -⟩ := HostTurn.runningKept (s := { s with schedule := rest }) hb (hostTurn_of_hostAct h)
  · rw [hk.busy] at hbt; cases hbt
  · exact ⟨v, hv, hop⟩

/-! ### REJ (R39) -/

/-- R153, R154: of the commands only ACK clears REJ. -/
theorem commandAction_rej {i : Instr} (hi : i ≠ .ack) (s : State) : (commandAction i s).status.rej = s.status.rej := by
  cases i with
  | ack => exact absurd rfl hi
  | decStart => simp only [commandAction, decStartAction]; split <;> rfl
  | rawCopy => simp only [commandAction, rawCopyAction]; split <;> rfl
  | hashInit => simp [commandAction, hashInitAction]
  | hashUpdate =>
    simp only [commandAction, hashUpdateAction]
    split
    · split <;> simp
    · rfl
  | hashDigest => simp [commandAction, hashDigestAction]
  | _ => rfl

theorem storeConfig_status (r : Reg) (v : Word) (s : State) : (storeConfig r v s).status = s.status := by
  cases r with
  | hSeed c | hAddr c | hLen c => exact setHash_status s _ _
  | _ => rfl

theorem writeCtrl_status (v : Word) (s : State) : (writeCtrl v s).status = s.status := by
  unfold writeCtrl
  split <;> rfl

theorem HostTurn.rej {a : HostAction} {s t : State} (hr : s.status.rej = true) (h : HostTurn a s t) :
    t.status.rej = true ∨
    ∃ v, a = .regWrite 0x08 4 v ∧ (v.extractLsb' 0 8 = 0x00#8 ∨ v.extractLsb' 0 8 = 0xFF#8) := by
  cases h with
  | reset v ha hv => exact .inr ⟨v, ha, .inr hv⟩
  | command i v ha hop hne hb =>
    by_cases hack : i = .ack
    · subst hack
      exact .inr ⟨v, ha, .inl (Option.some.inj hop).symm⟩
    · exact .inl ((commandAction_rej hack _).trans hr)
  | hazard sp x v hx hb => exact .inl ((congrArg Status.rej (putByte_status s sp x v)).trans hr)
  | bufWrite sp x v hx hb => exact .inl ((congrArg Status.rej (putByte_status s sp x v)).trans hr)
  | ctrl v => exact .inl ((congrArg Status.rej (writeCtrl_status v s)).trans hr)
  | store r v hmem hb => exact .inl ((congrArg Status.rej (storeConfig_status r v s)).trans hr)
  | rejected => exact .inl rfl
  | _ => exact .inl hr

/-- Settles O46: the engine leaves REJ, and so does every host action but a write of one of the two commands. -/
theorem onlyAckAndSoftResetClearRej : Obligations.OnlyAckAndSoftResetClearRej := by
  intro s t hr h hrt
  have hkept : t.status.rej = true → False := fun h => by rw [hrt] at h; cases h
  cases stepTurn_of_step h with
  | engine es h => exact (hkept ((engineStep_frame h).rej.trans hr)).elim
  | fused es h => exact (hkept ((fusedStep_frame h).rej.trans hr)).elim
  | host a rest hs h =>
    obtain hrej | ⟨v, rfl, hv⟩ := HostTurn.rej (s := { s with schedule := rest }) hr h
    · exact (hkept hrej).elim
    · exact ⟨v, rest, hs, hv⟩

/-! ### The two hash contexts (R55, R60) -/

/-- What a command other than HASH_DIGEST and SOFT_RESET leaves of the contexts: the one HCTX does not select, and both digests. -/
def ContextsKept (s t : State) : Prop :=
  (∀ c, c ≠ s.activeCtx → t.hash c = s.hash c) ∧ ∀ c, (t.hash c).digest = (s.hash c).digest

theorem ContextsKept.of_hash {s t : State} (h : ∀ c, t.hash c = s.hash c) : ContextsKept s t :=
  ⟨fun c _ => h c, fun c => congrArg HashCtx.digest (h c)⟩

/-- The active context set to one with the same digest. -/
theorem ContextsKept.of_setHash {s t : State} {h : HashCtx} (ht : ∀ c, t.hash c = (s.setHash s.activeCtx h).hash c)
    (hd : h.digest = (s.hash s.activeCtx).digest) : ContextsKept s t := by
  refine ⟨fun c hc => (ht c).trans (setHash_hash_other _ _ _ _ hc), fun c => ?_⟩
  rw [ht c]
  by_cases hc : c = s.activeCtx
  · rw [hc, setHash_hash_same, hd]
  · rw [setHash_hash_other _ _ _ _ hc]

theorem commandAction_contexts {i : Instr} (hi : i ≠ .hashDigest) (s : State) : ContextsKept s (commandAction i s) := by
  cases i with
  | hashDigest => exact absurd rfl hi
  | decStart => simp only [commandAction, decStartAction]; split <;> exact .of_hash fun c => by cases c <;> rfl
  | rawCopy => simp only [commandAction, rawCopyAction]; split <;> exact .of_hash fun c => by cases c <;> rfl
  | hashInit =>
    exact .of_setHash (h := (s.hash s.activeCtx).init (s.hash s.activeCtx).seed) (fun c => finish_hash _ c)
      (by rw [hash_init_eq])
  | hashUpdate =>
    simp only [commandAction, hashUpdateAction]
    split
    · split
      · exact .of_setHash (fun c => finish_hash _ c) rfl
      · exact .of_setHash (fun c => startEngine_hash _ _ c) rfl
    · exact .of_hash fun c => raiseError_hash _ _ c
  | _ => exact .of_hash fun c => by cases c <;> rfl

theorem commandAction_otherContext (i : Instr) (s : State) {c : Ctx} (hc : c ≠ s.activeCtx) :
    (commandAction i s).hash c = s.hash c := by
  by_cases hi : i = .hashDigest
  · subst hi
    exact (finish_hash _ c).trans (setHash_hash_other _ _ _ _ hc)
  · exact (commandAction_contexts hi s).1 c hc

theorem exec_contexts {i : Instr} {s t : State} (hi : i ≠ .softReset) (h : exec i s = .next t) :
    (∀ c, c ≠ s.activeCtx → t.hash c = s.hash c) ∧ (i ≠ .hashDigest → ∀ c, (t.hash c).digest = (s.hash c).digest) := by
  cases hop : i.opcode with
  | none =>
    obtain ⟨hother, hdig⟩ := ContextsKept.of_hash (exec_frame hop h).hash
    exact ⟨hother, fun _ => hdig⟩
  | some op =>
    rw [exec_command hop hi] at h
    obtain ⟨-, rfl⟩ | ⟨-, rfl⟩ := acceptCommand_next h
    · exact ⟨fun c _ => reject_hash s c, fun _ c => congrArg HashCtx.digest (reject_hash s c)⟩
    · refine ⟨fun c hc => commandAction_otherContext i (prologue op s) hc, fun hd => ?_⟩
      exact (commandAction_contexts hd (prologue op s)).2

/-- Settles O47. -/
theorem hashContextsAreIndependent : Obligations.HashContextsAreIndependent :=
  fun _ _ _ hi h => exec_contexts hi h

/-! ### IN_POS (R49, R72, R199) -/

/-- The states that consume an input byte. -/
abbrev consumingStates : List EngState := [.token, .lext, .lit, .off0, .off1, .mext, .raw]

theorem Turn.inPos {s t : State} (h : Turn s t) :
    t.inPos = s.inPos ∨ (t.inPos = s.inPos + 1 ∧ s.status.state ∈ consumingStates) := by
  cases h with
  | token hst hne hin => exact .inr ⟨rfl, by simp [hst]⟩
  | extension last hst hne hin =>
    simp only [List.mem_cons, Prod.mk.injEq, List.not_mem_nil, or_false] at hst
    obtain ⟨hst, -⟩ | ⟨hst, -⟩ := hst <;> exact .inr ⟨rfl, by simp [hst]⟩
  | literal hst hin hout => exact .inr ⟨rfl, by simp [hst]⟩
  | offsetLow hst hne hin => exact .inr ⟨rfl, by simp [hst]⟩
  | offsetHigh hst hne hin => exact .inr ⟨rfl, by simp [hst]⟩
  | rawByte hst hfits hne hin hout => exact .inr ⟨rfl, by simp [hst]⟩
  | habs hst hin => rw [habsWith_eq]; exact .inl (setHash_inPos s _ _)
  | _ => exact .inl rfl

/-- Settles O48. -/
theorem inputCursorAdvancesByAtMostOne : Obligations.InputCursorAdvancesByAtMostOne := by
  intro s t h
  cases hb : s.status.busy with
  | true => exact (turn_of_engineStep hb h).inPos
  | false => rw [engineStep_idle hb] at h; cases h; exact .inl rfl

/-! ### Errors (R290, R291, R294) -/

/-- The codes each state can raise. -/
abbrev raisable : List (EngState × ErrCode) :=
  [(.token, .truncated), (.lext, .truncated), (.litchk, .truncated), (.litchk, .outputLimit), (.off1, .truncated),
   (.mext, .truncated), (.mchk, .offsetZero), (.mchk, .offsetRange), (.mchk, .outputLimit), (.raw, .outputLimit)]

/-- A turn leaves ERR, or raises an error its state can raise, with nothing changed but, in MCHK, the completed count. -/
theorem Turn.err {s t : State} (h : Turn s t) :
    t.status.err = s.status.err ∨
    ∃ code d, t = raiseError code { s with dCount := d } ∧ (s.status.state ≠ .mchk → d = s.dCount) ∧
      (s.status.state, code) ∈ raisable := by
  cases h with
  | truncated hst hend =>
    refine .inr ⟨_, s.dCount, rfl, fun _ => rfl, ?_⟩
    simp only [List.mem_cons, List.not_mem_nil, or_false] at hst
    obtain hst | hst | hst | hst := hst <;> simp [hst]
  | literalsTruncated hst hover => exact .inr ⟨_, s.dCount, rfl, fun _ => rfl, by simp [hst]⟩
  | literalsLimit hst hleft hover => exact .inr ⟨_, s.dCount, rfl, fun _ => rfl, by simp [hst]⟩
  | offsetZero hst hzero => exact .inr ⟨_, _, rfl, fun h => absurd hst h, by simp [hst]⟩
  | offsetRange hst hnz hfar => exact .inr ⟨_, _, rfl, fun h => absurd hst h, by simp [hst]⟩
  | matchLimit hst hnz hreach hover => exact .inr ⟨_, _, rfl, fun h => absurd hst h, by simp [hst]⟩
  | rawLimit hst hpos hover => exact .inr ⟨_, s.dCount, rfl, fun _ => rfl, by simp [hst]⟩
  | extension last hst hne hin => rw [extensionTaken_status]; exact .inl rfl
  | literal hst hin hout => rw [byteAppended_status]; exact .inl rfl
  | copy hst hout => rw [byteAppended_status]; exact .inl rfl
  | rawByte hst hfits hne hin hout => unfold rawTaken; dsimp only; split <;> exact .inl rfl
  | habs hst hin => rw [habsWith_status]; split <;> exact .inl rfl
  | _ => exact .inl rfl

theorem ne_config_of_raisable {st : EngState} {code : ErrCode} (h : (st, code) ∈ raisable) : code ≠ .config := by
  rintro rfl
  simp at h

/-- Settles O49: the turn that sets ERR is one that raises an error. -/
theorem errorsArePrecise : Obligations.ErrorsArePrecise := by
  intro s t herr h hset
  cases hb : s.status.busy with
  | false => rw [engineStep_idle hb] at h; cases h; rw [herr] at hset; cases hset
  | true =>
    obtain hkeep | ⟨code, d, rfl, hd, hmem⟩ := (turn_of_engineStep hb h).err
    · rw [hkeep, herr] at hset; cases hset
    · rw [raiseError_eq_errorStatus (ne_config_of_raisable hmem)]
      exact ⟨rfl, hd, hmem⟩

/-! ### The output range (R105, R196) -/

/-- A turn writes no OBUF byte, or the one at `OUT(OUT_LEN)`, which is below MAX_SIZE, and then OUT_LEN has advanced past it. -/
theorem Turn.output {s t : State} (hi : s.Sound) (h : Turn s t) :
    (t.obuf = s.obuf ∧ t.outLen = s.outLen) ∨
    (∃ b, t.obuf = s.obuf.store s.outAddr b) ∧ s.outLen.toNat < s.maxSize.toNat ∧ t.outLen = s.outLen + 1 := by
  cases h with
  | literal hst hin hout =>
    obtain ⟨hleft, -, hroom⟩ := hi.literalOk hst
    exact .inr ⟨⟨_, rfl⟩, by omega, rfl⟩
  | copy hst hout =>
    obtain ⟨hleft, hroom, -⟩ := hi.matchOk hst
    exact .inr ⟨⟨_, rfl⟩, by omega, rfl⟩
  | rawByte hst hfits hne hin hout =>
    obtain ⟨-, -, hcursors, -⟩ := hi.rawOk hst
    have hlt := hi.inPos_lt_of_raw hst hne
    have hroom := hi.raw_fits hst hfits
    exact .inr ⟨⟨_, rfl⟩, by rw [hcursors]; omega, rfl⟩
  | habs hst hin => rw [habsWith_eq]; exact .inl ⟨setHash_obuf s _ _, setHash_outLen s _ _⟩
  | _ => exact .inl ⟨rfl, rfl⟩

theorem byteAt_obuf_store {s t : State} {a : Nat} {b : Byte} (h : t.obuf = s.obuf.store a b) {x : Nat} (hx : x ≠ a) :
    t.byteAt .obuf x = s.byteAt .obuf x :=
  (byteAt_obuf_congr (s := s.putByte .obuf a b) h x).trans (byteAt_putByte_otherAddr s .obuf a x b hx)

theorem byteAt_obuf_store_same {s t : State} {a : Nat} {b : Byte} (h : t.obuf = s.obuf.store a b) :
    t.byteAt .obuf a = b :=
  (byteAt_obuf_congr (s := s.putByte .obuf a b) h a).trans (byteAt_putByte_same s .obuf a b)

/-- R105, R196: whatever the engine reaches, it has written between the output so far and the output then, below MAX_SIZE. -/
theorem Reaches.output {s t : State} (hi : s.Sound) (h : Reaches s t) :
    s.outLen.toNat ≤ t.outLen.toNat ∧
    ∀ a, (a < s.outAddr ∨ s.outBase.toNat + s.maxSize.toNat ≤ a ∨ t.outAddr ≤ a) →
      t.byteAt .obuf a = s.byteAt .obuf a := by
  induction h with
  | refl => exact ⟨Nat.le_refl _, fun _ _ => rfl⟩
  | @tail u t hreach hgo ih =>
    obtain ⟨hlen, hkeep⟩ := ih
    have huf := Reaches.frame hreach
    have htf := hgo.frame
    unfold State.outAddr at hkeep ⊢
    rw [huf.outBase] at hkeep
    rw [htf.outBase, huf.outBase]
    obtain ⟨hmem, hout⟩ | ⟨⟨b, hmem⟩, hroom, hout⟩ := hgo.2.output (hi.reaches hreach)
    · rw [hout]
      exact ⟨hlen, fun a ha => (byteAt_obuf_congr hmem a).trans (hkeep a ha)⟩
    · rw [huf.maxSize] at hroom
      have hlt := s.maxSize.isLt
      have hnext : t.outLen.toNat = u.outLen.toNat + 1 := by rw [hout]; bv_omega
      refine ⟨by omega, fun a ha => ?_⟩
      have hne : a ≠ u.outAddr := by unfold State.outAddr; rw [huf.outBase]; omega
      exact (byteAt_obuf_store hmem hne).trans (hkeep a (by omega))

/-- Settles O43: an engine turn, plain or fused, is none or some of the engine's own turns. -/
theorem engineWritesOnlyTheOutputRange : Obligations.EngineWritesOnlyTheOutputRange := by
  intro s t hi hnext h
  suffices hk : ∃ es, Reaches { s with schedule := es } t by
    obtain ⟨es, hreach⟩ := hk
    exact fun a ha => (hreach.output (hi.withSchedule es).sound).2 a (ha.imp_right .inl)
  obtain ⟨es, h | h⟩ := engineTurn_of_step hnext h
  · cases hb : s.status.busy with
    | true => exact ⟨es, .single ⟨hb, turn_of_engineStep hb h⟩⟩
    | false => rw [engineStep_idle (s := { s with schedule := es }) hb] at h; cases h; exact ⟨es, .refl⟩
  · cases hb : s.status.busy with
    | true =>
      obtain ⟨u, hu, hgo⟩ := (hi.withSchedule es).sound.after_fusedStep hb
      rw [h] at hu
      cases hu
      exact ⟨es, hgo.to_reflTransGen⟩
    | false => rw [fusedStep_idle (s := { s with schedule := es }) hb] at h; cases h; exact ⟨es, .refl⟩

end Sys2Proof.Machine
end

section
/-!
Whole commands with the host quiet (spec/41_block_decode.md R190, R197; spec/42_xxhash32.md R223): every running command ends, and what a
RAW_COPY and a HASH_UPDATE leave.
-/

open Sys2Proof.Claims

namespace Sys2Proof.Machine

/-! ### Every command ends (R197) -/

/-- LITCHK and MCHK take a turn without consuming or producing a byte. -/
def checkTurns : EngState → Nat
  | .litchk | .mchk => 1
  | _ => 0

/-- The bytes a running HASH_UPDATE has yet to absorb. -/
def State.hashLeft (s : State) : Nat :=
  if s.status.state = .habs then (s.hash s.activeCtx).len.toNat - (s.hash s.activeCtx).pos.toNat else 0

/-- The most turns a running command has left: three for each input byte, one for each byte of room, one for each byte to absorb, one
for a check, and the last. -/
def State.turnsLeft (s : State) : Nat :=
  if s.status.busy then
    3 * (s.inLen.toNat - s.inPos.toNat) + (s.maxSize.toNat - s.outLen.toNat) + s.hashLeft + checkTurns s.status.state + 1
  else 0

theorem turnsLeft_busy {s : State} (hb : s.status.busy = true) : s.turnsLeft =
    3 * (s.inLen.toNat - s.inPos.toNat) + (s.maxSize.toNat - s.outLen.toNat) + s.hashLeft + checkTurns s.status.state + 1 :=
  if_pos hb

theorem turnsLeft_idle {s : State} (hb : s.status.busy = false) : s.turnsLeft = 0 := if_neg (by simp [hb])

theorem turnsLeft_lt_of_idle {s t : State} (hb : s.status.busy = true) (ht : t.status.busy = false) :
    t.turnsLeft < s.turnsLeft := by
  rw [turnsLeft_busy hb, turnsLeft_idle ht]
  omega

theorem hashLeft_of_ne {s : State} (h : s.status.state ≠ .habs) : s.hashLeft = 0 := if_neg h

/-- A turn of a decode or a raw copy that goes on uses up input, room or a check. -/
theorem turnsLeft_lt_of_step {s t : State} (hb : s.status.busy = true) (hbt : t.status.busy = true)
    (hhabs : t.status.state ≠ .habs) (hin : t.inLen = s.inLen) (hmax : t.maxSize = s.maxSize)
    (h : 3 * (s.inLen.toNat - t.inPos.toNat) + (s.maxSize.toNat - t.outLen.toNat) + checkTurns t.status.state <
      3 * (s.inLen.toNat - s.inPos.toNat) + (s.maxSize.toNat - s.outLen.toNat) + checkTurns s.status.state) :
    t.turnsLeft < s.turnsLeft := by
  rw [turnsLeft_busy hb, turnsLeft_busy hbt, hashLeft_of_ne hhabs, hin, hmax]
  omega

theorem checkTurns_le (st : EngState) : checkTurns st ≤ 1 := by cases st <;> decide

/-- R49: an input byte pays for the turn that consumes it, whatever state it leads to. -/
theorem turnsLeft_lt_of_consumed {s t : State} (hb : s.status.busy = true) (hbt : t.status.busy = true)
    (hhabs : t.status.state ≠ .habs) (hf : EngineFrame s t) (hlt : s.inPos.toNat < s.inLen.toNat)
    (hpos : t.inPos = s.inPos + 1) (hout : s.maxSize.toNat - t.outLen.toNat ≤ s.maxSize.toNat - s.outLen.toNat) :
    t.turnsLeft < s.turnsLeft := by
  have hnext : t.inPos.toNat = s.inPos.toNat + 1 := by rw [hpos]; bv_omega
  have hcheck := checkTurns_le t.status.state
  exact turnsLeft_lt_of_step hb hbt hhabs hf.inLen hf.maxSize (by omega)

theorem State.Sound.turnsLeft_lt {s t : State} (hi : s.Sound) (hb : s.status.busy = true) (h : Turn s t) :
    t.turnsLeft < s.turnsLeft := by
  have hf := h.frame hb
  have hmax := s.maxSize.isLt
  cases h with
  | truncated hst hend => exact turnsLeft_lt_of_idle hb rfl
  | endOfBlock hst hend => exact turnsLeft_lt_of_idle hb rfl
  | literalsTruncated hst hover => exact turnsLeft_lt_of_idle hb rfl
  | literalsLimit hst hleft hover => exact turnsLeft_lt_of_idle hb rfl
  | offsetZero hst hzero => exact turnsLeft_lt_of_idle hb rfl
  | offsetRange hst hnz hfar => exact turnsLeft_lt_of_idle hb rfl
  | matchLimit hst hnz hreach hover => exact turnsLeft_lt_of_idle hb rfl
  | rawLimit hst hpos hover => exact turnsLeft_lt_of_idle hb rfl
  | rawEnd hst hfits hend => exact turnsLeft_lt_of_idle hb rfl
  | token hst hne hin =>
    refine turnsLeft_lt_of_consumed hb hb ?_ hf (hi.inPos_lt (by simp [decodeStates, hst]) hne) rfl (Nat.le_refl _)
    unfold tokenTaken; dsimp only; split <;> simp
  | extension last hst hne hin =>
    simp only [List.mem_cons, Prod.mk.injEq, List.not_mem_nil, or_false] at hst
    have hlt : s.inPos.toNat < s.inLen.toNat := by
      obtain ⟨hst, -⟩ | ⟨hst, -⟩ := hst <;> exact hi.inPos_lt (by simp [decodeStates, hst]) hne
    refine turnsLeft_lt_of_consumed hb (by rw [extensionTaken_status]; exact hb) ?_ hf hlt rfl (Nat.le_refl _)
    rw [extensionTaken_status]
    dsimp only
    obtain ⟨hst, rfl⟩ | ⟨hst, rfl⟩ := hst <;> rw [hst] <;> split <;> simp
  | literalsFit hst hleft hroom =>
    refine turnsLeft_lt_of_step hb hb ?_ rfl rfl ?_
    · rw [enter_status_state]; split <;> simp
    · rw [enter_status_state, hst]
      split <;> exact Nat.lt_succ_self _
  | literal hst hin hout =>
    obtain ⟨hleft, hpos, hroom⟩ := hi.literalOk hst
    have hstatus := byteAppended_status (s.byteAt .ibuf s.inAddr) .off0 (advanceInput s)
    refine turnsLeft_lt_of_consumed hb (by rw [hstatus]; exact hb) ?_ hf (by omega) rfl ?_
    · rw [hstatus]; simp only [advanceInput_status, hst]; split <;> simp
    · simp only [byteAppended, advanceInput_outLen]; bv_omega
  | offsetLow hst hne hin =>
    exact turnsLeft_lt_of_consumed hb hb nofun hf (hi.inPos_lt (by simp [decodeStates, hst]) hne) rfl (Nat.le_refl _)
  | offsetHigh hst hne hin =>
    refine turnsLeft_lt_of_consumed hb hb ?_ hf (hi.inPos_lt (by simp [decodeStates, hst]) hne) rfl (Nat.le_refl _)
    unfold offsetHighTaken; dsimp only; split <;> simp
  | matchFits hst hnz hreach hroom =>
    refine turnsLeft_lt_of_step hb hb nofun rfl rfl ?_
    rw [hst]
    exact Nat.lt_succ_self _
  | copy hst hout =>
    obtain ⟨hleft, hroom, -⟩ := hi.matchOk hst
    have hstatus := byteAppended_status (s.byteAt .obuf s.matchAddr) .token s
    refine turnsLeft_lt_of_step hb (by rw [hstatus]; exact hb) ?_ hf.inLen hf.maxSize ?_
    · rw [hstatus, hst]; dsimp only; split <;> simp
    · have hcheck : checkTurns (byteAppended (s.byteAt .obuf s.matchAddr) .token s).status.state = 0 := by
        rw [hstatus, hst]; dsimp only; split <;> rfl
      rw [hcheck]
      simp only [byteAppended, putByte_inPos]
      bv_omega
  | rawByte hst hfits hne hin hout =>
    cases hbt : (rawTaken (s.byteAt .ibuf s.inAddr) s).status.busy with
    | false => exact turnsLeft_lt_of_idle hb hbt
    | true =>
      have hlt := hi.inPos_lt_of_raw hst hne
      have hroom := hi.raw_fits hst hfits
      obtain ⟨-, -, hcursors, -⟩ := hi.rawOk hst
      refine turnsLeft_lt_of_consumed hb hbt ?_ hf hlt rfl ?_
      · unfold rawTaken doneStatus; dsimp only; split <;> simp [hst]
      · simp only [rawTaken, hcursors]; bv_omega
  | habs hst hin =>
    cases hbt : (habsWith (s.byteAt s.hashSpace s.hashAddr) s).status.busy with
    | false => exact turnsLeft_lt_of_idle hb hbt
    | true =>
      obtain ⟨-, hpos⟩ := hi.hashOk hst
      have hlen := (s.hash s.activeCtx).len.isLt
      have hstatus : (habsWith (s.byteAt s.hashSpace s.hashAddr) s).status = s.status := by
        rw [habsWith_status] at hbt ⊢
        split at hbt
        · cases hbt
        · exact if_neg ‹_›
      have hinPos : (habsWith (s.byteAt s.hashSpace s.hashAddr) s).inPos = s.inPos := by
        rw [habsWith_eq]; exact setHash_inPos s _ _
      have houtLen : (habsWith (s.byteAt s.hashSpace s.hashAddr) s).outLen = s.outLen := by
        rw [habsWith_eq]; exact setHash_outLen s _ _
      rw [turnsLeft_busy hb, turnsLeft_busy hbt, hf.inLen, hf.maxSize, hinPos, houtLen]
      unfold State.hashLeft
      rw [hstatus, if_pos hst, if_pos hst, hf.activeCtx, habsWith_hash]
      simp only [absorb_len]
      bv_omega

/-- R197: a running command ends within the turns it has left. -/
theorem State.Sound.reaches_idle {s : State} (hi : s.Sound) (hs : s.schedule = []) :
    ∃ n t, n ≤ s.turnsLeft ∧ runSteps n s = .next t ∧ Reaches s t ∧ t.status.busy = false := by
  induction hk : s.turnsLeft using Nat.strong_induction_on generalizing s with
  | _ k ih =>
    cases hb : s.status.busy with
    | false => exact ⟨0, s, Nat.zero_le _, rfl, .refl, hb⟩
    | true =>
      obtain ⟨u, hu⟩ := hi.exists_turn hb
      have hlt := hi.turnsLeft_lt hb hu
      obtain ⟨n, t, hn, hrun, hreach, hidle⟩ :=
        ih u.turnsLeft (hk ▸ hlt) (hi.turn hb hu) ((hu.frame hb).schedule.trans hs) rfl
      exact ⟨n + 1, t, by omega, (runSteps_of_goes ⟨hb, hu⟩ hs n).trans hrun, .head ⟨hb, hu⟩ hreach, hidle⟩

/-- Settles O56. -/
theorem everyRunningCommandEnds : Obligations.EveryRunningCommandEnds := by
  intro s hi hs
  obtain ⟨n, t, -, hrun, -, hidle⟩ := hi.sound.reaches_idle hs
  exact ⟨n, t, hrun, hidle⟩

/-! ### RAW_COPY (R156, R190) -/

theorem getElem_bytesAt (s : State) (sp : Space) (a n : Nat) {k : Nat} (h : k < (s.bytesAt sp a n).length) :
    (s.bytesAt sp a n)[k] = s.byteAt sp (a + k) := by
  simp [State.bytesAt]

/-- A raw copy from its next byte to its last. -/
theorem rawRun (k : Nat) {s : State} (hi : s.Sound) (hb : s.status.busy = true) (hst : s.status.state = .raw)
    (hs : s.schedule = []) (hleft : s.inPos.toNat + (k + 1) = s.inLen.toNat) (hroom : s.inLen.toNat ≤ s.maxSize.toNat) :
    ∃ t, runSteps (k + 1) s = .next t ∧ Appended s t s.outAddr (s.bytesAt .ibuf s.inAddr (k + 1)) ∧
      t = { s with obuf := t.obuf, inPos := s.inLen, outLen := s.inLen, status := doneStatus s } := by
  have hlt := s.inLen.isLt
  have hne : s.inPos ≠ s.inLen := by rintro h; rw [h] at hleft; omega
  have hfits : ¬(s.inPos = 0 ∧ s.maxSize.toNat < s.inLen.toNat) := fun h => by omega
  obtain ⟨hinFits, houtFits, hcursors, -⟩ := hi.rawOk hst
  have hturn : Turn s (rawTaken (s.byteAt .ibuf s.inAddr) s) :=
    .rawByte hst hfits hne (hi.inAddr_lt_of_raw hst hne) (hi.outAddr_lt_of_raw hst hne hroom)
  have hstep := runSteps_of_goes ⟨hb, hturn⟩ hs
  obtain ⟨v, hv⟩ : ∃ v, v = rawTaken (s.byteAt .ibuf s.inAddr) s := ⟨_, rfl⟩
  have hsame : v.byteAt .obuf s.outAddr = s.byteAt .ibuf s.inAddr := hv ▸ byteAt_putByte_same s .obuf s.outAddr _
  have hother : ∀ x, x ≠ s.outAddr → v.byteAt .obuf x = s.byteAt .obuf x :=
    fun x hx => hv ▸ byteAt_putByte_otherAddr s .obuf s.outAddr x _ hx
  have hf : EngineFrame s v := hv ▸ hturn.frame hb
  have hpos : v.inPos = s.inPos + 1 := by rw [hv]; rfl
  have hout : v.outLen = s.outLen + 1 := by rw [hv]; rfl
  have hposNat : v.inPos.toNat = s.inPos.toNat + 1 := by rw [hpos]; bv_omega
  rw [← hv] at hstep hturn
  rw [bytesAt_succ]
  cases k with
  | zero =>
    have hend : s.inPos + 1 = s.inLen := by bv_omega
    have hstatus : v.status = doneStatus s := by rw [hv]; exact if_pos hend
    refine ⟨v, (hstep 0).trans rfl, Appended.cons hsame hother (.nil v _), ?_⟩
    rw [hv]
    unfold rawTaken
    rw [hcursors, hend, if_pos rfl]
    rfl
  | succ k =>
    have hmore : s.inPos + 1 ≠ s.inLen := by bv_omega
    have hstatus : v.status = s.status := by rw [hv]; exact if_neg hmore
    obtain ⟨t, hrun, happ, ht⟩ := rawRun k (hi.turn hb hturn) (hstatus ▸ hb) (hstatus ▸ hst) (hf.schedule.trans hs)
      (by rw [hposNat, hf.inLen]; omega) (by rw [hf.inLen, hf.maxSize]; exact hroom)
    have haddr : v.outAddr = s.outAddr + 1 := by
      have := s.maxSize.isLt
      unfold State.outAddr
      rw [hf.outBase, hout, hcursors, ← hpos, hposNat]
      omega
    have hinAddr : v.inAddr = s.inAddr + 1 := inAddr_of_inPos hf.inBase (k := 1) hpos (by omega)
    rw [haddr, hinAddr, bytesAt_ibuf_congr hf.ibuf] at happ
    refine ⟨t, (hstep (k + 1)).trans hrun, Appended.cons hsame hother happ, ht.trans ?_⟩
    unfold doneStatus
    rw [hstatus, hv]
    rfl

/-- The machine after a raw copy of `n` bytes, whatever OBUF then holds. -/
def rawCopied (n : Word) (ob : Memory) (s : State) : State :=
  { s with obuf := ob, inPos := n, outLen := n, dToken := 0, dCount := 0, dOffset := 0, winEff := 0,
           status := endedStatus s 0x02 }

/-- R190: an accepted raw copy of a payload that fits, to its end. -/
theorem rawCommandRun {s : State} (hp : s.params.valid) (hs : s.schedule = []) (hcfg : s.cfgRaw)
    (hroom : s.inLen.toNat ≤ s.maxSize.toNat) :
    ∃ t, runSteps (max 1 s.inLen.toNat) (engineStarted 0x02 .raw 0 s) = .next t ∧
      Appended s t s.outBase.toNat (s.bytesAt .ibuf s.inBase.toNat s.inLen.toNat) ∧ t = rawCopied s.inLen t.obuf s := by
  obtain ⟨u, hu⟩ : ∃ u, u = engineStarted 0x02 .raw 0 s := ⟨_, rfl⟩
  have hi : u.Sound := hu ▸ rawStarted_sound hp hcfg
  rw [← hu]
  have hb : u.status.busy = true := by rw [hu]; rfl
  have hst : u.status.state = .raw := by rw [hu]; rfl
  have hus : u.schedule = [] := by rw [hu]; exact hs
  have hin : u.inLen = s.inLen := by rw [hu]; rfl
  have hmax : u.maxSize = s.maxSize := by rw [hu]; rfl
  have hpos : u.inPos = 0 := by rw [hu]; rfl
  have hib : u.ibuf = s.ibuf := by rw [hu]; rfl
  have hob : u.obuf = s.obuf := by rw [hu]; rfl
  have hinAddr : u.inAddr = s.inBase.toNat := by rw [hu]; rfl
  have houtAddr : u.outAddr = s.outBase.toNat := by rw [hu]; rfl
  cases hk : s.inLen.toNat with
  | zero =>
    have hzero : s.inLen = 0 := by bv_omega
    have hend : u.inPos = u.inLen := by rw [hpos, hin, hzero]
    have hfits : ¬(u.inPos = 0 ∧ u.maxSize.toNat < u.inLen.toNat) := by rw [hin, hmax]; omega
    refine ⟨finish u, runSteps_of_goes ⟨hb, .rawEnd hst hfits hend⟩ hus 0, ?_, ?_⟩
    · exact ⟨fun k h => absurd h (by simp), fun x _ => byteAt_obuf_congr (t := finish u) hob x⟩
    · rw [hzero, hu]
      rfl
  | succ k =>
    obtain ⟨t, hrun, ⟨hbytes, hkeep⟩, ht⟩ :=
      rawRun k hi hb hst hus (by rw [hpos, hin, hk]; exact Nat.zero_add _) (by rw [hin, hmax]; exact hroom)
    rw [hinAddr, houtAddr, bytesAt_ibuf_congr hib] at hbytes hkeep
    refine ⟨t, by rw [Nat.max_eq_right (by omega)]; exact hrun,
      ⟨hbytes, fun x hx => (hkeep x hx).trans (byteAt_obuf_congr hob x)⟩, ht.trans ?_⟩
    rw [hu]
    rfl

/-- Settles O52. -/
theorem rawCopyRunCopiesThePayload : Obligations.RawCopyRunCopiesThePayload := by
  intro s hp hb hs hcfg hroom
  obtain ⟨t, hrun, ⟨hbytes, hkeep⟩, ht⟩ := rawCommandRun hp hs hcfg hroom
  refine ⟨_, t, exec_rawCopy_of_cfg hb hcfg, hrun, fun k hk => ?_, fun x hx => hkeep x ?_, ht⟩
  · rw [hbytes k (by rw [length_bytesAt]; exact hk), getElem_bytesAt]
  · rw [length_bytesAt]
    exact hx

/-! ### HASH_UPDATE (R158, R223) -/

/-- Absorbing does not look at H_POS. -/
theorem absorb_withPos (h : HashCtx) (p : Word) (b : Byte) :
    HashCtx.absorb b { h with pos := p } = { h.absorb b with pos := p } := by
  unfold HashCtx.absorb
  dsimp only
  split <;> rfl

theorem absorbAll_withPos (data : List Byte) (h : HashCtx) (p : Word) :
    HashCtx.absorbAll data { h with pos := p } = { h.absorbAll data with pos := p } := by
  induction data generalizing h with
  | nil => rfl
  | cons b data ih =>
    show HashCtx.absorbAll data (HashCtx.absorb b { h with pos := p }) = _
    rw [absorb_withPos, ih]
    rfl

theorem habsWith_byteAt (b : Byte) (s : State) (sp : Space) (a : Nat) : (habsWith b s).byteAt sp a = s.byteAt sp a := by
  rw [habsWith_eq]
  exact setHash_byteAt s _ _ sp a

/-- A HASH_UPDATE from its next byte to its last. -/
theorem habsRun (k : Nat) {s : State} (hi : s.Sound) (hb : s.status.busy = true) (hst : s.status.state = .habs)
    (hs : s.schedule = []) {h : HashCtx} (hh : s.hash s.activeCtx = h) (hleft : h.pos.toNat + (k + 1) = h.len.toNat) :
    ∃ t, runSteps (k + 1) s = .next t ∧
      t.hash s.activeCtx = { h.absorbAll (s.bytesAt s.hashSpace s.hashAddr (k + 1)) with pos := h.len } ∧
      (∀ c, c ≠ s.activeCtx → t.hash c = s.hash c) ∧ t = { s with h0 := t.h0, h1 := t.h1, status := doneStatus s } := by
  have hlt := h.len.isLt
  have hturn : Turn s (habsWith (s.byteAt s.hashSpace s.hashAddr) s) := .habs hst (hi.hashAddr_lt hst)
  have hstep := runSteps_of_goes ⟨hb, hturn⟩ hs
  obtain ⟨b, hbyte⟩ : ∃ b, b = s.byteAt s.hashSpace s.hashAddr := ⟨_, rfl⟩
  rw [bytesAt_succ, ← hbyte]
  rw [← hbyte] at hturn hstep
  have heq := habsWith_eq b s
  have hf := habsWith_frame b s
  have hstatus := habsWith_status b s
  have hhash := habsWith_hash b s
  have hbytes := habsWith_byteAt b s
  obtain ⟨v, hv⟩ : ∃ v, v = habsWith b s := ⟨_, rfl⟩
  rw [← hv] at hturn hstep heq hf hstatus hhash hbytes
  rw [hh] at heq hstatus hhash
  have hother : ∀ c, c ≠ s.activeCtx → v.hash c = s.hash c := by
    intro c hc
    rw [heq]
    exact setHash_hash_other s _ c _ hc
  cases k with
  | zero =>
    have hend : h.pos + 1 = h.len := by bv_omega
    rw [if_pos hend] at heq
    refine ⟨v, (hstep 0).trans rfl, ?_, hother, ?_⟩
    · rw [hhash, hend]
      rfl
    · rw [heq]
      exact setHash_withStatus_frame s _ _ _
  | succ k =>
    have hmore : h.pos + 1 ≠ h.len := by bv_omega
    rw [if_neg hmore] at hstatus
    obtain ⟨t, hrun, hdone, hkept, ht⟩ := habsRun k (hi.turn hb hturn) (hstatus ▸ hb) (hstatus ▸ hst)
      (hf.schedule.trans hs) (hf.activeCtx.symm ▸ hhash) (by simp only [absorb_len]; bv_omega)
    have haddr : v.hashAddr = s.hashAddr + 1 := by
      unfold State.hashAddr
      rw [hf.activeCtx, hhash, hh]
      simp only [absorb_addr]
      bv_omega
    have hdata : v.bytesAt v.hashSpace v.hashAddr (k + 1) = s.bytesAt s.hashSpace (s.hashAddr + 1) (k + 1) := by
      rw [hf.hashSpace, haddr]
      simp only [State.bytesAt, hbytes]
    rw [hf.activeCtx] at hdone hkept
    refine ⟨t, (hstep (k + 1)).trans hrun, ?_, fun c hc => (hkept c hc).trans (hother c hc), ?_⟩
    · rw [hdone, hdata, absorbAll_withPos]
      simp only [absorb_len]
      rfl
    · rw [ht, heq, setHash_withStatus_frame]
      unfold doneStatus
      rw [if_neg hmore]

/-- Settles O53. -/
theorem hashUpdateRunAbsorbsEveryByte : Obligations.HashUpdateRunAbsorbsEveryByte := by
  intro s hp hb hs hcfg hlen h data
  have hstart := exec_hashUpdate_of_cfg hb hcfg
  rw [if_neg (show ¬(s.hash s.activeCtx).len = 0 from hlen)] at hstart
  have hi := hashStarted_sound hp hcfg hlen
  obtain ⟨u, hu⟩ : ∃ u, u = hashStarted (runningStatus s 0x11 .habs) s := ⟨_, rfl⟩
  have hframe : u = { s with h0 := u.h0, h1 := u.h1, status := runningStatus s 0x11 .habs } := hu ▸ hashStarted_frame _ s
  have hhash : u.hash s.activeCtx = { h with pos := 0 } := hu ▸ hashStarted_hash _ s
  have hother : ∀ c, c ≠ s.activeCtx → u.hash c = s.hash c := fun c hc => hu ▸ setHash_hash_other s _ c _ hc
  have hbytes : ∀ sp a, u.byteAt sp a = s.byteAt sp a := fun sp a => hu ▸ setHash_byteAt s _ _ sp a
  rw [← hu] at hstart hi
  have hstatus : u.status = runningStatus s 0x11 .habs := by rw [hframe]
  have hctx : u.activeCtx = s.activeCtx := by rw [hframe]; rfl
  have hspace : u.hashSpace = s.hashSpace := by rw [hframe]; rfl
  obtain ⟨k, hk⟩ : ∃ k, h.len.toNat = k + 1 := ⟨h.len.toNat - 1, by have : h.len ≠ 0 := hlen; bv_omega⟩
  obtain ⟨t, hrun, hdone, hkept, ht⟩ := habsRun k (h := { h with pos := 0 }) hi (by rw [hstatus]; rfl) (by rw [hstatus]; rfl)
    (by rw [hframe]; exact hs) (hctx.symm ▸ hhash) ((Nat.zero_add _).trans hk.symm)
  have hdata : u.bytesAt u.hashSpace u.hashAddr (k + 1) = data := by
    have haddr : u.hashAddr = h.addr.toNat := by unfold State.hashAddr; rw [hctx, hhash]; rfl
    rw [hspace, haddr, ← hk]
    simp only [State.bytesAt, hbytes]
    rfl
  rw [hdata, hctx, absorbAll_withPos] at hdone
  rw [hctx] at hkept
  refine ⟨u, t, hstart, hk ▸ hrun, hdone, fun c hc => (hkept c hc).trans (hother c hc), ht.trans ?_⟩
  rw [hframe]
  rfl

end Sys2Proof.Machine
end

section
/-!
The streamed hash is XXH32 of the string (spec/42_xxhash32.md R222 to R228): what a context holds once a string has been absorbed, byte by byte.
-/

open Sys2Proof.Claims

namespace Sys2Proof.Machine

/-! ### Stripes of a string -/

/-- The last stripe is folded into the lanes of the ones before it. -/
theorem foldStripes_succ (k : Nat) (l : Lanes) (data : List Byte) :
    foldStripes (k + 1) l data = (foldStripes k l data).fold ((data.drop (16 * k)).take 16) := by
  induction k generalizing l data with
  | zero => rfl
  | succ k ih =>
    show foldStripes (k + 1) (l.fold (data.take 16)) (data.drop 16) = _
    rw [ih, List.drop_drop, Nat.add_comm, ← Nat.mul_succ]
    rfl

/-- What follows the stripes is not folded. -/
theorem foldStripes_append (k : Nat) (l : Lanes) {data : List Byte} (more : List Byte) (h : 16 * k ≤ data.length) :
    foldStripes k l (data ++ more) = foldStripes k l data := by
  induction k with
  | zero => rfl
  | succ k ih =>
    rw [foldStripes_succ, foldStripes_succ, ih (by omega), List.drop_append_of_le_length (by omega),
      List.take_append_of_le_length (by rw [List.length_drop]; omega)]

theorem take_succ_set {l : List Byte} {i : Nat} (b : Byte) (h : i < l.length) : (l.set i b).take (i + 1) = l.take i ++ [b] := by
  rw [List.take_add_one, List.take_set_of_le (Nat.le_refl i), List.getElem?_set_self h]
  rfl

/-! ### A context that has absorbed a string -/

/-- R224, R227: the lanes hold the complete stripes of the string, H_BUF the rest. -/
structure HashCtx.Holds (h : HashCtx) (seed : Word) (data : List Byte) : Prop where
  lanes : h.lanes = foldStripes (data.length / 16) (Lanes.init seed) data
  count : h.count.val = data.length % 16
  pending : h.pending = data.drop (16 * (data.length / 16))
  total : h.total = BitVec.ofNat 32 data.length
  large : h.large = decide (16 ≤ data.length)

theorem holds_init (h : HashCtx) (seed : Word) : (h.init seed).Holds seed [] := ⟨rfl, rfl, rfl, rfl, rfl⟩

/-- The stripe buffer up to and with the byte just put into it. -/
theorem HashCtx.Holds.filled {h : HashCtx} {seed : Word} {data : List Byte} (hd : h.Holds seed data) (b : Byte) :
    (h.buf.set h.count.val b h.count.isLt).toList.take (h.count.val + 1) = (data ++ [b]).drop (16 * (data.length / 16)) := by
  rw [List.drop_append_of_le_length (by omega), ← hd.pending, Vector.toList_set, take_succ_set _ (by simp)]
  rfl

/-- R223: one more byte. It completes a stripe when it is the sixteenth. -/
theorem HashCtx.Holds.absorb {h : HashCtx} {seed : Word} {data : List Byte} (hd : h.Holds seed data) (b : Byte) :
    (h.absorb b).Holds seed (data ++ [b]) := by
  have hlen : (data ++ [b]).length = data.length + 1 := by simp
  have htotal : h.total + 1 = BitVec.ofNat 32 (data.length + 1) := by rw [hd.total, BitVec.ofNat_add]; rfl
  have hfilled := hd.filled b
  have hcount := hd.count
  by_cases hlast : h.count.val + 1 = 16
  · have hdiv : (data.length + 1) / 16 = data.length / 16 + 1 := by omega
    have hstripe : (h.buf.set h.count.val b h.count.isLt).toList = (data ++ [b]).drop (16 * (data.length / 16)) := by
      rw [← hfilled, hlast, List.take_of_length_le (by simp)]
    rw [absorb_of_last hlast]
    refine ⟨?_, ?_, ?_, ?_, ?_⟩
    · rw [hlen, hdiv, foldStripes_succ, foldStripes_append _ _ _ (by omega), ← hstripe, ← hd.lanes,
        List.take_of_length_le (by simp)]
      rfl
    · rw [hlen]
      show 0 = _
      omega
    · rw [hlen, hdiv, List.drop_of_length_le (by rw [hlen]; omega)]
      rfl
    · rw [hlen]
      exact htotal
    · rw [hlen]
      exact (decide_eq_true (by omega)).symm
  · have hlt := h.count.isLt
    have hdiv : (data.length + 1) / 16 = data.length / 16 := by omega
    have hnext : (h.count + 1).val = h.count.val + 1 := by rw [Fin.val_add, Fin.val_one]; omega
    rw [absorb_of_lt hlast]
    refine ⟨?_, ?_, ?_, ?_, ?_⟩
    · rw [hlen, hdiv, foldStripes_append _ _ _ (by omega)]
      exact hd.lanes
    · rw [hlen]
      show (h.count + 1).val = _
      omega
    · rw [hlen, hdiv, ← hfilled, ← hnext]
      rfl
    · rw [hlen]
      exact htotal
    · rw [hlen]
      refine hd.large.trans (decide_eq_decide.mpr ?_)
      omega

theorem HashCtx.Holds.absorbAll {h : HashCtx} {seed : Word} (more : List Byte) {data : List Byte} (hd : h.Holds seed data) :
    (h.absorbAll more).Holds seed (data ++ more) := by
  induction more generalizing h data with
  | nil => rwa [List.append_nil]
  | cons b more ih =>
    have := ih (hd.absorb b)
    rwa [List.append_assoc] at this

/-- R225: the digest of what a context holds is the closed form's; while no stripe is complete, lane 3 is the seed. -/
theorem HashCtx.Holds.digestValue {h : HashCtx} {seed : Word} {data : List Byte} (hd : h.Holds seed data) :
    h.digestValue = xxh32 data seed := by
  unfold HashCtx.digestValue xxh32
  rw [hd.pending, hd.total, hd.large]
  by_cases hlarge : 16 ≤ data.length
  · rw [if_pos (decide_eq_true hlarge), if_pos hlarge, hd.lanes]
  · have hseed : h.v3 = seed := by
      have hlanes := hd.lanes
      rw [Nat.div_eq_of_lt (by omega)] at hlanes
      exact congrArg Lanes.v3 hlanes
    rw [if_neg (by simpa using hlarge), if_neg hlarge, hseed]

/-- Settles O54. -/
theorem streamedHashIsXxh32 : Obligations.StreamedHashIsXxh32 :=
  fun h seed data => ((holds_init h seed).absorbAll data).digestValue

end Sys2Proof.Machine
end

section
/-!
What a running decode may depend on (spec/20_memory.md R105, R108, spec/41_block_decode.md R194): the same turn, whatever the buffers hold
outside the payload, the window and the output so far.
-/

open Sys2Proof.Claims

namespace Sys2Proof.Machine

/-- The same machine with other buffer contents. -/
def State.withBuffers (s : State) (ib ob : Memory) : State := { s with ibuf := ib, obuf := ob }

/-- Two machines wrote the same byte at `OUT(OUT_LEN)`, or none. -/
def SameOutput (s t : State) (ob ob' : Memory) : Prop :=
  (t.obuf = s.obuf ∧ ob' = ob ∧ t.outLen = s.outLen) ∨
  ∃ b, t.obuf = s.obuf.store s.outAddr b ∧ ob' = ob.store s.outAddr b ∧ t.outLen.toNat = s.outLen.toNat + 1

/-- R105: an input byte a decode or raw copy reads lies in its payload, which is the same. -/
theorem payloadByte {s : State} {ib ob : Memory}
    (hview : ∀ a, s.inBase.toNat ≤ a → a < s.inBase.toNat + s.inLen.toNat →
      (s.withBuffers ib ob).byteAt .ibuf a = s.byteAt .ibuf a) (hlt : s.inPos.toNat < s.inLen.toNat) :
    (s.withBuffers ib ob).byteAt .ibuf s.inAddr = s.byteAt .ibuf s.inAddr := by
  refine hview _ ?_ ?_
  · exact Nat.le_add_right _ _
  · unfold State.inAddr; omega

/-- R189, R194: a match byte lies in the window or the output so far. -/
theorem State.Sound.matchByte {s : State} (hi : s.Sound) (hst : s.status.state = .copy) {ib ob : Memory}
    (hview : ∀ a, s.outBase.toNat - s.winEff.toNat ≤ a → a < s.outAddr →
      (s.withBuffers ib ob).byteAt .obuf a = s.byteAt .obuf a) :
    (s.withBuffers ib ob).byteAt .obuf s.matchAddr = s.byteAt .obuf s.matchAddr := by
  obtain ⟨-, -, hwin, -⟩ := hi.decodeOk (by simp [decodeStates, hst])
  obtain ⟨-, -, hnz, hreach⟩ := hi.matchOk hst
  refine hview _ ?_ ?_
  · unfold State.matchAddr; omega
  · unfold State.matchAddr State.outAddr; omega

/-- R105, R194: where the buffers agree on what a turn may depend on, it is the same turn. -/
theorem State.Sound.turn_withBuffers {s t : State} (hi : s.Sound) (hne : s.status.state ≠ .habs) (h : Turn s t) {ib ob : Memory}
    (hin : ∀ a, s.inBase.toNat ≤ a → a < s.inBase.toNat + s.inLen.toNat →
      (s.withBuffers ib ob).byteAt .ibuf a = s.byteAt .ibuf a)
    (hout : ∀ a, s.outBase.toNat - s.winEff.toNat ≤ a → a < s.outAddr →
      (s.withBuffers ib ob).byteAt .obuf a = s.byteAt .obuf a) :
    ∃ ob', Turn (s.withBuffers ib ob) (t.withBuffers ib ob') ∧ SameOutput s t ob ob' := by
  have hmax := s.maxSize.isLt
  cases h with
  | truncated hst hend => exact ⟨ob, .truncated hst hend, .inl ⟨rfl, rfl, rfl⟩⟩
  | endOfBlock hst hend => exact ⟨ob, .endOfBlock hst hend, .inl ⟨rfl, rfl, rfl⟩⟩
  | token hst hend haddr =>
    rw [← payloadByte hin (hi.inPos_lt (by simp [decodeStates, hst]) hend)]
    exact ⟨ob, .token hst hend haddr, .inl ⟨rfl, rfl, rfl⟩⟩
  | extension last hst hend haddr =>
    have hs : s.status.state ∈ decodeStates := by
      simp only [List.mem_cons, Prod.mk.injEq, List.not_mem_nil, or_false] at hst
      obtain ⟨hst, -⟩ | ⟨hst, -⟩ := hst <;> simp [decodeStates, hst]
    rw [← payloadByte hin (hi.inPos_lt hs hend)]
    exact ⟨ob, .extension last hst hend haddr, .inl ⟨rfl, rfl, rfl⟩⟩
  | literalsTruncated hst hover => exact ⟨ob, .literalsTruncated hst hover, .inl ⟨rfl, rfl, rfl⟩⟩
  | literalsLimit hst hleft hover => exact ⟨ob, .literalsLimit hst hleft hover, .inl ⟨rfl, rfl, rfl⟩⟩
  | literalsFit hst hleft hroom => exact ⟨ob, .literalsFit hst hleft hroom, .inl ⟨rfl, rfl, rfl⟩⟩
  | literal hst haddr haddr' =>
    obtain ⟨hleft, hpos, hroom⟩ := hi.literalOk hst
    rw [← payloadByte hin (by omega)]
    refine ⟨_, .literal hst haddr haddr', .inr ⟨_, rfl, rfl, ?_⟩⟩
    simp only [byteAppended, advanceInput_outLen]; bv_omega
  | offsetLow hst hend haddr =>
    rw [← payloadByte hin (hi.inPos_lt (by simp [decodeStates, hst]) hend)]
    exact ⟨ob, .offsetLow hst hend haddr, .inl ⟨rfl, rfl, rfl⟩⟩
  | offsetHigh hst hend haddr =>
    rw [← payloadByte hin (hi.inPos_lt (by simp [decodeStates, hst]) hend)]
    exact ⟨ob, .offsetHigh hst hend haddr, .inl ⟨rfl, rfl, rfl⟩⟩
  | offsetZero hst hzero => exact ⟨ob, .offsetZero hst hzero, .inl ⟨rfl, rfl, rfl⟩⟩
  | offsetRange hst hnz hfar => exact ⟨ob, .offsetRange hst hnz hfar, .inl ⟨rfl, rfl, rfl⟩⟩
  | matchLimit hst hnz hreach hover => exact ⟨ob, .matchLimit hst hnz hreach hover, .inl ⟨rfl, rfl, rfl⟩⟩
  | matchFits hst hnz hreach hroom => exact ⟨ob, .matchFits hst hnz hreach hroom, .inl ⟨rfl, rfl, rfl⟩⟩
  | copy hst haddr =>
    obtain ⟨hleft, hroom, -⟩ := hi.matchOk hst
    rw [← hi.matchByte hst hout]
    refine ⟨_, .copy hst haddr, .inr ⟨_, rfl, rfl, ?_⟩⟩
    simp only [byteAppended]; bv_omega
  | rawLimit hst hpos hover => exact ⟨ob, .rawLimit hst hpos hover, .inl ⟨rfl, rfl, rfl⟩⟩
  | rawEnd hst hfits hend => exact ⟨ob, .rawEnd hst hfits hend, .inl ⟨rfl, rfl, rfl⟩⟩
  | rawByte hst hfits hend haddr haddr' =>
    obtain ⟨-, -, hcursors, -⟩ := hi.rawOk hst
    have hlt := hi.inPos_lt_of_raw hst hend
    have hroom := hi.raw_fits hst hfits
    rw [← payloadByte hin hlt]
    refine ⟨_, .rawByte hst hfits hend haddr haddr', .inr ⟨_, rfl, rfl, ?_⟩⟩
    simp only [rawTaken, hcursors]; bv_omega
  | habs hst haddr => exact absurd hst hne

/-- After the same turn the buffers agree on what the next one may depend on. -/
theorem SameOutput.agree {s t : State} {ib ob ob' : Memory} (h : SameOutput s t ob ob') (hf : EngineFrame s t)
    (hout : ∀ a, s.outBase.toNat - s.winEff.toNat ≤ a → a < s.outAddr →
      (s.withBuffers ib ob).byteAt .obuf a = s.byteAt .obuf a) (a : Nat)
    (hlow : t.outBase.toNat - t.winEff.toNat ≤ a) (hhigh : a < t.outAddr) :
    (t.withBuffers ib ob').byteAt .obuf a = t.byteAt .obuf a := by
  rw [hf.outBase, hf.winEff] at hlow
  unfold State.outAddr at hhigh
  rw [hf.outBase] at hhigh
  obtain ⟨hmem, rfl, hlen⟩ | ⟨b, hmem, rfl, hlen⟩ := h
  · rw [hlen] at hhigh
    rw [byteAt_obuf_congr hmem, ← hout a hlow hhigh]
    rfl
  · have hmem' : (t.withBuffers ib (ob.store s.outAddr b)).obuf = (s.withBuffers ib ob).obuf.store s.outAddr b := rfl
    by_cases ha : a = s.outAddr
    · rw [ha, byteAt_obuf_store_same hmem, byteAt_obuf_store_same hmem']
    · rw [byteAt_obuf_store hmem ha, byteAt_obuf_store hmem' ha]
      exact hout a hlow (by unfold State.outAddr at ha ⊢; omega)

/-- Settles O51: both machines have the same turn, which writes the same byte to both. -/
theorem decodingDependsOnlyOnPayloadAndWindow : Obligations.DecodingDependsOnlyOnPayloadAndWindow := by
  rintro s s' hi - hb hne ⟨hsame, hin, hout⟩
  obtain ⟨t, ht⟩ := hi.sound.exists_turn hb
  obtain ⟨ib, hib⟩ : ∃ ib, ib = s'.ibuf := ⟨_, rfl⟩
  obtain ⟨ob, hob⟩ : ∃ ob, ob = s'.obuf := ⟨_, rfl⟩
  have hs' : s' = s.withBuffers ib ob := by rw [hib, hob]; exact hsame
  rw [hs'] at hin hout
  obtain ⟨ob', ht', houtput⟩ := hi.sound.turn_withBuffers hne ht hin hout
  have hf := ht.frame hb
  refine ⟨t, t.withBuffers ib ob', engineStep_of_turn hb ht, ?_, rfl, fun a hlow hhigh => ?_, houtput.agree hf hout⟩
  · rw [hs']
    exact engineStep_of_turn (s := s.withBuffers ib ob) hb ht'
  · rw [hf.inBase] at hlow hhigh
    rw [hf.inLen] at hhigh
    exact (hin a hlow hhigh).trans (byteAt_ibuf_congr hf.ibuf a).symm

end Sys2Proof.Machine
end

section
/-!
The frame host (spec/43_frame_host.md R251 to R270): the first checks of FRAME_DECODE, and what a rejected frame leaves.
-/

open Sys2Proof.Claims

namespace Sys2Proof.Machine

/-! ### Host programs keep the invariant -/

theorem State.Inv.after_runEngine {fuel : Nat} {s t : State} (hi : s.Inv) (h : runEngine fuel s = .next t) : t.Inv := by
  induction fuel generalizing s with
  | zero => cases h; exact hi
  | succ fuel ih =>
    unfold runEngine at h
    split at h
    · obtain ⟨u, hu, hinv⟩ := hi.after_engineStep
      rw [hu] at h
      exact ih hinv h
    · cases h; exact hi

theorem hostDo_of_ne_wait {a : HostAction} (h : a ≠ .wait) (s : State) : hostDo a s = hostAct a s := by
  cases a with
  | wait => exact absurd rfl h
  | _ => rfl

theorem State.Inv.after_hostDo {a : HostAction} {s t : State} (hi : s.Inv) (h : hostDo a s = .next t) : t.Inv := by
  by_cases ha : a = .wait
  · subst ha
    exact hi.after_runEngine h
  · rw [hostDo_of_ne_wait ha] at h
    exact hi.hostTurn (hostTurn_of_hostAct h)

theorem State.Inv.after_hostRun {program : List HostAction} {s t : State} (hi : s.Inv) (h : hostRun program s = .next t) :
    t.Inv := by
  induction program generalizing s with
  | nil => cases h; exact hi
  | cons a rest ih =>
    unfold hostRun at h
    cases hdo : hostDo a s with
    | next u => rw [hdo] at h; exact ih (hi.after_hostDo hdo) h
    | fault f => rw [hdo] at h; cases h
    | refused r => rw [hdo] at h; cases h

/-! ### A rejected frame (R270) -/

/-- If this rejects the frame, it leaves no error recorded. -/
def FrameResult.RejectsClean (r : FrameResult) : Prop :=
  ∀ reason st t, r = .rejected reason st t → t.status.err = false

theorem rejectFrame_rejectsClean {s : State} (hi : s.Inv) (reason : FrameError) (st : FrameState) :
    (Frame.rejectFrame reason st s).RejectsClean := by
  intro reason' st' t h
  obtain ⟨-, -, hrun, -⟩ := hi.status
  obtain ⟨-, -, herr⟩ := rejectFrame_err (fun hb => (hrun hb).2) h
  exact herr

theorem accepted_rejectsClean (out : List Byte) (s : State) : (FrameResult.accepted out s).RejectsClean := by
  intro reason st t h
  cases h

/-- What follows a host program starts from a state that meets the invariant. -/
theorem after_hostRun_rejectsClean {s : State} (hi : s.Inv) {program : List HostAction} {k : State → FrameResult}
    (hk : ∀ u, u.Inv → (k u).RejectsClean) : (Frame.after (hostRun program s) k).RejectsClean := by
  cases h : hostRun program s with
  | next u => exact hk u (hi.after_hostRun h)
  | fault f => intro reason st t hstop; cases hstop
  | refused r => intro reason st t hstop; cases hstop

theorem trailer_rejectsClean {s : State} (hi : s.Inv) (f : List Byte) (h : FrameHeader) (p total : Nat) (out : List Byte) :
    (Frame.trailer f h p total out s).RejectsClean := by
  have hsize : ∀ u : State, u.Inv → (if h.contentSize = none ∨ h.contentSize = some total then FrameResult.accepted out u
      else Frame.rejectFrame .sizeMismatch .finished u).RejectsClean := by
    intro u hu
    split
    · exact accepted_rejectsClean out u
    · exact rejectFrame_rejectsClean hu _ _
  unfold Frame.trailer
  dsimp only
  split
  · split
    · exact rejectFrame_rejectsClean hi _ _
    · refine after_hostRun_rejectsClean hi fun u hu => ?_
      split
      · exact rejectFrame_rejectsClean hu _ _
      · exact hsize u hu
  · exact hsize s hi

theorem blockOutput_rejectsClean {s : State} (hi : s.Inv) (h : FrameHeader) (stored : Bool) (d n pout : Nat)
    {k : Nat → List Byte → State → FrameResult} (hk : ∀ p bytes u, u.Inv → (k p bytes u).RejectsClean) :
    (Frame.blockOutput h stored d n pout s k).RejectsClean := by
  unfold Frame.blockOutput
  refine after_hostRun_rejectsClean hi fun u hu => ?_
  split
  · exact rejectFrame_rejectsClean hu _ _
  · exact after_hostRun_rejectsClean hu fun v hv => hk _ _ v hv

theorem blockChecksum_rejectsClean {s : State} (hi : s.Inv) (f : List Byte) (h : FrameHeader) (d n : Nat)
    {k : Nat → State → FrameResult} (hk : ∀ p u, u.Inv → (k p u).RejectsClean) :
    (Frame.blockChecksum f h d n s k).RejectsClean := by
  unfold Frame.blockChecksum
  split
  · split
    · exact rejectFrame_rejectsClean hi _ _
    · refine after_hostRun_rejectsClean hi fun u hu => ?_
      split
      · exact rejectFrame_rejectsClean hu _ _
      · exact hk _ u hu
  · exact hk _ s hi

theorem blocks_rejectsClean (f : List Byte) (h : FrameHeader) (fuel p pout total : Nat) (out : List Byte) {s : State}
    (hi : s.Inv) : (Frame.blocks f h fuel p pout total out s).RejectsClean := by
  induction fuel generalizing p pout total out s with
  | zero => exact rejectFrame_rejectsClean hi _ _
  | succ fuel ih =>
    unfold Frame.blocks
    dsimp only
    split
    · exact rejectFrame_rejectsClean hi _ _
    · split
      · exact trailer_rejectsClean hi f h _ _ _
      · split
        · exact rejectFrame_rejectsClean hi _ _
        · split
          · exact rejectFrame_rejectsClean hi _ _
          · exact blockChecksum_rejectsClean hi f h _ _ fun _ u hu =>
              blockOutput_rejectsClean hu h _ _ _ _ fun _ _ v hv => ih _ _ _ _ hv

/-- Settles O58: every rejection is `rejectFrame`'s, from a state that meets the invariant. -/
theorem rejectedFrameLeavesNoErrorRecorded : Obligations.RejectedFrameLeavesNoErrorRecorded := by
  intro s t n reason st hi h
  suffices hclean : (frameDecode n s).RejectsClean from hclean reason st t h
  unfold frameDecode
  dsimp only
  split
  · exact rejectFrame_rejectsClean hi _ _
  · next header _ =>
    refine after_hostRun_rejectsClean hi fun u hu => ?_
    split
    · exact rejectFrame_rejectsClean hu _ _
    · exact after_hostRun_rejectsClean hu fun v hv => blocks_rejectsClean _ header _ _ _ _ _ hv

/-! ### The first checks (R251, R253, R268) -/

theorem rejectFrame_eq (reason : FrameError) (st : FrameState) (s : State) :
    Frame.rejectFrame reason st s = .rejected reason st (acknowledged s) := by
  unfold acknowledged
  cases he : s.status.err with
  | false => exact rejectFrame_clear he
  | true =>
    cases hb : s.status.busy with
    | true => rw [Frame.rejectFrame, if_pos he, hostDo_ack, show exec .ack s = .next (reject s) from acceptCommand_busy hb]; rfl
    | false => rw [rejectFrame_error he hb]; rfl

/-- A header that is refused before HC ends the frame. -/
theorem frameDecode_of_header_error {n : Nat} {s : State} {reason : FrameError} {st : FrameState}
    (h : Frame.header (s.bytesAt .ibuf 0 n) = .error (reason, st)) :
    frameDecode n s = .rejected reason st (acknowledged s) := by
  unfold frameDecode
  dsimp only
  rw [h]
  exact rejectFrame_eq reason st s

theorem take_none {f : List Byte} {p k : Nat} (h : f.length < p + k) : Frame.take f p k = none := if_neg (by omega)

theorem take_some {f : List Byte} {p k : Nat} (h : p + k ≤ f.length) : Frame.take f p k = some ((f.drop p).take k) := if_pos h

theorem header_of_short {f : List Byte} (h : f.length < 4) :
    Frame.header f = .error (.unexpectedEndOfStream, .expectMagic) := by
  unfold Frame.header
  rw [take_none (by omega)]

theorem header_of_badMagic {f : List Byte} (h : 4 ≤ f.length) (hm : f.take 4 ≠ Frame.magic) :
    Frame.header f = .error (.badMagic, .expectMagic) := by
  unfold Frame.header
  rw [take_some (by omega)]
  exact if_neg hm

theorem header_of_magic {f : List Byte} (h : 4 ≤ f.length) (hm : f.take 4 = Frame.magic) :
    Frame.header f = Frame.descriptor f := by
  unfold Frame.header
  rw [take_some (by omega)]
  exact if_pos hm

theorem descriptor_of_end {f : List Byte} (h : f.length < 5) :
    Frame.descriptor f = .error (.unexpectedEndOfStream, .expectDescriptor) := by
  unfold Frame.descriptor
  rw [take_none (by omega)]

theorem descriptor_of_version {f : List Byte} {flg : Byte} (h : Frame.take f 4 1 = some [flg])
    (hv : flg.toNat / 64 ≠ 1) : Frame.descriptor f = .error (.unsupportedVersion, .expectDescriptor) := by
  unfold Frame.descriptor
  rw [h]
  refine if_pos fun hbits => hv ?_
  have hnat := congrArg BitVec.toNat hbits
  rw [BitVec.extractLsb'_toNat, Nat.shiftRight_eq_div_pow] at hnat
  have := flg.isLt
  simp at hnat
  omega

theorem take_byte (s : State) {n p : Nat} (h : p < n) :
    Frame.take (s.bytesAt .ibuf 0 n) p 1 = some [s.byteAt .ibuf p] := by
  rw [take_some (by rw [length_bytesAt]; omega), List.drop_eq_getElem_cons (by rw [length_bytesAt]; exact h), getElem_bytesAt,
    Nat.zero_add]
  rfl

/-- Settles O57. -/
theorem frameHeaderChecksComeInOrder : Obligations.FrameHeaderChecksComeInOrder := by
  intro s n f
  have hlen : f.length = n := length_bytesAt s .ibuf 0 n
  refine ⟨fun hn => ?_, fun hn hm => ?_, fun hn hm => ?_, fun hn hm hv => ?_⟩
  · exact frameDecode_of_header_error (header_of_short (f := f) (by omega))
  · exact frameDecode_of_header_error (header_of_badMagic (f := f) (by omega) hm)
  · refine frameDecode_of_header_error ((header_of_magic (f := f) (by omega) hm).trans ?_)
    exact descriptor_of_end (by omega)
  · refine frameDecode_of_header_error ((header_of_magic (f := f) (by omega) hm).trans ?_)
    exact descriptor_of_version (take_byte s (by omega)) hv

end Sys2Proof.Machine
end

section
/-!
The closed form Decode as a machine over byte strings (spec/41_block_decode.md R192): what is left of Decode's result from each state of the
engine, and how one turn of that machine carries it on. No engine state occurs here.
-/

namespace Sys2Proof.Machine

/-- What a run of Decode does not change: the window, the output bound and the length of the input. -/
structure DecodeArgs where
  win : List Byte
  max : Nat
  size : Nat

/-- The rest of Decode after a length, which is `none` when the input ends inside it. -/
def DecodeArgs.lengthThen (D : DecodeArgs) (st : EngState) (out : List Byte) (k : Nat → List Byte → Decoded) :
    Option (Nat × List Byte) → Decoded
  | none => .err .truncated st D.size out
  | some (m, rest) => k m rest

/-- The rest of Decode from MCHK: the three checks of a match, the copy, and the loop (R188, R189). -/
def DecodeArgs.matchThen (D : DecodeArgs) (f : Nat) (o : BitVec 16) (out : List Byte) (mraw : Nat) (rest : List Byte) : Decoded :=
  if o = 0 then .err .offsetZero .mchk (D.size - rest.length) out
  else if out.length + D.win.length < o.toNat then .err .offsetRange .mchk (D.size - rest.length) out
  else if D.max < out.length + (mraw + Config.minMatch) then .err .outputLimit .mchk (D.size - rest.length) out
  else decodeLoop D.win D.max D.size f rest (copyMatch D.win o.toNat (mraw + Config.minMatch) out)

/-- The rest of Decode from OFF1, with the low byte of the offset (R186). -/
def DecodeArgs.offsetHighThen (D : DecodeArgs) (f : Nat) (tok : Byte) (lo : BitVec 16) (out : List Byte) : List Byte → Decoded
  | [] => .err .truncated .off1 D.size out
  | hi :: rest =>
    D.lengthThen .mext out (D.matchThen f (lo ||| hi.zeroExtend 16 <<< 8) out) (Decode.length (Decode.matchNibble tok) rest)

/-- The rest of Decode from OFF0 (R185). -/
def DecodeArgs.offsetThen (D : DecodeArgs) (f : Nat) (tok : Byte) (out : List Byte) : List Byte → Decoded
  | [] => .ok out
  | lo :: rest => D.offsetHighThen f tok (lo.zeroExtend 16) out rest

/-- The rest of Decode from LITCHK (R183). -/
def DecodeArgs.literalsThen (D : DecodeArgs) (f : Nat) (tok : Byte) (out : List Byte) (lit : Nat) (rest : List Byte) : Decoded :=
  if rest.length < lit then .err .truncated .litchk (D.size - rest.length) out
  else if D.max < out.length + lit then .err .outputLimit .litchk (D.size - rest.length) out
  else D.offsetThen f tok (out ++ rest.take lit) (rest.drop lit)

theorem offsetOf_eq_or (o0 o1 : Byte) : Decode.offsetOf o0 o1 = o0.zeroExtend 16 ||| o1.zeroExtend 16 <<< 8 := by
  refine BitVec.eq_of_getLsbD_eq fun i hi => ?_
  simp only [Decode.offsetOf, BitVec.getLsbD_append, BitVec.getLsbD_or, BitVec.getLsbD_shiftLeft, BitVec.getLsbD_setWidth]
  grind

/-- A turn of Decode's loop, in its parts (R192). -/
theorem decodeLoop_cons (D : DecodeArgs) (f : Nat) (tok : Byte) (rest out : List Byte) :
    decodeLoop D.win D.max D.size (f + 1) (tok :: rest) out =
      D.lengthThen .lext out (D.literalsThen f tok out) (Decode.length (Decode.literalNibble tok) rest) := by
  rw [decodeLoop]
  cases hlen : Decode.length (Decode.literalNibble tok) rest with
  | none => rfl
  | some p =>
    obtain ⟨lit, r2⟩ := p
    show _ = D.literalsThen f tok out lit r2
    unfold DecodeArgs.literalsThen
    refine if_congr Iff.rfl rfl (if_congr Iff.rfl rfl ?_)
    match r2.drop lit with
    | [] => rfl
    | [_] => rfl
    | o0 :: o1 :: r3 =>
      simp only [DecodeArgs.offsetThen, DecodeArgs.offsetHighThen, ← offsetOf_eq_or]
      cases Decode.length (Decode.matchNibble tok) r3 with
      | none => rfl
      | some p => rfl

/-! ### The result from each state -/

/-- What Decode gives from a state of the engine: `tok` and `o` are the token and the offset so far, `c` the count, and `f` fuel for the
loop. -/
def DecodeArgs.resumeAt (D : DecodeArgs) (tok : Byte) (o : BitVec 16) (f c : Nat) (rest out : List Byte) : EngState → Decoded
  | .token => decodeLoop D.win D.max D.size f rest out
  | .lext => D.lengthThen .lext out (D.literalsThen f tok out) (Decode.extension rest c)
  | .litchk => D.literalsThen f tok out c rest
  | .lit => D.offsetThen f tok (out ++ rest.take c) (rest.drop c)
  | .off0 => D.offsetThen f tok out rest
  | .off1 => D.offsetHighThen f tok o out rest
  | .mext => D.lengthThen .mext out (D.matchThen f o out) (Decode.extension rest c)
  | .mchk => D.matchThen f o out c rest
  | .copy => decodeLoop D.win D.max D.size f rest (copyMatch D.win o.toNat c out)
  | .idle | .raw | .habs => .ok out

section
variable (D : DecodeArgs) (tok : Byte) (o : BitVec 16) (f c : Nat) (rest out : List Byte)

theorem resumeAt_truncated {st : EngState} (hst : st ∈ [EngState.token, .lext, .off1, .mext]) :
    D.resumeAt tok o (f + 1) c [] out st = .err .truncated st D.size out := by
  simp only [List.mem_cons, List.not_mem_nil, or_false] at hst
  rcases hst with rfl | rfl | rfl | rfl <;> rfl

/-- R123, R127: a nibble of 15 goes on with extension bytes, and every other is the length. -/
theorem lengthThen_nibble (nib : BitVec 4) (st : EngState) (k : Nat → List Byte → Decoded) :
    D.lengthThen st out k (Decode.length nib rest) =
      if nib = 15 then D.lengthThen st out k (Decode.extension rest nib.toNat) else k nib.toNat rest := by
  unfold Decode.length
  by_cases h : nib = 15
  · subst h; rfl
  · have hne : nib.toNat ≠ Config.nibbleEsc := fun heq => h (BitVec.eq_of_toNat_eq heq)
    rw [if_neg hne, if_neg h]
    rfl

theorem resumeAt_token (b : Byte) (o' : BitVec 16) :
    D.resumeAt tok o (f + 1) c (b :: rest) out .token =
      D.resumeAt b o' f (Decode.literalNibble b).toNat rest out (if Decode.literalNibble b = 15 then .lext else .litchk) := by
  refine (decodeLoop_cons D f b rest out).trans ((lengthThen_nibble D rest out _ _ _).trans ?_)
  split <;> rfl

/-- R122, R126: an extension byte of 255 goes on, and every other ends the run. -/
theorem lengthThen_extension (st : EngState) (k : Nat → List Byte → Decoded) (e : Byte) :
    D.lengthThen st out k (Decode.extension (e :: rest) c) =
      if e = Config.extCont then D.lengthThen st out k (Decode.extension rest (c + e.toNat)) else k (c + e.toNat) rest := by
  rw [Decode.extension]
  split <;> rfl

theorem resumeAt_extension {st last : EngState} (hst : (st, last) ∈ [(EngState.lext, EngState.litchk), (.mext, .mchk)])
    (e : Byte) :
    D.resumeAt tok o f c (e :: rest) out st =
      D.resumeAt tok o f (c + e.toNat) rest out (if e = Config.extCont then st else last) := by
  simp only [List.mem_cons, Prod.mk.injEq, List.not_mem_nil, or_false] at hst
  obtain ⟨rfl, rfl⟩ | ⟨rfl, rfl⟩ := hst
  all_goals
    refine (lengthThen_extension D c rest out _ _ e).trans ?_
    split <;> rfl

theorem resumeAt_litchk_truncated (h : rest.length < c) :
    D.resumeAt tok o f c rest out .litchk = .err .truncated .litchk (D.size - rest.length) out := if_pos h

theorem resumeAt_litchk_limit (hleft : c ≤ rest.length) (h : D.max < out.length + c) :
    D.resumeAt tok o f c rest out .litchk = .err .outputLimit .litchk (D.size - rest.length) out :=
  (if_neg (by omega)).trans (if_pos h)

theorem resumeAt_litchk_fits (hleft : c ≤ rest.length) (hroom : out.length + c ≤ D.max) :
    D.resumeAt tok o f c rest out .litchk = D.resumeAt tok o f c rest out (if c = 0 then .off0 else .lit) := by
  refine ((if_neg (by omega)).trans (if_neg (by omega))).trans ?_
  split
  · next h =>
    subst h
    rw [List.take_zero, List.append_nil, List.drop_zero]
    rfl
  · rfl

theorem resumeAt_lit (b : Byte) :
    D.resumeAt tok o f (c + 1) (b :: rest) out .lit =
      D.resumeAt tok o f c rest (out ++ [b]) (if c = 0 then .off0 else .lit) := by
  have hstep : D.resumeAt tok o f (c + 1) (b :: rest) out .lit = D.resumeAt tok o f c rest (out ++ [b]) .lit := by
    unfold DecodeArgs.resumeAt
    rw [List.take_succ_cons, List.drop_succ_cons, List.append_cons]
  rw [hstep]
  split
  · next h =>
    subst h
    unfold DecodeArgs.resumeAt
    rw [List.take_zero, List.append_nil, List.drop_zero]
  · rfl

theorem resumeAt_off1 (hi : Byte) :
    D.resumeAt tok o f c (hi :: rest) out .off1 =
      D.resumeAt tok (o ||| hi.zeroExtend 16 <<< 8) f (Decode.matchNibble tok).toNat rest out
        (if Decode.matchNibble tok = 15 then .mext else .mchk) := by
  refine (lengthThen_nibble D rest out (Decode.matchNibble tok) _ _).trans ?_
  split <;> rfl

theorem resumeAt_offsetZero (h : o = 0) :
    D.resumeAt tok o f c rest out .mchk = .err .offsetZero .mchk (D.size - rest.length) out := if_pos h

theorem resumeAt_offsetRange (hnz : o ≠ 0) (h : out.length + D.win.length < o.toNat) :
    D.resumeAt tok o f c rest out .mchk = .err .offsetRange .mchk (D.size - rest.length) out := (if_neg hnz).trans (if_pos h)

theorem resumeAt_matchLimit (hnz : o ≠ 0) (hreach : o.toNat ≤ out.length + D.win.length) (h : D.max < out.length + (c + 4)) :
    D.resumeAt tok o f c rest out .mchk = .err .outputLimit .mchk (D.size - rest.length) out :=
  (if_neg hnz).trans ((if_neg (by omega)).trans (if_pos h))

theorem resumeAt_matchFits (hnz : o ≠ 0) (hreach : o.toNat ≤ out.length + D.win.length) (hroom : out.length + (c + 4) ≤ D.max) :
    D.resumeAt tok o f c rest out .mchk = D.resumeAt tok o f (c + 4) rest out .copy :=
  (if_neg hnz).trans ((if_neg (by omega)).trans (if_neg (by unfold Config.minMatch; omega)))

theorem resumeAt_copy {b : Byte} (hb : b = (D.win ++ out).getD ((D.win ++ out).length - o.toNat) 0) :
    D.resumeAt tok o f (c + 1) rest out .copy =
      D.resumeAt tok o f c rest (out ++ [b]) (if c = 0 then .token else .copy) := by
  subst hb
  split
  · next h => subst h; rfl
  · rfl

end

end Sys2Proof.Machine
end

section
/-!
A whole DEC_START agrees with Decode (spec/41_block_decode.md R192, R193, R197): every turn of the engine keeps what Decode gives from its state,
and the turn that ends the command ends it as Decode does.
-/

open Sys2Proof.Claims

namespace Sys2Proof.Machine

/-! ### Input, output and window of a running decode -/

/-- `OUT(0) .. OUT(OUT_LEN - 1)`, the output so far. -/
def State.output (s : State) : List Byte := s.bytesAt .obuf s.outBase.toNat s.outLen.toNat

/-- What Decode is given for a running decode: the window below OUT_BASE, MAX_SIZE and IN_LEN. -/
def State.decodeArgs (s : State) : DecodeArgs :=
  { win := s.bytesAt .obuf (s.outBase.toNat - s.winEff.toNat) s.winEff.toNat, max := s.maxSize.toNat, size := s.inLen.toNat }

theorem length_output (s : State) : s.output.length = s.outLen.toNat := length_bytesAt ..

theorem length_win (s : State) : s.decodeArgs.win.length = s.winEff.toNat := length_bytesAt ..

theorem length_inputLeft (s : State) : s.inputLeft.length = s.inLen.toNat - s.inPos.toNat := length_bytesAt ..

theorem inputLeft_of_end {s : State} (h : s.inPos = s.inLen) : s.inputLeft = [] := by
  rw [← List.length_eq_zero_iff, length_inputLeft, h, Nat.sub_self]

theorem inputLeft_congr {s t : State} (hf : EngineFrame s t) (h : t.inPos = s.inPos) : t.inputLeft = s.inputLeft := by
  unfold State.inputLeft State.inAddr
  rw [hf.inBase, hf.inLen, h, bytesAt_ibuf_congr hf.ibuf]

/-- R49: the byte a turn consumes is the first one left. -/
theorem inputLeft_of_consumed {s t : State} (hf : EngineFrame s t) (hlt : s.inPos.toNat < s.inLen.toNat)
    (h : t.inPos = s.inPos + 1) : s.inputLeft = s.byteAt .ibuf s.inAddr :: t.inputLeft := by
  have hlen := s.inLen.isLt
  have hpos : t.inPos.toNat = s.inPos.toNat + 1 := by rw [h]; bv_omega
  have hleft : s.inLen.toNat - s.inPos.toNat = s.inLen.toNat - t.inPos.toNat + 1 := by omega
  have haddr : t.inAddr = s.inAddr + 1 := inAddr_of_inPos hf.inBase (k := 1) h (by omega)
  unfold State.inputLeft
  rw [hleft, bytesAt_succ, hf.inLen, haddr, bytesAt_ibuf_congr hf.ibuf]

theorem bytesAt_congr {s t : State} {sp : Space} {a n : Nat} (h : ∀ k, k < n → t.byteAt sp (a + k) = s.byteAt sp (a + k)) :
    t.bytesAt sp a n = s.bytesAt sp a n :=
  List.map_congr_left fun k hk => h k (List.mem_range.mp hk)

theorem getD_bytesAt (s : State) (sp : Space) (a n : Nat) {k : Nat} (h : k < n) (d : Byte) :
    (s.bytesAt sp a n).getD k d = s.byteAt sp (a + k) := by
  rw [List.getD_eq_getElem _ _ (by rw [length_bytesAt]; exact h), getElem_bytesAt]

theorem output_congr {s t : State} (hf : EngineFrame s t) (hmem : t.obuf = s.obuf) (hlen : t.outLen = s.outLen) :
    t.output = s.output := by
  unfold State.output
  rw [hf.outBase, hlen]
  exact bytesAt_congr fun k _ => byteAt_obuf_congr hmem _

/-- R46: a byte stored at `OUT(OUT_LEN)` is appended to the output. -/
theorem output_of_store {s t : State} {b : Byte} (hf : EngineFrame s t) (hmem : t.obuf = s.obuf.store s.outAddr b)
    (hlen : t.outLen.toNat = s.outLen.toNat + 1) : t.output = s.output ++ [b] := by
  unfold State.output
  rw [hf.outBase, hlen, bytesAt_add]
  congr 1
  · refine bytesAt_congr fun k hk => byteAt_obuf_store hmem ?_
    unfold State.outAddr
    omega
  · show [t.byteAt .obuf s.outAddr] = [b]
    rw [byteAt_obuf_store_same hmem]

/-- R194: no turn of a decode writes the window. -/
theorem State.Sound.decodeArgs_of_turn {s t : State} (hi : s.Sound) (hb : s.status.busy = true)
    (hs : s.status.state ∈ decodeStates) (h : Turn s t) : t.decodeArgs = s.decodeArgs := by
  have hf := h.frame hb
  obtain ⟨-, -, hwin, -⟩ := hi.decodeOk hs
  unfold State.decodeArgs
  rw [hf.outBase, hf.winEff, hf.maxSize, hf.inLen]
  congr 1
  refine bytesAt_congr fun k hk => ?_
  obtain ⟨hmem, -⟩ | ⟨⟨b, hmem⟩, -⟩ := h.output hi
  · exact byteAt_obuf_congr hmem _
  · refine byteAt_obuf_store hmem ?_
    unfold State.outAddr
    omega

/-- R189: a COPY step's source is the byte one offset back in the window and the output. -/
theorem State.Sound.matchByte_eq {s : State} (hi : s.Sound) (hst : s.status.state = .copy) :
    s.byteAt .obuf s.matchAddr = (s.decodeArgs.win ++ s.output).getD
      ((s.decodeArgs.win ++ s.output).length - s.dOffset.toNat) 0 := by
  obtain ⟨-, -, hwin, -⟩ := hi.decodeOk (by simp [decodeStates, hst])
  obtain ⟨-, -, hnz, hreach⟩ := hi.matchOk hst
  have hhistory : s.decodeArgs.win ++ s.output =
      s.bytesAt .obuf (s.outBase.toNat - s.winEff.toNat) (s.winEff.toNat + s.outLen.toNat) := by
    rw [bytesAt_add, Nat.sub_add_cancel hwin]
    rfl
  rw [hhistory, length_bytesAt, getD_bytesAt _ _ _ _ (by omega)]
  congr 1
  unfold State.matchAddr
  omega

/-! ### The engine carries Decode on -/

/-- What Decode gives from a state of a running decode is `d`. D_COUNT is the count, saturated (R191). -/
def Pending (d : Decoded) (s : State) : Prop :=
  s.status.state ∈ decodeStates ∧ ∃ f c, s.inputLeft.length < f ∧ s.dCount = sat32 c ∧
    s.decodeArgs.resumeAt s.dToken s.dOffset f c s.inputLeft s.output s.status.state = d

/-- A decode that has ended has ended with `d`. -/
def Ended (s : State) : Decoded → Prop
  | .ok out => s.status.done = true ∧ s.inPos = s.inLen ∧ s.output = out
  | .err code st p out =>
    s.status.err = true ∧ s.status.done = false ∧ s.status.errCode = code ∧ s.status.errState = st ∧
      s.inPos.toNat = p ∧ s.output = out

/-- The decode goes on, or has ended, as Decode does. -/
def Continues (d : Decoded) (t : State) : Prop :=
  (t.status.busy = true ∧ Pending d t) ∨ (t.status.busy = false ∧ Ended t d)

/-- R291: the error recorded is the one found in this state, with the cursor and the output as they are. -/
theorem continues_raiseError {u : State} {code : ErrCode} {st : EngState} {p : Nat} {out : List Byte}
    (hdone : u.status.done = false) (hcode : code ≠ .config) (hst : u.status.state = st) (hpos : u.inPos.toNat = p)
    (hout : u.output = out) : Continues (.err code st p out) (raiseError code u) :=
  .inr ⟨rfl, rfl, hdone, rfl, (if_neg hcode).trans hst, hpos, hout⟩

/-- `p = n - |rest|`: the position is what has been consumed. -/
theorem size_sub_length_inputLeft {s : State} (h : s.inPos.toNat ≤ s.inLen.toNat) :
    s.inLen.toNat - s.inputLeft.length = s.inPos.toNat := by
  rw [length_inputLeft]
  omega

/-- The saturation of a count is above everything it is compared with. -/
theorem sat32_cases (c : Nat) : (sat32 c).toNat = c ∨ (2 ^ 32 - 1 ≤ c ∧ (sat32 c).toNat = 2 ^ 32 - 1) := by
  rw [toNat_sat32]
  omega

theorem sat32_eq_zero_iff {c : Nat} : sat32 c = 0 ↔ c = 0 := by
  rw [← BitVec.toNat_inj, toNat_sat32, BitVec.ofNat_eq_ofNat, BitVec.toNat_zero]
  omega

/-- R5, R161: the sizes of a running decode are far below the saturation. -/
theorem State.Sound.sizes_le {s : State} (hi : s.Sound) (hs : s.status.state ∈ decodeStates) :
    s.inLen.toNat ≤ 2 ^ 31 ∧ s.maxSize.toNat ≤ 2 ^ 31 := by
  obtain ⟨hin, hout, -⟩ := hi.decodeOk hs
  obtain ⟨-, hib, -, hob⟩ := hi.params
  omega

/-- A turn that goes on with Decode's rest. -/
theorem continues_pending {s t : State} {d : Decoded} {f c : Nat} {rest out : List Byte} (hb : t.status.busy = true)
    (hst : t.status.state ∈ decodeStates) (hargs : t.decodeArgs = s.decodeArgs) (hrest : t.inputLeft = rest)
    (hout : t.output = out) (hfuel : rest.length < f) (hcount : t.dCount = sat32 c)
    (hd : s.decodeArgs.resumeAt t.dToken t.dOffset f c rest out t.status.state = d) : Continues d t :=
  .inl ⟨hb, hst, f, c, by rw [hrest]; exact hfuel, hcount, by rw [hargs, hrest, hout]; exact hd⟩

theorem sat32_nibble (nib : BitVec 4) : nib.zeroExtend 32 = sat32 nib.toNat := by
  have := nib.isLt
  refine BitVec.eq_of_toNat_eq ?_
  rw [toNat_sat32, BitVec.toNat_setWidth]
  omega

/-- R188, R191: the completed match length, saturated. -/
theorem matchCompleted_sat32 {s : State} {c : Nat} (h : s.dCount = sat32 c) : (matchCompleted s).dCount = sat32 (c + 4) := by
  unfold matchCompleted
  rw [h]
  exact sat32_sat32_add c 4

/-- A count that is not saturated is counted down with its register. -/
theorem sat32_pred {w : Word} {c : Nat} (h : w = sat32 c) (hpos : 1 ≤ w.toNat) (hle : w.toNat ≤ 2 ^ 31) :
    ∃ k, c = k + 1 ∧ w - 1 = sat32 k ∧ (w = 1 ↔ k = 0) := by
  have hval : w.toNat = min c (2 ^ 32 - 1) := by rw [h, toNat_sat32]
  have hone : (1 : Word).toNat = 1 := rfl
  refine ⟨c - 1, by omega, BitVec.eq_of_toNat_eq ?_, fun h1 => ?_, fun h0 => BitVec.eq_of_toNat_eq ?_⟩
  · rw [toNat_sat32, BitVec.toNat_sub_of_le (by rw [BitVec.le_def]; omega)]
    omega
  · rw [h1] at hval
    omega
  · omega

/-- R192: every turn of a decode carries on what Decode gives from the state before it. -/
theorem State.Sound.continues {s t : State} {d : Decoded} (hi : s.Sound) (hb : s.status.busy = true) (hp : Pending d s)
    (h : Turn s t) : Continues d t := by
  obtain ⟨hs, f, c, hfuel, hcount, hd⟩ := hp
  have hf := h.frame hb
  have hargs := hi.decodeArgs_of_turn hb hs h
  obtain ⟨hdone, -⟩ := hi.status.2.2.1 hb
  obtain ⟨-, -, -, -, hpos, -⟩ := hi.decodeOk hs
  obtain ⟨hinLen, hmaxSize⟩ := hi.sizes_le hs
  have hsize := size_sub_length_inputLeft hpos
  have hsat := sat32_cases c
  have hmax : s.decodeArgs.max = s.maxSize.toNat := rfl
  have hout := length_output s
  have hwin := length_win s
  have hrest := length_inputLeft s
  rw [← hcount] at hsat
  cases h with
  | truncated hst hend =>
    obtain ⟨g, rfl⟩ : ∃ g, f = g + 1 := ⟨f - 1, by omega⟩
    rw [inputLeft_of_end hend, resumeAt_truncated _ _ _ _ _ _ hst] at hd
    subst hd
    exact continues_raiseError hdone nofun rfl (congrArg BitVec.toNat hend) rfl
  | endOfBlock hst hend =>
    rw [inputLeft_of_end hend, hst] at hd
    subst hd
    exact .inr ⟨rfl, rfl, hend, rfl⟩
  | token hst hne hin =>
    have hcons := inputLeft_of_consumed hf (hi.inPos_lt hs hne) rfl
    rw [hcons, List.length_cons] at hfuel
    obtain ⟨g, rfl⟩ : ∃ g, f = g + 1 := ⟨f - 1, by omega⟩
    rw [hcons, hst, resumeAt_token _ _ _ _ _ _ _ _ s.dOffset] at hd
    refine continues_pending hb ?_ hargs rfl (output_congr hf rfl rfl) (Nat.lt_of_succ_lt_succ hfuel) (sat32_nibble _) hd
    unfold tokenTaken; dsimp only; split <;> simp [decodeStates]
  | extension last hst hne hin =>
    have hcons := inputLeft_of_consumed hf (hi.inPos_lt hs hne) rfl
    have hstatus := extensionTaken_status (s.byteAt .ibuf s.inAddr) last s
    rw [hcons, List.length_cons] at hfuel
    rw [hcons, resumeAt_extension _ _ _ _ _ _ _ hst] at hd
    refine continues_pending (f := f) (c := c + (s.byteAt .ibuf s.inAddr).toNat) (by rw [hstatus]; exact hb) ?_ hargs rfl
      (output_congr hf rfl rfl) (by omega) ?_ (by rw [hstatus]; exact hd)
    · rw [hstatus]
      dsimp only
      simp only [List.mem_cons, Prod.mk.injEq, List.not_mem_nil, or_false] at hst
      obtain ⟨hst, rfl⟩ | ⟨hst, rfl⟩ := hst <;> rw [hst] <;> split <;> simp [decodeStates]
    · show sat32 (s.dCount.toNat + _) = _
      rw [hcount, sat32_sat32_add]
  | literalsTruncated hst hover =>
    rw [hst, resumeAt_litchk_truncated _ _ _ _ _ _ _ (by omega)] at hd
    subst hd
    exact continues_raiseError hdone nofun hst hsize.symm rfl
  | literalsLimit hst hleft hover =>
    rw [hst, resumeAt_litchk_limit _ _ _ _ _ _ _ (by omega) (by omega)] at hd
    subst hd
    exact continues_raiseError hdone nofun hst hsize.symm rfl
  | literalsFit hst hleft hroom =>
    have hc : c = 0 ↔ s.dCount = 0 := by rw [hcount, sat32_eq_zero_iff]
    rw [hst, resumeAt_litchk_fits _ _ _ _ _ _ _ (by omega) (by omega)] at hd
    refine continues_pending hb ?_ hargs (inputLeft_congr hf rfl) (output_congr hf rfl rfl) hfuel hcount ?_
    · rw [enter_status_state]; split <;> simp [decodeStates]
    · simp only [hc] at hd
      exact hd
  | literal hst hin haddr =>
    obtain ⟨hleft, hpos', hroom⟩ := hi.literalOk hst
    obtain ⟨k, rfl, hcount', hlast⟩ := sat32_pred hcount hleft (by omega)
    have hcons := inputLeft_of_consumed hf (by omega) rfl
    have hstatus := byteAppended_status (s.byteAt .ibuf s.inAddr) .off0 (advanceInput s)
    rw [hcons, List.length_cons] at hfuel
    rw [hcons, hst, resumeAt_lit] at hd
    simp only [advanceInput_status, advanceInput_dCount, hlast, hst] at hstatus
    refine continues_pending (f := f) (c := k) (by rw [hstatus]; exact hb) ?_ hargs rfl (output_of_store hf rfl ?_) (by omega)
      hcount' (by rw [hstatus]; exact hd)
    · rw [hstatus]; dsimp only; split <;> simp [decodeStates]
    · simp only [byteAppended, advanceInput_outLen]; bv_omega
  | offsetLow hst hne hin =>
    have hcons := inputLeft_of_consumed hf (hi.inPos_lt hs hne) rfl
    rw [hcons, List.length_cons] at hfuel
    rw [hcons, hst] at hd
    exact continues_pending hb (by simp [offsetLowTaken, decodeStates]) hargs rfl (output_congr hf rfl rfl) (by omega) hcount hd
  | offsetHigh hst hne hin =>
    have hcons := inputLeft_of_consumed hf (hi.inPos_lt hs hne) rfl
    rw [hcons, List.length_cons] at hfuel
    rw [hcons, hst, resumeAt_off1] at hd
    refine continues_pending hb ?_ hargs rfl (output_congr hf rfl rfl) (by omega) (sat32_nibble _) hd
    unfold offsetHighTaken; dsimp only; split <;> simp [decodeStates]
  | offsetZero hst hzero =>
    rw [hst, resumeAt_offsetZero _ _ _ _ _ _ _ hzero] at hd
    subst hd
    exact continues_raiseError (u := matchCompleted s) hdone nofun hst hsize.symm rfl
  | offsetRange hst hnz hfar =>
    rw [hst, resumeAt_offsetRange _ _ _ _ _ _ _ hnz (by omega)] at hd
    subst hd
    exact continues_raiseError (u := matchCompleted s) hdone nofun hst hsize.symm rfl
  | matchLimit hst hnz hreach hover =>
    have hmatch := sat32_cases (c + 4)
    rw [← matchCompleted_sat32 hcount] at hmatch
    rw [hst, resumeAt_matchLimit _ _ _ _ _ _ _ hnz (by omega) (by omega)] at hd
    subst hd
    exact continues_raiseError (u := matchCompleted s) hdone nofun hst hsize.symm rfl
  | matchFits hst hnz hreach hroom =>
    have hmatch := sat32_cases (c + 4)
    rw [← matchCompleted_sat32 hcount] at hmatch
    rw [hst, resumeAt_matchFits _ _ _ _ _ _ _ hnz (by omega) (by omega)] at hd
    refine continues_pending hb (by simp [decodeStates]) hargs (inputLeft_congr hf rfl) (output_congr hf rfl rfl) hfuel
      (matchCompleted_sat32 hcount) hd
  | copy hst haddr =>
    obtain ⟨hleft, hroom, -⟩ := hi.matchOk hst
    obtain ⟨k, rfl, hcount', hlast⟩ := sat32_pred hcount hleft (by omega)
    have hstatus := byteAppended_status (s.byteAt .obuf s.matchAddr) .token s
    rw [hst, resumeAt_copy _ _ _ _ _ _ _ (hi.matchByte_eq hst)] at hd
    simp only [hlast, hst] at hstatus
    refine continues_pending (f := f) (c := k) (by rw [hstatus]; exact hb) ?_ hargs (inputLeft_congr hf rfl)
      (output_of_store hf rfl ?_) hfuel hcount' (by rw [hstatus]; exact hd)
    · rw [hstatus]; dsimp only; split <;> simp [decodeStates]
    · simp only [byteAppended]; bv_omega
  | rawLimit hst hpos hover => rw [hst] at hs; simp [decodeStates] at hs
  | rawEnd hst hfits hend => rw [hst] at hs; simp [decodeStates] at hs
  | rawByte hst hfits hne hin hout => rw [hst] at hs; simp [decodeStates] at hs
  | habs hst hin => rw [hst] at hs; simp [decodeStates] at hs

theorem Reaches.continues {s t : State} {d : Decoded} (hi : s.Sound) (hp : Continues d s) (h : Reaches s t) :
    Continues d t := by
  induction h with
  | refl => exact hp
  | @tail u t hreach hgo ih =>
    obtain ⟨hb, hturn⟩ := hgo
    obtain ⟨-, hpending⟩ | ⟨hidle, -⟩ := ih
    · exact (hi.reaches hreach).continues hb hpending hturn
    · rw [hb] at hidle; cases hidle

/-! ### The whole command -/

/-- The window DEC_START takes: WIN_LEN in linked mode and else none (R155). -/
def State.startWindow (s : State) : Word := if s.ctrl.linked then s.winLen else 0

/-- R153, R155, R192: an accepted DEC_START has the whole of Decode before it. -/
theorem pending_decStarted (s : State) :
    Pending (decodeClosed (s.bytesAt .ibuf s.inBase.toNat s.inLen.toNat)
      (if s.ctrl.linked then s.bytesAt .obuf (s.outBase.toNat - s.winLen.toNat) s.winLen.toNat else []) s.maxSize.toNat)
      (engineStarted 0x01 .token s.startWindow s) := by
  obtain ⟨u, hu⟩ : ∃ u, u = engineStarted 0x01 .token s.startWindow s := ⟨_, rfl⟩
  have hinput : u.inputLeft = s.bytesAt .ibuf s.inBase.toNat s.inLen.toNat := by rw [hu]; rfl
  have hwin : u.decodeArgs.win =
      if s.ctrl.linked then s.bytesAt .obuf (s.outBase.toNat - s.winLen.toNat) s.winLen.toNat else [] := by
    rw [hu]
    show s.bytesAt .obuf (s.outBase.toNat - s.startWindow.toNat) s.startWindow.toNat = _
    unfold State.startWindow
    split <;> rfl
  have hstate : u.status.state = .token := by rw [hu]; rfl
  have hcount : u.dCount = sat32 0 := by rw [hu]; rfl
  have hsize : u.decodeArgs.size = (s.bytesAt .ibuf s.inBase.toNat s.inLen.toNat).length := by
    rw [hu, length_bytesAt]
    rfl
  rw [← hu]
  refine ⟨by simp [hstate, decodeStates], u.inputLeft.length + 1, 0, Nat.lt_succ_self _, hcount, ?_⟩
  rw [hstate, ← hwin, ← hinput]
  unfold decodeClosed
  rw [hinput, ← hsize, hu]
  rfl

/-- R197: the step bound of an accepted DEC_START. -/
theorem turnsLeft_decStarted (s : State) (win : Word) :
    (engineStarted 0x01 .token win s).turnsLeft = 3 * s.inLen.toNat + s.maxSize.toNat + 1 := rfl

/-- R37, R292: a decode that has ended with DONE has the STATUS of a command that ends with success. -/
theorem status_eq_ended {s : State} {st : Status} {op : BitVec 8} (hok : st.ok) (hb : st.busy = false)
    (hdone : st.done = true) (hrej : st.rej = s.status.rej) (hcmd : st.lastCmd = op) : st = endedStatus s op := by
  obtain ⟨hidle, hexclusive, -, hclear, -⟩ := hok
  have herr : st.err = false := by simpa [hdone] using hexclusive
  have hst : st.state = .idle := by simpa [hb] using hidle
  obtain ⟨hcode, herrState⟩ := hclear herr
  cases st
  simp only at hb hdone herr hrej hcode hst herrState hcmd
  rw [hb, hdone, herr, hrej, hcode, hst, herrState, hcmd]
  rfl

/-- Settles O55. -/
theorem decStartRunAgreesWithDecode : Obligations.DecStartRunAgreesWithDecode := by
  intro s hp hb hs hcfg inp win
  have hi := decStarted_sound hp hcfg
  obtain ⟨n, t, hn, hrun, hreach, hidle⟩ := hi.reaches_idle hs
  have hout := (hreach.output hi).2
  have hf := hreach.frame
  have hcontinues := hreach.continues hi (.inl ⟨rfl, pending_decStarted s⟩)
  refine ⟨_, t, n, exec_decStart_of_cfg hb hcfg, hn.trans_eq (turnsLeft_decStarted s _), hrun, hidle, fun a ha => hout a ?_, ?_⟩
  · unfold State.outAddr
    rw [hf.outBase]
    exact ha.imp_right .inr
  · obtain ⟨hbusy, -⟩ | ⟨-, hended⟩ := hcontinues
    · rw [hidle] at hbusy; cases hbusy
    · change Ended t (decodeClosed inp win s.maxSize.toNat) at hended
      have hlen := length_output t
      have houtput : t.output = t.bytesAt .obuf s.outBase.toNat t.outLen.toNat := by unfold State.output; rw [hf.outBase]; rfl
      cases hd : decodeClosed inp win s.maxSize.toNat with
      | ok out =>
        rw [hd] at hended
        obtain ⟨hdone, hpos, rfl⟩ := hended
        refine ⟨status_eq_ended (hi.reaches hreach).status hidle hdone hf.rej hf.lastCmd, hpos.trans hf.inLen, hlen.symm, ?_⟩
        rw [hlen, houtput]
      | err code st p out =>
        rw [hd] at hended
        obtain ⟨herr, hdone, hcode, hst, hpos, rfl⟩ := hended
        refine ⟨herr, hdone, hcode, hst, hpos, hlen.symm, ?_⟩
        rw [hlen, houtput]

end Sys2Proof.Machine
end
